-- ==== Sys2Proof/Word.lean ====
section
/-! DEFINITION. The bit-vector types of the jniosemu core: words, halfwords, bytes and the fields of an
instruction word (00_scope.md R7, 10_state.md R20, 30_encoding.md R100 to R103). Types only: every operation
on them stands in Decode.lean or under Machine/. -/

namespace Sys2Proof

/-- A word: 32 bits, the width of a general register, of the PC and of an address (R6, `XLEN`). -/
abbrev Word := BitVec 32

/-- A byte: 8 bits, the addressable unit (R6, `BYTE`). -/
abbrev Byte := BitVec 8

/-- Four bits: the LED, DIP-switch and pushbutton states (R71, R74, R76). -/
abbrev Nibble := BitVec 4

/-- A register index, the 5-bit content of a field `rA`, `rB` or `rC` (R101, R102). -/
abbrev Reg := BitVec 5

/-- The 6-bit primary opcode `OP`, and the 6-bit function code `OPX` of the R-format (R100, R102). -/
abbrev Op6 := BitVec 6

/-- The field `IMM5` (R108). -/
abbrev Imm5 := BitVec 5

/-- The field `IMM16` (R107). -/
abbrev Imm16 := BitVec 16

/-- The field `IMM26` (R109). -/
abbrev Imm26 := BitVec 26

end Sys2Proof
end

