-- ==== Sys2Proof/Syntax.lean ====
section
/-! DEFINITION. The instructions: one constructor of `Instr` per row of spec/opcode_table.json, with the
operands in the order of the assembler text (45_assembler.md R246), and `Row`, the rows themselves, by which the
parameter `CATALOG` (00_scope.md R6) names what a machine accepts. -/

namespace Sys2Proof

/-- The rows of the opcode table, in the table's order: I- and J-format by `OP` (30_encoding.md R111), then
R-format by `OPX` (R112). -/
inductive Row where
  | call | jmpi | ldbu | addi | stb | br | ldb | cmpgei | ldhu | andi | sth | bge | ldh | cmplti | ori | stw
  | blt | ldw | cmpnei | xori | bne | cmpeqi | ldbuio | muli | stbio | beq | ldbio | cmpgeui | ldhuio | andhi
  | sthio | bgeu | ldhio | cmpltui | orhi | stwio | bltu | ldwio | xorhi | roli | rol | ret | nor | mulxuu
  | cmpge | ror | jmp | and | cmplt | slli | sll | or | mulxsu | cmpne | srli | srl | callr | xor | mulxss
  | cmpeq | divu | div | mul | cmpgeu | cmpltu | add | sub | srai | sra
  deriving DecidableEq, Repr

/-- A decoded instruction. Register fields an instruction does not use are no part of it (30_encoding.md R110):
the decoder drops them and the encoder writes the canonical values of R118. -/
inductive Instr where
  /-- `add rC, rA, rB` (40_arith_logic.md R131). -/
  | add (rC rA rB : Reg)
  /-- `addi rB, rA, imm16` (40_arith_logic.md R132). -/
  | addi (rB rA : Reg) (imm16 : Imm16)
  /-- `sub rC, rA, rB` (40_arith_logic.md R133). -/
  | sub (rC rA rB : Reg)
  /-- `mul rC, rA, rB` (40_arith_logic.md R134). -/
  | mul (rC rA rB : Reg)
  /-- `muli rB, rA, imm16` (40_arith_logic.md R135). -/
  | muli (rB rA : Reg) (imm16 : Imm16)
  /-- `mulxss rC, rA, rB` (40_arith_logic.md R136). -/
  | mulxss (rC rA rB : Reg)
  /-- `mulxsu rC, rA, rB` (40_arith_logic.md R137). -/
  | mulxsu (rC rA rB : Reg)
  /-- `mulxuu rC, rA, rB` (40_arith_logic.md R138). -/
  | mulxuu (rC rA rB : Reg)
  /-- `div rC, rA, rB` (40_arith_logic.md R139). -/
  | div (rC rA rB : Reg)
  /-- `divu rC, rA, rB` (40_arith_logic.md R140). -/
  | divu (rC rA rB : Reg)
  /-- `and rC, rA, rB` (40_arith_logic.md R141). -/
  | and (rC rA rB : Reg)
  /-- `andi rB, rA, imm16` (40_arith_logic.md R142). -/
  | andi (rB rA : Reg) (imm16 : Imm16)
  /-- `andhi rB, rA, imm16` (40_arith_logic.md R143). -/
  | andhi (rB rA : Reg) (imm16 : Imm16)
  /-- `or rC, rA, rB` (40_arith_logic.md R144). -/
  | or (rC rA rB : Reg)
  /-- `ori rB, rA, imm16` (40_arith_logic.md R145). -/
  | ori (rB rA : Reg) (imm16 : Imm16)
  /-- `orhi rB, rA, imm16` (40_arith_logic.md R146). -/
  | orhi (rB rA : Reg) (imm16 : Imm16)
  /-- `xor rC, rA, rB` (40_arith_logic.md R147). -/
  | xor (rC rA rB : Reg)
  /-- `xori rB, rA, imm16` (40_arith_logic.md R148). -/
  | xori (rB rA : Reg) (imm16 : Imm16)
  /-- `xorhi rB, rA, imm16` (40_arith_logic.md R149). -/
  | xorhi (rB rA : Reg) (imm16 : Imm16)
  /-- `nor rC, rA, rB` (40_arith_logic.md R150). -/
  | nor (rC rA rB : Reg)
  /-- `cmpeq rC, rA, rB` (41_compare.md R161). -/
  | cmpeq (rC rA rB : Reg)
  /-- `cmpne rC, rA, rB` (41_compare.md R162). -/
  | cmpne (rC rA rB : Reg)
  /-- `cmpge rC, rA, rB` (41_compare.md R163). -/
  | cmpge (rC rA rB : Reg)
  /-- `cmpgeu rC, rA, rB` (41_compare.md R164). -/
  | cmpgeu (rC rA rB : Reg)
  /-- `cmplt rC, rA, rB` (41_compare.md R165). -/
  | cmplt (rC rA rB : Reg)
  /-- `cmpltu rC, rA, rB` (41_compare.md R166). -/
  | cmpltu (rC rA rB : Reg)
  /-- `cmpeqi rB, rA, imm16` (41_compare.md R167). -/
  | cmpeqi (rB rA : Reg) (imm16 : Imm16)
  /-- `cmpnei rB, rA, imm16` (41_compare.md R168). -/
  | cmpnei (rB rA : Reg) (imm16 : Imm16)
  /-- `cmpgei rB, rA, imm16` (41_compare.md R169). -/
  | cmpgei (rB rA : Reg) (imm16 : Imm16)
  /-- `cmpgeui rB, rA, imm16` (41_compare.md R170). -/
  | cmpgeui (rB rA : Reg) (imm16 : Imm16)
  /-- `cmplti rB, rA, imm16` (41_compare.md R171). -/
  | cmplti (rB rA : Reg) (imm16 : Imm16)
  /-- `cmpltui rB, rA, imm16` (41_compare.md R172). -/
  | cmpltui (rB rA : Reg) (imm16 : Imm16)
  /-- `sll rC, rA, rB` (42_shift_rotate.md R181). -/
  | sll (rC rA rB : Reg)
  /-- `slli rC, rA, imm5` (42_shift_rotate.md R182). -/
  | slli (rC rA : Reg) (imm5 : Imm5)
  /-- `srl rC, rA, rB` (42_shift_rotate.md R183). -/
  | srl (rC rA rB : Reg)
  /-- `srli rC, rA, imm5` (42_shift_rotate.md R184). -/
  | srli (rC rA : Reg) (imm5 : Imm5)
  /-- `sra rC, rA, rB` (42_shift_rotate.md R185). -/
  | sra (rC rA rB : Reg)
  /-- `srai rC, rA, imm5` (42_shift_rotate.md R186). -/
  | srai (rC rA : Reg) (imm5 : Imm5)
  /-- `rol rC, rA, rB` (42_shift_rotate.md R187). -/
  | rol (rC rA rB : Reg)
  /-- `roli rC, rA, imm5` (42_shift_rotate.md R188). -/
  | roli (rC rA : Reg) (imm5 : Imm5)
  /-- `ror rC, rA, rB` (42_shift_rotate.md R189). -/
  | ror (rC rA rB : Reg)
  /-- `ldw rB, imm16(rA)` (43_load_store.md R197). -/
  | ldw (rB : Reg) (imm16 : Imm16) (rA : Reg)
  /-- `ldh rB, imm16(rA)` (43_load_store.md R198). -/
  | ldh (rB : Reg) (imm16 : Imm16) (rA : Reg)
  /-- `ldhu rB, imm16(rA)` (43_load_store.md R199). -/
  | ldhu (rB : Reg) (imm16 : Imm16) (rA : Reg)
  /-- `ldb rB, imm16(rA)` (43_load_store.md R200). -/
  | ldb (rB : Reg) (imm16 : Imm16) (rA : Reg)
  /-- `ldbu rB, imm16(rA)` (43_load_store.md R201). -/
  | ldbu (rB : Reg) (imm16 : Imm16) (rA : Reg)
  /-- `stw rB, imm16(rA)` (43_load_store.md R202). -/
  | stw (rB : Reg) (imm16 : Imm16) (rA : Reg)
  /-- `sth rB, imm16(rA)` (43_load_store.md R203). -/
  | sth (rB : Reg) (imm16 : Imm16) (rA : Reg)
  /-- `stb rB, imm16(rA)` (43_load_store.md R204). -/
  | stb (rB : Reg) (imm16 : Imm16) (rA : Reg)
  /-- `ldwio rB, imm16(rA)` (43_load_store.md R205). -/
  | ldwio (rB : Reg) (imm16 : Imm16) (rA : Reg)
  /-- `ldhio rB, imm16(rA)` (43_load_store.md R206). -/
  | ldhio (rB : Reg) (imm16 : Imm16) (rA : Reg)
  /-- `ldhuio rB, imm16(rA)` (43_load_store.md R207). -/
  | ldhuio (rB : Reg) (imm16 : Imm16) (rA : Reg)
  /-- `ldbio rB, imm16(rA)` (43_load_store.md R208). -/
  | ldbio (rB : Reg) (imm16 : Imm16) (rA : Reg)
  /-- `ldbuio rB, imm16(rA)` (43_load_store.md R209). -/
  | ldbuio (rB : Reg) (imm16 : Imm16) (rA : Reg)
  /-- `stwio rB, imm16(rA)` (43_load_store.md R210). -/
  | stwio (rB : Reg) (imm16 : Imm16) (rA : Reg)
  /-- `sthio rB, imm16(rA)` (43_load_store.md R211). -/
  | sthio (rB : Reg) (imm16 : Imm16) (rA : Reg)
  /-- `stbio rB, imm16(rA)` (43_load_store.md R212). -/
  | stbio (rB : Reg) (imm16 : Imm16) (rA : Reg)
  /-- `br label` (44_control_transfer.md R221). -/
  | br (imm16 : Imm16)
  /-- `beq rA, rB, label` (44_control_transfer.md R222). -/
  | beq (rA rB : Reg) (imm16 : Imm16)
  /-- `bne rA, rB, label` (44_control_transfer.md R223). -/
  | bne (rA rB : Reg) (imm16 : Imm16)
  /-- `bge rA, rB, label` (44_control_transfer.md R224). -/
  | bge (rA rB : Reg) (imm16 : Imm16)
  /-- `bgeu rA, rB, label` (44_control_transfer.md R225). -/
  | bgeu (rA rB : Reg) (imm16 : Imm16)
  /-- `blt rA, rB, label` (44_control_transfer.md R226). -/
  | blt (rA rB : Reg) (imm16 : Imm16)
  /-- `bltu rA, rB, label` (44_control_transfer.md R227). -/
  | bltu (rA rB : Reg) (imm16 : Imm16)
  /-- `call label` (44_control_transfer.md R228). -/
  | call (imm26 : Imm26)
  /-- `jmpi label` (44_control_transfer.md R229). -/
  | jmpi (imm26 : Imm26)
  /-- `callr rA` (44_control_transfer.md R230). -/
  | callr (rA : Reg)
  /-- `jmp rA` (44_control_transfer.md R231). -/
  | jmp (rA : Reg)
  /-- `ret` (44_control_transfer.md R232). -/
  | ret
  deriving DecidableEq, Repr

/-- The row of the opcode table an instruction belongs to. -/
def Instr.row : Instr → Row
  | .add _ _ _ => .add
  | .addi _ _ _ => .addi
  | .sub _ _ _ => .sub
  | .mul _ _ _ => .mul
  | .muli _ _ _ => .muli
  | .mulxss _ _ _ => .mulxss
  | .mulxsu _ _ _ => .mulxsu
  | .mulxuu _ _ _ => .mulxuu
  | .div _ _ _ => .div
  | .divu _ _ _ => .divu
  | .and _ _ _ => .and
  | .andi _ _ _ => .andi
  | .andhi _ _ _ => .andhi
  | .or _ _ _ => .or
  | .ori _ _ _ => .ori
  | .orhi _ _ _ => .orhi
  | .xor _ _ _ => .xor
  | .xori _ _ _ => .xori
  | .xorhi _ _ _ => .xorhi
  | .nor _ _ _ => .nor
  | .cmpeq _ _ _ => .cmpeq
  | .cmpne _ _ _ => .cmpne
  | .cmpge _ _ _ => .cmpge
  | .cmpgeu _ _ _ => .cmpgeu
  | .cmplt _ _ _ => .cmplt
  | .cmpltu _ _ _ => .cmpltu
  | .cmpeqi _ _ _ => .cmpeqi
  | .cmpnei _ _ _ => .cmpnei
  | .cmpgei _ _ _ => .cmpgei
  | .cmpgeui _ _ _ => .cmpgeui
  | .cmplti _ _ _ => .cmplti
  | .cmpltui _ _ _ => .cmpltui
  | .sll _ _ _ => .sll
  | .slli _ _ _ => .slli
  | .srl _ _ _ => .srl
  | .srli _ _ _ => .srli
  | .sra _ _ _ => .sra
  | .srai _ _ _ => .srai
  | .rol _ _ _ => .rol
  | .roli _ _ _ => .roli
  | .ror _ _ _ => .ror
  | .ldw _ _ _ => .ldw
  | .ldh _ _ _ => .ldh
  | .ldhu _ _ _ => .ldhu
  | .ldb _ _ _ => .ldb
  | .ldbu _ _ _ => .ldbu
  | .stw _ _ _ => .stw
  | .sth _ _ _ => .sth
  | .stb _ _ _ => .stb
  | .ldwio _ _ _ => .ldwio
  | .ldhio _ _ _ => .ldhio
  | .ldhuio _ _ _ => .ldhuio
  | .ldbio _ _ _ => .ldbio
  | .ldbuio _ _ _ => .ldbuio
  | .stwio _ _ _ => .stwio
  | .sthio _ _ _ => .sthio
  | .stbio _ _ _ => .stbio
  | .br _ => .br
  | .beq _ _ _ => .beq
  | .bne _ _ _ => .bne
  | .bge _ _ _ => .bge
  | .bgeu _ _ _ => .bgeu
  | .blt _ _ _ => .blt
  | .bltu _ _ _ => .bltu
  | .call _ => .call
  | .jmpi _ => .jmpi
  | .callr _ => .callr
  | .jmp _ => .jmp
  | .ret => .ret

end Sys2Proof
end

