-- ==== Sys2Proof/Config.lean ====
section
/-! DEFINITION. What one implementation of the jniosemu core fixes: the OPEN parameters of 00_scope.md R6, the
memory blocks of 20_memory.md R51, and the one free value of the model. The values of the reference configuration
`CFG0` stand in Machine/Reference.lean. -/

namespace Sys2Proof

/-- The mark of a register, kept for display; only `disabled` has an effect on execution (10_state.md R23). -/
inductive Tag where
  | untouched
  | read
  | write
  | disabled
  deriving DecidableEq, Repr

/-- The owner of a memory block: plain storage or one of the four devices (20_memory.md R51). -/
inductive BlockKind where
  | ram
  | led
  | dip
  | btn
  | serial
  deriving DecidableEq, Repr

/-- A memory block: the address range `[start, start + len)` with its owner (20_memory.md R51). -/
structure Block where
  name : String
  start : Nat
  len : Nat
  kind : BlockKind
  deriving DecidableEq, Repr

/-- The OPEN parameters of 00_scope.md R6. The bases and lengths of the device windows are the entries of `blocks`;
`divi` is `HAS_DIVI` with `OP_DIVI` (absent, or present with its primary opcode). -/
structure Config where
  /-- `BLOCKS`: the ordered list of memory blocks. -/
  blocks : List Block
  /-- `PROG_BASE`: start address of the program RAM block. -/
  progBase : Word
  /-- `PROG_LEN`: length of the program RAM block. -/
  progLen : Nat
  /-- `ENTRY`: the PC after `load` and `reset`. -/
  entry : Word
  /-- `UART_RX_OFF`: offset of the receive-data byte in the serial window. -/
  uartRxOff : Nat
  /-- `UART_TX_OFF`: offset of the transmit-data byte. -/
  uartTxOff : Nat
  /-- `UART_ST_OFF`: offset of the status byte. -/
  uartStOff : Nat
  /-- `RRDY_MASK`: the bit of the status byte for "receive ready". -/
  rrdyMask : Byte
  /-- `TIDLE_MASK`: the bit of the status byte for "transmit idle". -/
  tidleMask : Byte
  /-- `INPUT_ACTIVE_HIGH`: a pressed button or an on switch reads as 1. -/
  inputActiveHigh : Bool
  /-- `CATALOG`: the rows of the opcode table the decoder accepts. -/
  catalog : List Row
  /-- `HAS_DIVI` and `OP_DIVI` (30_encoding.md R117). -/
  divi : Option Op6
  /-- `J_UPPER_FROM_PC`: J-format targets take bits 31:28 from the PC (30_encoding.md R109). -/
  jUpperFromPc : Bool
  /-- `DIV_OVF`: the quotient of `-2^31` by `-1` (40_arith_logic.md R139). -/
  divOvf : Word
  /-- `REG_RESET`: the register values after `load` and `reset`; entry 0 is not used (10_state.md R41). -/
  regReset : Vector Word 32
  /-- `DISABLED`: the registers whose tag is `disabled` (10_state.md R23). -/
  disabled : List Reg
  /-- `RUN_LIMIT`: the host's bound on the steps of one `run`, if it sets one (10_state.md R32). -/
  runLimit : Option Nat
  deriving DecidableEq, Repr

/-- FREE VALUE (notes/assumptions/4.md). Whether a discarded write to register 0 marks its tag `write`: not stated
by 10_state.md R25, "any value" by 93_implementation_defined.md U26. It may depend on the value discarded and on the
tag register 0 had. It has no body: nothing proves which. -/
opaque Config.discardedWriteMarks : Word → Tag → Bool

end Sys2Proof
end

