-- ==== Sys2Proof/WellFormed.lean ====
section
/-! DEFINITION. Which instructions are well formed. Every field of `Instr` has exactly the width of its field in the
instruction word, so the one thing left to check is 30_encoding.md R113: `call` with `IMM26 = 0` has the encoding
of the halt sentinel and is no executable instruction. -/

namespace Sys2Proof

/-- An instruction that has an encoding the core executes: every one but `call 0` (30_encoding.md R113,
44_control_transfer.md R228). -/
def Instr.wellFormed : Instr → Bool
  | .add _ _ _ => true
  | .addi _ _ _ => true
  | .sub _ _ _ => true
  | .mul _ _ _ => true
  | .muli _ _ _ => true
  | .mulxss _ _ _ => true
  | .mulxsu _ _ _ => true
  | .mulxuu _ _ _ => true
  | .div _ _ _ => true
  | .divu _ _ _ => true
  | .and _ _ _ => true
  | .andi _ _ _ => true
  | .andhi _ _ _ => true
  | .or _ _ _ => true
  | .ori _ _ _ => true
  | .orhi _ _ _ => true
  | .xor _ _ _ => true
  | .xori _ _ _ => true
  | .xorhi _ _ _ => true
  | .nor _ _ _ => true
  | .cmpeq _ _ _ => true
  | .cmpne _ _ _ => true
  | .cmpge _ _ _ => true
  | .cmpgeu _ _ _ => true
  | .cmplt _ _ _ => true
  | .cmpltu _ _ _ => true
  | .cmpeqi _ _ _ => true
  | .cmpnei _ _ _ => true
  | .cmpgei _ _ _ => true
  | .cmpgeui _ _ _ => true
  | .cmplti _ _ _ => true
  | .cmpltui _ _ _ => true
  | .sll _ _ _ => true
  | .slli _ _ _ => true
  | .srl _ _ _ => true
  | .srli _ _ _ => true
  | .sra _ _ _ => true
  | .srai _ _ _ => true
  | .rol _ _ _ => true
  | .roli _ _ _ => true
  | .ror _ _ _ => true
  | .ldw _ _ _ => true
  | .ldh _ _ _ => true
  | .ldhu _ _ _ => true
  | .ldb _ _ _ => true
  | .ldbu _ _ _ => true
  | .stw _ _ _ => true
  | .sth _ _ _ => true
  | .stb _ _ _ => true
  | .ldwio _ _ _ => true
  | .ldhio _ _ _ => true
  | .ldhuio _ _ _ => true
  | .ldbio _ _ _ => true
  | .ldbuio _ _ _ => true
  | .stwio _ _ _ => true
  | .sthio _ _ _ => true
  | .stbio _ _ _ => true
  | .br _ => true
  | .beq _ _ _ => true
  | .bne _ _ _ => true
  | .bge _ _ _ => true
  | .bgeu _ _ _ => true
  | .blt _ _ _ => true
  | .bltu _ _ _ => true
  | .call imm26 => imm26 != 0#26
  | .jmpi _ => true
  | .callr _ => true
  | .jmp _ => true
  | .ret => true

end Sys2Proof
end

