-- ==== Sys2Proof/Decode.lean ====
section
/-! DEFINITION. Decoding and encoding (30_encoding.md). The decoder is total on 32-bit words and rejects by name the
three classes of illegal word of R114 and the rows a configuration leaves out of its catalog; the encoder writes the
word of an instruction from the same tables. `Row.mask` and `Row.pattern` are the opcode table's own columns, by
which statements compare the decoder with the table. -/

namespace Sys2Proof

/-! ## Fields of an instruction word (R100 to R103) -/

/-- `OP`, bits 5:0 (R100). -/
def fieldOp (w : Word) : Op6 := w.extractLsb' 0 6

/-- `OPX`, bits 16:11 (R102). -/
def fieldOpx (w : Word) : Op6 := w.extractLsb' 11 6

/-- `rA`, bits 31:27 (R101, R102). -/
def fieldA (w : Word) : Reg := w.extractLsb' 27 5

/-- `rB`, bits 26:22 (R101, R102). -/
def fieldB (w : Word) : Reg := w.extractLsb' 22 5

/-- `rC`, bits 21:17 (R102). -/
def fieldC (w : Word) : Reg := w.extractLsb' 17 5

/-- `IMM5`, bits 10:6 (R102). -/
def fieldImm5 (w : Word) : Imm5 := w.extractLsb' 6 5

/-- `IMM16`, bits 21:6 (R101). -/
def fieldImm16 (w : Word) : Imm16 := w.extractLsb' 6 16

/-- `IMM26`, bits 31:6 (R103). -/
def fieldImm26 (w : Word) : Imm26 := w.extractLsb' 6 26

/-- `OP_RTYPE`: the primary opcode that selects the R-format (00_scope.md R6). -/
def opRType : Op6 := 0x3A#6

/-! ## The decoder (R104, R105, R110 to R114) -/

/-- Why a word does not decode: the classes (a), (b) and (c) of R114, and a row that the parameter `CATALOG` leaves
out. The fault a step raises carries the whole word whatever the class (R106). -/
inductive Rejection where
  /-- R114 (a): `OP` is not in the table of R111. -/
  | unassignedOp (op : Op6)
  /-- R114 (b): `OP` is `OP_RTYPE` and `OPX` is not in the table of R112. -/
  | unassignedOpx (opx : Op6)
  /-- R114 (c): an R-format row without an `IMM5` operand, with `IMM5` not 0. -/
  | imm5NotZero (imm5 : Imm5)
  /-- The row is not in the machine's catalog (R104, parameter `CATALOG`). -/
  | notInCatalog (row : Row)
  deriving DecidableEq, Repr

/-- An R-format row without an `IMM5` operand is selected only where the `IMM5` bits are 0 (R104). -/
def requireImm5Zero (imm5 : Imm5) (i : Instr) : Except Rejection Instr :=
  if imm5 = 0#5 then .ok i else .error (.imm5NotZero imm5)

/-- The R-format rows, by `OPX` (R112). -/
def decodeR (w : Word) : Except Rejection Instr :=
  let rA := fieldA w
  let rB := fieldB w
  let rC := fieldC w
  let imm5 := fieldImm5 w
  match (fieldOpx w).toNat with
  | 0x02 => .ok (.roli rC rA imm5)
  | 0x03 => requireImm5Zero imm5 (.rol rC rA rB)
  | 0x05 => requireImm5Zero imm5 .ret
  | 0x06 => requireImm5Zero imm5 (.nor rC rA rB)
  | 0x07 => requireImm5Zero imm5 (.mulxuu rC rA rB)
  | 0x08 => requireImm5Zero imm5 (.cmpge rC rA rB)
  | 0x0B => requireImm5Zero imm5 (.ror rC rA rB)
  | 0x0D => requireImm5Zero imm5 (.jmp rA)
  | 0x0E => requireImm5Zero imm5 (.and rC rA rB)
  | 0x10 => requireImm5Zero imm5 (.cmplt rC rA rB)
  | 0x12 => .ok (.slli rC rA imm5)
  | 0x13 => requireImm5Zero imm5 (.sll rC rA rB)
  | 0x16 => requireImm5Zero imm5 (.or rC rA rB)
  | 0x17 => requireImm5Zero imm5 (.mulxsu rC rA rB)
  | 0x18 => requireImm5Zero imm5 (.cmpne rC rA rB)
  | 0x1A => .ok (.srli rC rA imm5)
  | 0x1B => requireImm5Zero imm5 (.srl rC rA rB)
  | 0x1D => requireImm5Zero imm5 (.callr rA)
  | 0x1E => requireImm5Zero imm5 (.xor rC rA rB)
  | 0x1F => requireImm5Zero imm5 (.mulxss rC rA rB)
  | 0x20 => requireImm5Zero imm5 (.cmpeq rC rA rB)
  | 0x24 => requireImm5Zero imm5 (.divu rC rA rB)
  | 0x25 => requireImm5Zero imm5 (.div rC rA rB)
  | 0x27 => requireImm5Zero imm5 (.mul rC rA rB)
  | 0x28 => requireImm5Zero imm5 (.cmpgeu rC rA rB)
  | 0x30 => requireImm5Zero imm5 (.cmpltu rC rA rB)
  | 0x31 => requireImm5Zero imm5 (.add rC rA rB)
  | 0x39 => requireImm5Zero imm5 (.sub rC rA rB)
  | 0x3A => .ok (.srai rC rA imm5)
  | 0x3B => requireImm5Zero imm5 (.sra rC rA rB)
  | _ => .error (.unassignedOpx (fieldOpx w))

/-- `Decode(w)`: the instruction of the row of the opcode table that the word selects (R105, R111). The word 0 is
decoded like any other, to `call 0`; the step never gives it to the decoder (R113). -/
def decode (w : Word) : Except Rejection Instr :=
  let rA := fieldA w
  let rB := fieldB w
  let imm16 := fieldImm16 w
  let imm26 := fieldImm26 w
  match (fieldOp w).toNat with
  | 0x00 => .ok (.call imm26)
  | 0x01 => .ok (.jmpi imm26)
  | 0x03 => .ok (.ldbu rB imm16 rA)
  | 0x04 => .ok (.addi rB rA imm16)
  | 0x05 => .ok (.stb rB imm16 rA)
  | 0x06 => .ok (.br imm16)
  | 0x07 => .ok (.ldb rB imm16 rA)
  | 0x08 => .ok (.cmpgei rB rA imm16)
  | 0x0B => .ok (.ldhu rB imm16 rA)
  | 0x0C => .ok (.andi rB rA imm16)
  | 0x0D => .ok (.sth rB imm16 rA)
  | 0x0E => .ok (.bge rA rB imm16)
  | 0x0F => .ok (.ldh rB imm16 rA)
  | 0x10 => .ok (.cmplti rB rA imm16)
  | 0x14 => .ok (.ori rB rA imm16)
  | 0x15 => .ok (.stw rB imm16 rA)
  | 0x16 => .ok (.blt rA rB imm16)
  | 0x17 => .ok (.ldw rB imm16 rA)
  | 0x18 => .ok (.cmpnei rB rA imm16)
  | 0x1C => .ok (.xori rB rA imm16)
  | 0x1E => .ok (.bne rA rB imm16)
  | 0x20 => .ok (.cmpeqi rB rA imm16)
  | 0x23 => .ok (.ldbuio rB imm16 rA)
  | 0x24 => .ok (.muli rB rA imm16)
  | 0x25 => .ok (.stbio rB imm16 rA)
  | 0x26 => .ok (.beq rA rB imm16)
  | 0x27 => .ok (.ldbio rB imm16 rA)
  | 0x28 => .ok (.cmpgeui rB rA imm16)
  | 0x2B => .ok (.ldhuio rB imm16 rA)
  | 0x2C => .ok (.andhi rB rA imm16)
  | 0x2D => .ok (.sthio rB imm16 rA)
  | 0x2E => .ok (.bgeu rA rB imm16)
  | 0x2F => .ok (.ldhio rB imm16 rA)
  | 0x30 => .ok (.cmpltui rB rA imm16)
  | 0x34 => .ok (.orhi rB rA imm16)
  | 0x35 => .ok (.stwio rB imm16 rA)
  | 0x36 => .ok (.bltu rA rB imm16)
  | 0x37 => .ok (.ldwio rB imm16 rA)
  | 0x3C => .ok (.xorhi rB rA imm16)
  | 0x3A => decodeR w
  | _ => .error (.unassignedOp (fieldOp w))

/-- What a step executes: an instruction of the opcode table, or the optional row `divi` (R117), which the opcode
table does not hold because it has no opcode number. -/
inductive Decoded where
  | row (i : Instr)
  | divi (rB rA : Reg) (imm16 : Imm16)
  deriving DecidableEq, Repr

/-- The decoder of a machine with configuration `cfg`: the rows of its `CATALOG`, and the row `divi` where `HAS_DIVI`
(R104, R117). -/
def Config.decode (cfg : Config) (w : Word) : Except Rejection Decoded :=
  match Sys2Proof.decode w with
  | .ok i => if i.row ∈ cfg.catalog then .ok (.row i) else .error (.notInCatalog i.row)
  | .error r =>
    if cfg.divi = some (fieldOp w) then .ok (.divi (fieldB w) (fieldA w) (fieldImm16 w)) else .error r

/-! ## The opcode table's own columns (R104, R111, R112) -/

/-- The column `match` of opcode_table.json. -/
def Row.pattern : Row → Word
  | .call => 0x00000000#32
  | .jmpi => 0x00000001#32
  | .ldbu => 0x00000003#32
  | .addi => 0x00000004#32
  | .stb => 0x00000005#32
  | .br => 0x00000006#32
  | .ldb => 0x00000007#32
  | .cmpgei => 0x00000008#32
  | .ldhu => 0x0000000B#32
  | .andi => 0x0000000C#32
  | .sth => 0x0000000D#32
  | .bge => 0x0000000E#32
  | .ldh => 0x0000000F#32
  | .cmplti => 0x00000010#32
  | .ori => 0x00000014#32
  | .stw => 0x00000015#32
  | .blt => 0x00000016#32
  | .ldw => 0x00000017#32
  | .cmpnei => 0x00000018#32
  | .xori => 0x0000001C#32
  | .bne => 0x0000001E#32
  | .cmpeqi => 0x00000020#32
  | .ldbuio => 0x00000023#32
  | .muli => 0x00000024#32
  | .stbio => 0x00000025#32
  | .beq => 0x00000026#32
  | .ldbio => 0x00000027#32
  | .cmpgeui => 0x00000028#32
  | .ldhuio => 0x0000002B#32
  | .andhi => 0x0000002C#32
  | .sthio => 0x0000002D#32
  | .bgeu => 0x0000002E#32
  | .ldhio => 0x0000002F#32
  | .cmpltui => 0x00000030#32
  | .orhi => 0x00000034#32
  | .stwio => 0x00000035#32
  | .bltu => 0x00000036#32
  | .ldwio => 0x00000037#32
  | .xorhi => 0x0000003C#32
  | .roli => 0x0000103A#32
  | .rol => 0x0000183A#32
  | .ret => 0x0000283A#32
  | .nor => 0x0000303A#32
  | .mulxuu => 0x0000383A#32
  | .cmpge => 0x0000403A#32
  | .ror => 0x0000583A#32
  | .jmp => 0x0000683A#32
  | .and => 0x0000703A#32
  | .cmplt => 0x0000803A#32
  | .slli => 0x0000903A#32
  | .sll => 0x0000983A#32
  | .or => 0x0000B03A#32
  | .mulxsu => 0x0000B83A#32
  | .cmpne => 0x0000C03A#32
  | .srli => 0x0000D03A#32
  | .srl => 0x0000D83A#32
  | .callr => 0x0000E83A#32
  | .xor => 0x0000F03A#32
  | .mulxss => 0x0000F83A#32
  | .cmpeq => 0x0001003A#32
  | .divu => 0x0001203A#32
  | .div => 0x0001283A#32
  | .mul => 0x0001383A#32
  | .cmpgeu => 0x0001403A#32
  | .cmpltu => 0x0001803A#32
  | .add => 0x0001883A#32
  | .sub => 0x0001C83A#32
  | .srai => 0x0001D03A#32
  | .sra => 0x0001D83A#32

/-- The column `mask` of opcode_table.json: `OP` for I- and J-format rows; `OP` and the 11-bit extension field for
R-format rows, less the `IMM5` bits for the four shift-immediate rows (R104). -/
def Row.mask : Row → Word
  | .call => 0x0000003F#32
  | .jmpi => 0x0000003F#32
  | .ldbu => 0x0000003F#32
  | .addi => 0x0000003F#32
  | .stb => 0x0000003F#32
  | .br => 0x0000003F#32
  | .ldb => 0x0000003F#32
  | .cmpgei => 0x0000003F#32
  | .ldhu => 0x0000003F#32
  | .andi => 0x0000003F#32
  | .sth => 0x0000003F#32
  | .bge => 0x0000003F#32
  | .ldh => 0x0000003F#32
  | .cmplti => 0x0000003F#32
  | .ori => 0x0000003F#32
  | .stw => 0x0000003F#32
  | .blt => 0x0000003F#32
  | .ldw => 0x0000003F#32
  | .cmpnei => 0x0000003F#32
  | .xori => 0x0000003F#32
  | .bne => 0x0000003F#32
  | .cmpeqi => 0x0000003F#32
  | .ldbuio => 0x0000003F#32
  | .muli => 0x0000003F#32
  | .stbio => 0x0000003F#32
  | .beq => 0x0000003F#32
  | .ldbio => 0x0000003F#32
  | .cmpgeui => 0x0000003F#32
  | .ldhuio => 0x0000003F#32
  | .andhi => 0x0000003F#32
  | .sthio => 0x0000003F#32
  | .bgeu => 0x0000003F#32
  | .ldhio => 0x0000003F#32
  | .cmpltui => 0x0000003F#32
  | .orhi => 0x0000003F#32
  | .stwio => 0x0000003F#32
  | .bltu => 0x0000003F#32
  | .ldwio => 0x0000003F#32
  | .xorhi => 0x0000003F#32
  | .roli => 0x0001F83F#32
  | .rol => 0x0001FFFF#32
  | .ret => 0x0001FFFF#32
  | .nor => 0x0001FFFF#32
  | .mulxuu => 0x0001FFFF#32
  | .cmpge => 0x0001FFFF#32
  | .ror => 0x0001FFFF#32
  | .jmp => 0x0001FFFF#32
  | .and => 0x0001FFFF#32
  | .cmplt => 0x0001FFFF#32
  | .slli => 0x0001F83F#32
  | .sll => 0x0001FFFF#32
  | .or => 0x0001FFFF#32
  | .mulxsu => 0x0001FFFF#32
  | .cmpne => 0x0001FFFF#32
  | .srli => 0x0001F83F#32
  | .srl => 0x0001FFFF#32
  | .callr => 0x0001FFFF#32
  | .xor => 0x0001FFFF#32
  | .mulxss => 0x0001FFFF#32
  | .cmpeq => 0x0001FFFF#32
  | .divu => 0x0001FFFF#32
  | .div => 0x0001FFFF#32
  | .mul => 0x0001FFFF#32
  | .cmpgeu => 0x0001FFFF#32
  | .cmpltu => 0x0001FFFF#32
  | .add => 0x0001FFFF#32
  | .sub => 0x0001FFFF#32
  | .srai => 0x0001F83F#32
  | .sra => 0x0001FFFF#32

/-- A word selects a row when its masked bits are the row's pattern (R104). -/
def Row.selects (r : Row) (w : Word) : Bool := w &&& r.mask == r.pattern

/-- Every row of the opcode table, in its order. -/
def Row.all : List Row :=
  [.call, .jmpi, .ldbu, .addi, .stb, .br, .ldb, .cmpgei, .ldhu, .andi,
   .sth, .bge, .ldh, .cmplti, .ori, .stw, .blt, .ldw, .cmpnei, .xori,
   .bne, .cmpeqi, .ldbuio, .muli, .stbio, .beq, .ldbio, .cmpgeui, .ldhuio, .andhi,
   .sthio, .bgeu, .ldhio, .cmpltui, .orhi, .stwio, .bltu, .ldwio, .xorhi, .roli,
   .rol, .ret, .nor, .mulxuu, .cmpge, .ror, .jmp, .and, .cmplt, .slli,
   .sll, .or, .mulxsu, .cmpne, .srli, .srl, .callr, .xor, .mulxss, .cmpeq,
   .divu, .div, .mul, .cmpgeu, .cmpltu, .add, .sub, .srai, .sra]

/-! ## The encoder (R116, R118) -/

/-- `EncI(op, rA, rB, imm16)` (R116): the fields of R101 side by side. -/
def encI (op : Op6) (rA rB : Reg) (imm16 : Imm16) : Word := rA ++ rB ++ imm16 ++ op

/-- `EncR(opx, rA, rB, rC, imm5)` (R116): the fields of R102 side by side. -/
def encR (opx : Op6) (rA rB rC : Reg) (imm5 : Imm5) : Word := rA ++ rB ++ rC ++ opx ++ imm5 ++ opRType

/-- `EncJ(op, imm26)` (R116): the fields of R103 side by side. -/
def encJ (op : Op6) (imm26 : Imm26) : Word := imm26 ++ op

/-- The word of an instruction, unused fields at their canonical values (R116, R118). -/
def encode : Instr → Word
  | .add rC rA rB => encR 0x31#6 rA rB rC 0#5
  | .addi rB rA imm16 => encI 0x04#6 rA rB imm16
  | .sub rC rA rB => encR 0x39#6 rA rB rC 0#5
  | .mul rC rA rB => encR 0x27#6 rA rB rC 0#5
  | .muli rB rA imm16 => encI 0x24#6 rA rB imm16
  | .mulxss rC rA rB => encR 0x1F#6 rA rB rC 0#5
  | .mulxsu rC rA rB => encR 0x17#6 rA rB rC 0#5
  | .mulxuu rC rA rB => encR 0x07#6 rA rB rC 0#5
  | .div rC rA rB => encR 0x25#6 rA rB rC 0#5
  | .divu rC rA rB => encR 0x24#6 rA rB rC 0#5
  | .and rC rA rB => encR 0x0E#6 rA rB rC 0#5
  | .andi rB rA imm16 => encI 0x0C#6 rA rB imm16
  | .andhi rB rA imm16 => encI 0x2C#6 rA rB imm16
  | .or rC rA rB => encR 0x16#6 rA rB rC 0#5
  | .ori rB rA imm16 => encI 0x14#6 rA rB imm16
  | .orhi rB rA imm16 => encI 0x34#6 rA rB imm16
  | .xor rC rA rB => encR 0x1E#6 rA rB rC 0#5
  | .xori rB rA imm16 => encI 0x1C#6 rA rB imm16
  | .xorhi rB rA imm16 => encI 0x3C#6 rA rB imm16
  | .nor rC rA rB => encR 0x06#6 rA rB rC 0#5
  | .cmpeq rC rA rB => encR 0x20#6 rA rB rC 0#5
  | .cmpne rC rA rB => encR 0x18#6 rA rB rC 0#5
  | .cmpge rC rA rB => encR 0x08#6 rA rB rC 0#5
  | .cmpgeu rC rA rB => encR 0x28#6 rA rB rC 0#5
  | .cmplt rC rA rB => encR 0x10#6 rA rB rC 0#5
  | .cmpltu rC rA rB => encR 0x30#6 rA rB rC 0#5
  | .cmpeqi rB rA imm16 => encI 0x20#6 rA rB imm16
  | .cmpnei rB rA imm16 => encI 0x18#6 rA rB imm16
  | .cmpgei rB rA imm16 => encI 0x08#6 rA rB imm16
  | .cmpgeui rB rA imm16 => encI 0x28#6 rA rB imm16
  | .cmplti rB rA imm16 => encI 0x10#6 rA rB imm16
  | .cmpltui rB rA imm16 => encI 0x30#6 rA rB imm16
  | .sll rC rA rB => encR 0x13#6 rA rB rC 0#5
  | .slli rC rA imm5 => encR 0x12#6 rA 0#5 rC imm5
  | .srl rC rA rB => encR 0x1B#6 rA rB rC 0#5
  | .srli rC rA imm5 => encR 0x1A#6 rA 0#5 rC imm5
  | .sra rC rA rB => encR 0x3B#6 rA rB rC 0#5
  | .srai rC rA imm5 => encR 0x3A#6 rA 0#5 rC imm5
  | .rol rC rA rB => encR 0x03#6 rA rB rC 0#5
  | .roli rC rA imm5 => encR 0x02#6 rA 0#5 rC imm5
  | .ror rC rA rB => encR 0x0B#6 rA rB rC 0#5
  | .ldw rB imm16 rA => encI 0x17#6 rA rB imm16
  | .ldh rB imm16 rA => encI 0x0F#6 rA rB imm16
  | .ldhu rB imm16 rA => encI 0x0B#6 rA rB imm16
  | .ldb rB imm16 rA => encI 0x07#6 rA rB imm16
  | .ldbu rB imm16 rA => encI 0x03#6 rA rB imm16
  | .stw rB imm16 rA => encI 0x15#6 rA rB imm16
  | .sth rB imm16 rA => encI 0x0D#6 rA rB imm16
  | .stb rB imm16 rA => encI 0x05#6 rA rB imm16
  | .ldwio rB imm16 rA => encI 0x37#6 rA rB imm16
  | .ldhio rB imm16 rA => encI 0x2F#6 rA rB imm16
  | .ldhuio rB imm16 rA => encI 0x2B#6 rA rB imm16
  | .ldbio rB imm16 rA => encI 0x27#6 rA rB imm16
  | .ldbuio rB imm16 rA => encI 0x23#6 rA rB imm16
  | .stwio rB imm16 rA => encI 0x35#6 rA rB imm16
  | .sthio rB imm16 rA => encI 0x2D#6 rA rB imm16
  | .stbio rB imm16 rA => encI 0x25#6 rA rB imm16
  | .br imm16 => encI 0x06#6 0#5 0#5 imm16
  | .beq rA rB imm16 => encI 0x26#6 rA rB imm16
  | .bne rA rB imm16 => encI 0x1E#6 rA rB imm16
  | .bge rA rB imm16 => encI 0x0E#6 rA rB imm16
  | .bgeu rA rB imm16 => encI 0x2E#6 rA rB imm16
  | .blt rA rB imm16 => encI 0x16#6 rA rB imm16
  | .bltu rA rB imm16 => encI 0x36#6 rA rB imm16
  | .call imm26 => encJ 0x00#6 imm26
  | .jmpi imm26 => encJ 0x01#6 imm26
  | .callr rA => encR 0x1D#6 rA 0#5 31#5 0#5
  | .jmp rA => encR 0x0D#6 rA 0#5 0#5 0#5
  | .ret => encR 0x05#6 31#5 0#5 0#5 0#5

/-- The word of the optional row `divi` on a machine whose `OP_DIVI` is `op` (R117). -/
def encodeDivi (op : Op6) (rB rA : Reg) (imm16 : Imm16) : Word := encI op rA rB imm16

/-- The word of an instruction on a machine with configuration `cfg`; none where its catalog lacks the instruction, `divi`
where `HAS_DIVI` is false among them (R104, R117). -/
def Config.encode (cfg : Config) : Decoded → Option Word
  | .row i => if i.row ∈ cfg.catalog then some (Sys2Proof.encode i) else none
  | .divi rB rA imm16 => cfg.divi.map (fun op => encodeDivi op rB rA imm16)

/-! ## Words and bytes (20_memory.md R64) -/

/-- The word whose bytes, from the lowest address up, are `bs`: little-endian. -/
def littleEndian : List Byte → Word
  | [] => 0#32
  | b :: bs => (littleEndian bs <<< 8) ||| b.setWidth 32

/-- Byte `i` of a word, bits `8i+7 : 8i`; byte 0 goes to the lowest address. -/
def byteOf (v : Word) (i : Nat) : Byte := v.extractLsb' (8 * i) 8

/-- The four bytes of a word from the lowest address up. -/
def wordBytes (v : Word) : List Byte := [byteOf v 0, byteOf v 1, byteOf v 2, byteOf v 3]

/-- The host's question: what the decoder reads from an instruction whose first `nbits` bits are `w`, every bit above
them 0, laid out in memory as the hardware stores it and read back. -/
def decodeTableWord (nbits w : Nat) : Option Instr :=
  match decode (littleEndian (wordBytes (BitVec.ofNat 32 (w % 2 ^ nbits)))) with
  | .ok i => some i
  | .error _ => none

end Sys2Proof
end

