-- ==== Sys2Proof/Machine/Reference.lean ====
section
/-! DEFINITION. The reference configuration `CFG0` (00_scope.md R6, 20_memory.md R56). Its numbers are the spec's own
choices (92_eei_decisions.md D14, D15 and the decisions R6 cites), not the original's. -/

namespace Sys2Proof

/-- The block list of `CFG0` (20_memory.md R56), for a program block of `progLen` bytes. -/
def Config.cfg0Blocks (progLen : Nat) : List Block :=
  [ { name := "PROGRAM", start := 0x00020000, len := progLen, kind := .ram },
    { name := "LED", start := 0x00000810, len := 4, kind := .led },
    { name := "BUTTON", start := 0x00000840, len := 4, kind := .btn },
    { name := "DIPSWITCH", start := 0x00000850, len := 4, kind := .dip },
    { name := "SERIAL", start := 0x00000860, len := 12, kind := .serial } ]

/-- `CFG0`, for an image of `progLen` bytes: every parameter of 00_scope.md R6 at its reference value. -/
def Config.cfg0 (progLen : Nat) : Config where
  blocks := Config.cfg0Blocks progLen
  progBase := 0x00020000#32
  progLen := progLen
  entry := 0x00020000#32
  uartRxOff := 0
  uartTxOff := 4
  uartStOff := 8
  rrdyMask := 0x80#8
  tidleMask := 0x40#8
  inputActiveHigh := true
  catalog := Row.all
  divi := none
  jUpperFromPc := false
  divOvf := 0x80000000#32
  regReset := Vector.replicate 32 0#32
  disabled := []
  runLimit := none

end Sys2Proof
end

