-- ==== Sys2Proof/Machine/State.lean ====
section
/-! DEFINITION. The state of the jniosemu core, whole, as plain data (10_state.md R20 to R41), the faults a step can
raise (60_exceptions.md R280), the refusals of the model, and the state after reset. -/

namespace Sys2Proof.Machine

/-- The run state of the engine (10_state.md R30). -/
inductive RunState where
  | idle
  | loaded
  | running
  | halted
  deriving DecidableEq, Repr

/-- An output event: the only effects of a step that leave the core (10_state.md R36). -/
inductive OutputEvent where
  /-- `LedUpdate(n)`, by a write to the LED data byte (20_memory.md R72). -/
  | ledUpdate (n : Nibble)
  /-- `SerialOut(b)`, by a write to the serial transmit byte (20_memory.md R81). -/
  | serialOut (b : Byte)
  deriving DecidableEq, Repr

/-- A program image: the bytes and the start address (45_assembler.md R265). -/
structure Image where
  bytes : List Byte
  start : Word
  deriving DecidableEq, Repr

/-- The contents of the RAM blocks: the bytes that are not `0x00`, by address, addresses strictly rising. A byte that
is not listed reads `0x00` (20_memory.md R55: "uninitialized memory reads as zero"). -/
abbrev Memory := List Host.Cell

/-- The 32 register tags (10_state.md R23). -/
abbrev Tags := Vector Tag 32

/-- The state. `cfg` and `snapshot` are constants of a run that the step's type has no other place for (10_state.md R39;
notes/assumptions/1.md): no step changes them. -/
structure State where
  /-- The OPEN parameters of 00_scope.md R6. -/
  cfg : Config
  /-- The general registers `R[0]` to `R[31]` (10_state.md R20). -/
  regs : Vector Word 32
  /-- The register tags (10_state.md R23). -/
  tags : Tags
  /-- The program counter (10_state.md R27). -/
  pc : Word
  /-- The run state (10_state.md R30). -/
  run : RunState
  /-- The bytes of every RAM block (20_memory.md R55). -/
  mem : Memory
  /-- The LED nibble (20_memory.md R71). -/
  led : Nibble
  /-- The serial receive-data byte (20_memory.md R77). -/
  rx : Byte
  /-- The serial transmit-data byte (20_memory.md R77). -/
  tx : Byte
  /-- The serial flag "receive ready" (20_memory.md R77). -/
  rrdy : Bool
  /-- The switch positions, the host's (20_memory.md R74). -/
  sw : Nibble
  /-- The button positions, the host's (20_memory.md R76). -/
  btn : Nibble
  /-- The serial input queue, first in first out, filled by the host (20_memory.md R78). -/
  inq : List Byte
  /-- The output trace, in the order the stores commit (10_state.md R36). -/
  trace : List OutputEvent
  /-- The image `reset` restores, once one was loaded (70_reset_and_hazards.md R311). -/
  snapshot : Option Image
  deriving DecidableEq, Repr

/-- What the host receives with a fault: the failing PC (60_exceptions.md R287) and the register tags, the one thing
a faulting step has changed (R286). -/
structure Report where
  pc : Word
  tags : Tags
  deriving DecidableEq, Repr

/-- The faults of 60_exceptions.md R280, each with its report and payload. Every one is the spec's own, so stopping
with it is what the hardware does; the state stays as it was before the step (R286), but for the tags (`Report`). -/
inductive Fault where
  /-- `DecodeError(w)`, code 1: raised by the decode stage of a step for a non-zero word that no row of the catalog
  matches (30_encoding.md R114). Safe: the hardware faults too. -/
  | decodeError (report : Report) (w : Word)
  /-- `RegisterError(i)`, code 2: raised by an instruction that reads or writes a register whose tag is `disabled`
  (10_state.md R24, R25). Safe: the hardware faults too. -/
  | registerError (report : Report) (i : Reg)
  /-- `MemoryError(a)`, code 3: raised by the fetch, a load or a store for the lowest byte address that no block holds or
  that a store may not write (20_memory.md R61, R66). Safe: the hardware faults too, but for the order of the byte
  checks, which is the spec's decision D16 and D17. -/
  | memoryError (report : Report) (a : Word)
  /-- `EmulatorError(MisalignedPC, t)`, code 4: raised by a control transfer to a target that is not a multiple of 4
  (10_state.md R29). Safe: the hardware faults too. -/
  | misalignedPC (report : Report) (t : Word)
  /-- `EmulatorError(DivideByZero)`, code 5: raised by a divide whose divisor is 0 (40_arith_logic.md R139, R140, R151).
  Safe: the hardware faults too. -/
  | divideByZero (report : Report)
  deriving DecidableEq, Repr

/-- Why the model answers neither a next state nor a fault of the hardware. -/
inductive Refusal where
  /-- An instruction that has no meaning yet; no arm of `exec` answers it. Safe. -/
  | notModelled (mnemonic : String)
  /-- A command other than `load` or a stimulus in run state `Idle` (10_state.md R30). Safe: the spec refuses it. -/
  | noImageLoaded
  /-- `load` on a configuration that is not one of this hardware (20_memory.md R51, R52). Safe: the spec refuses it. -/
  | invalidConfiguration
  /-- `load` of an image whose start address is not `PROG_BASE` (70_reset_and_hazards.md R311). Safe: as the spec. -/
  | imageStartMismatch
  /-- `load` of an image whose start address is not a multiple of 4 (70_reset_and_hazards.md R311). Safe: as the spec. -/
  | imageStartMisaligned
  /-- `load` of an image longer than `PROG_LEN` (70_reset_and_hazards.md R311). Safe: as the spec. -/
  | imageTooLong
  /-- `load` with an `ENTRY` that is not a multiple of 4 (70_reset_and_hazards.md R311). Safe: as the spec. -/
  | entryMisaligned
  deriving DecidableEq, Repr

/-- The state after reset (10_state.md R41), in `CFG0` with the image of the empty program: the reserved zero word alone
(45_assembler.md R260), so that memory lists nothing. The host's state (switches, buttons, input queue, output trace),
which a reset does not touch, is empty (notes/assumptions/2.md and 3.md). -/
def State.reset : State where
  cfg := Config.cfg0 4
  regs := Vector.replicate 32 0#32
  tags := Vector.replicate 32 .untouched
  pc := 0x00020000#32
  run := .loaded
  mem := []
  led := 0#4
  rx := 0#8
  tx := 0#8
  rrdy := false
  sw := 0#4
  btn := 0#4
  inq := []
  trace := []
  snapshot := some { bytes := [0#8, 0#8, 0#8, 0#8], start := 0x00020000#32 }

end Sys2Proof.Machine
end

