-- ==== Sys2Proof/Machine/Memory.lean ====
section
/-! DEFINITION. The sparse memory of the RAM blocks: reading and writing one byte of the canonical list, and loading an
image (20_memory.md R55, 70_reset_and_hazards.md R311). Every operation keeps `Memory.WF`
(Laws/Memory.lean). -/

namespace Sys2Proof.Machine

/-- What a byte that is not listed reads as: `0x00` (20_memory.md R55, "uninitialized memory reads as zero"). -/
def Memory.blank : Byte := 0#8

/-- The byte at address `a`. -/
def Memory.read : Memory → Nat → Byte
  | [], _ => Memory.blank
  | (k, b) :: m, a => if a = k then b else Memory.read m a

/-- The memory with the byte at address `a` replaced by `v`; writing the blank byte takes the entry out. -/
def Memory.write : Memory → Nat → Byte → Memory
  | [], a, v => if v = Memory.blank then [] else [(a, v)]
  | (k, b) :: m, a, v =>
    if a < k then (if v = Memory.blank then (k, b) :: m else (a, v) :: (k, b) :: m)
    else if a = k then (if v = Memory.blank then m else (k, v) :: m)
    else (k, b) :: Memory.write m a v

/-- The bytes `bs` at the addresses from `a` up, every other byte blank: an image at its place in the program block. -/
def Memory.ofBytes (a : Nat) : List Byte → Memory
  | [] => []
  | b :: bs => if b = Memory.blank then Memory.ofBytes (a + 1) bs else (a, b) :: Memory.ofBytes (a + 1) bs

/-- The canonical form: addresses strictly rising, no entry equal to what an unlisted address reads as. -/
abbrev Memory.WF (m : Memory) : Prop :=
  m.Pairwise (fun c d => c.1 < d.1) ∧ ∀ c ∈ m, c.2 ≠ Memory.blank

end Sys2Proof.Machine
end

