-- ==== Sys2Proof/Machine/Devices.lean ====
section
/-! DEFINITION. The four memory-mapped devices (20_memory.md R70 to R85): what one byte read or write of a device window
returns and does, at an offset of the window, and what the host's inspection sees there (R89). -/

namespace Sys2Proof.Machine

/-- `emit E`: the event at the end of the output trace (10_state.md R36). -/
def emit (s : State) (e : OutputEvent) : State := { s with trace := s.trace ++ [e] }

/-! ## LED (R71 to R73) -/

/-- A byte read of the LED window: the nibble at the data byte, `0x00` elsewhere (R70, R73). -/
def ledRead (s : State) (off : Nat) : Byte := if off = 0 then s.led.setWidth 8 else 0#8

/-- A byte write of the LED window: at the data byte the low nibble is stored and one event emitted, elsewhere the
write is discarded (R70, R72). -/
def ledWrite (s : State) (off : Nat) (v : Byte) : State :=
  if off = 0 then emit { s with led := v.setWidth 4 } (.ledUpdate (v.setWidth 4)) else s

/-! ## DIP switches and pushbuttons (R74 to R76) -/

/-- The four input bits as the program reads them, by `INPUT_ACTIVE_HIGH` (R74, R76). -/
def inputBits (cfg : Config) (n : Nibble) : Nibble := if cfg.inputActiveHigh then n else ~~~n

/-- A byte read of the DIP-switch window (R70, R74). -/
def dipRead (s : State) (off : Nat) : Byte := if off = 0 then (inputBits s.cfg s.sw).setWidth 8 else 0#8

/-- A byte read of the pushbutton window (R70, R76). -/
def btnRead (s : State) (off : Nat) : Byte := if off = 0 then (inputBits s.cfg s.btn).setWidth 8 else 0#8

/-! ## Serial block (R77 to R85) -/

/-- `SerialPoll()`: with receive-ready clear and a character waiting, the character moves into the receive-data byte
(R79). -/
def serialPoll (s : State) : State :=
  match s.rrdy, s.inq with
  | false, c :: rest => { s with rx := c, inq := rest, rrdy := true }
  | _, _ => s

/-- The status byte: receive-ready as it stands, transmit-idle always set (R80). -/
def serialStatus (s : State) : Byte := (if s.rrdy then s.cfg.rrdyMask else 0#8) ||| s.cfg.tidleMask

/-- What the serial block shows at an offset of its window as the registers stand (R80, R82, R83, R85). -/
def serialView (s : State) (off : Nat) : Byte :=
  if off = s.cfg.uartRxOff then s.rx
  else if off = s.cfg.uartTxOff then s.tx
  else if off = s.cfg.uartStOff then serialStatus s
  else 0#8

/-- A byte read of the serial window: the poll, then the byte; a read of the receive-data byte clears receive-ready
(R79, R80, R82, R83, R85). -/
def serialRead (s : State) (off : Nat) : Byte × State :=
  let p := serialPoll s
  (serialView p off, if off = s.cfg.uartRxOff then { p with rrdy := false } else p)

/-- A byte write of the serial window: the poll, then the transmit byte is stored and sent; every other byte discards
the write (R79, R81, R84, R85). -/
def serialWrite (s : State) (off : Nat) (v : Byte) : State :=
  let p := serialPoll s
  if off = s.cfg.uartRxOff then p
  else if off = s.cfg.uartTxOff then emit { p with tx := v } (.serialOut v)
  else p

end Sys2Proof.Machine
end

