-- ==== Sys2Proof/Machine/Ops.lean ====
section
/-! DEFINITION. The operations every instruction is made of: the register file (10_state.md R24 to R26), the PC
(R28, R29), the memory dispatcher with its byte, halfword and word accesses (20_memory.md R53, R59 to R63), and raising
a fault (60_exceptions.md R286 to R288), which is the core's whole exception mechanism: it saves nothing inside the machine,
goes to no handler and is reported to the host; there is no return from it (R290). -/

namespace Sys2Proof.Machine

/-- The outcome of a step or of an instruction's meaning. -/
abbrev Result := Host.Outcome State Fault Refusal

/-- An operation's outcome as a step's. -/
def conclude : Except Fault State → Result
  | .ok s => .next s
  | .error f => .fault f

/-! ## Faults (60_exceptions.md R280, R286, R287) -/

/-- What the host is told with a fault raised in state `s`: the PC of the instruction, which `PC` still holds (R287), and
the register tags as marked so far (R286). -/
def State.report (s : State) : Report := { pc := s.pc, tags := s.tags }

/-- The report a fault carries. -/
def Fault.report : Fault → Report
  | .decodeError r _ => r
  | .registerError r _ => r
  | .memoryError r _ => r
  | .misalignedPC r _ => r
  | .divideByZero r => r

/-- The spec's own numbering of the fault kinds (R280). -/
def Fault.code : Fault → Nat
  | .decodeError _ _ => 1
  | .registerError _ _ => 2
  | .memoryError _ _ => 3
  | .misalignedPC _ _ => 4
  | .divideByZero _ => 5

/-- The state the host finds after a fault: the state before the step, but for the register tags (R286). -/
def State.afterFault (s : State) (f : Fault) : State := { s with tags := f.report.tags }

/-! ## Register file (10_state.md R20 to R26) -/

/-- The value of register `i`; register 0 reads as zero in every state (R21). -/
def State.reg (s : State) (i : Reg) : Word := if i = 0#5 then 0#32 else s.regs[i.toNat]'i.isLt

/-- The tag of register `i` (R23). -/
def State.tag (s : State) (i : Reg) : Tag := s.tags[i.toNat]'i.isLt

/-- Marks register `i` with a tag. -/
def State.setTag (s : State) (i : Reg) (t : Tag) : State := { s with tags := s.tags.set i.toNat t i.isLt }

/-- Stores a value in register `i`; register 0 stays zero (R21). -/
def State.setReg (s : State) (i : Reg) (v : Word) : State :=
  if i = 0#5 then s else { s with regs := s.regs.set i.toNat v i.isLt }

/-- The tag `resetTags` leaves: `untouched`, unless the register is disabled (R26). -/
def freshTag : Tag → Tag
  | .disabled => .disabled
  | _ => .untouched

/-- `resetTags()` (R26). -/
def State.resetTags (s : State) : State :=
  { s with tags := ⟨⟨s.tags.toList.map freshTag⟩, by simp⟩ }

/-- The tag register 0 has after a discarded write of `v`: `write` or the tag it had, as the free value says
(R25, 93_implementation_defined.md U26). -/
def tagAfterDiscard (v : Word) (t : Tag) : Tag := if Config.discardedWriteMarks v t then .write else t

/-- `RegRead(i)` (R24). -/
def readReg (s : State) (i : Reg) : Except Fault (Word × State) :=
  if s.tag i = .disabled then .error (.registerError s.report i)
  else .ok (s.reg i, s.setTag i .read)

/-- `RegWrite(i, v)` (R25). -/
def writeReg (s : State) (i : Reg) (v : Word) : Except Fault State :=
  if s.tag i = .disabled then .error (.registerError s.report i)
  else if i = 0#5 then .ok (s.setTag 0#5 (tagAfterDiscard v (s.tag 0#5)))
  else .ok ((s.setReg i v).setTag i .write)

/-! ## Program counter (10_state.md R27 to R29) -/

/-- Sequential advance, modulo 2^32 (R28). -/
def advance (s : State) : State := { s with pc := s.pc + 4#32 }

/-- A target whose two low bits are not 0 raises `MisalignedPC` (R29). -/
def checkTarget (s : State) (t : Word) : Except Fault Unit :=
  if t.extractLsb' 0 2 = 0#2 then .ok () else .error (.misalignedPC s.report t)

/-- Control transfer `pc <- t` (R29). -/
def transfer (s : State) (t : Word) : Except Fault State := do
  checkTarget s t
  pure { s with pc := t }

/-! ## Memory dispatcher (20_memory.md R51 to R67) -/

/-- Range containment (R51, R53). -/
def blockContains (b : Block) (a : Word) : Bool := decide (b.start ≤ a.toNat) && decide (a.toNat < b.start + b.len)

/-- `Resolve(a)`: the block that holds `a`, by a linear scan of the list (R53). -/
def resolve (cfg : Config) (a : Word) : Option Block := cfg.blocks.find? (fun b => blockContains b a)

/-- Reading and writing: the two kinds of access admission tells apart (R61). -/
inductive Access where
  | read
  | write
  deriving DecidableEq, Repr

/-- The widths of an access, in bytes (R67). -/
inductive Width where
  | byte
  | half
  | word
  deriving DecidableEq, Repr

/-- The number of bytes of an access. -/
def Width.bytes : Width → Nat
  | .byte => 1
  | .half => 2
  | .word => 4

/-- A byte is refused when no block holds it, or when it is written and its block is read-only (R54, R60, R61). -/
def refuses (cfg : Config) (kind : Access) (a : Word) : Bool :=
  match resolve cfg a with
  | none => true
  | some b => kind == .write && (b.kind == .dip || b.kind == .btn)

/-- The byte addresses of an access of `n` bytes at `a`, ascending, modulo 2^32 (R61, D18). -/
def addresses (a : Word) (n : Nat) : List Word := (List.range n).map (fun i => a + BitVec.ofNat 32 i)

/-- Admission: every byte of an access is checked before any is touched; the fault carries the first refused address
(R61, R66). -/
def admission (s : State) (a : Word) (n : Nat) (kind : Access) : Except Fault Unit :=
  match (addresses a n).find? (refuses s.cfg kind) with
  | none => .ok ()
  | some x => .error (.memoryError s.report x)

/-- A block's own read of the byte at `a`, with its side effects (R55, R59, R68). -/
def blockRead (b : Block) (a : Word) (s : State) : Byte × State :=
  match b.kind with
  | .ram => (s.mem.read a.toNat, s)
  | .led => (ledRead s (a.toNat - b.start), s)
  | .dip => (dipRead s (a.toNat - b.start), s)
  | .btn => (btnRead s (a.toNat - b.start), s)
  | .serial => serialRead s (a.toNat - b.start)

/-- `ReadByte(a)` (R59). -/
def readByte (s : State) (a : Word) : Except Fault (Byte × State) :=
  match resolve s.cfg a with
  | none => .error (.memoryError s.report a)
  | some b => .ok (blockRead b a s)

/-- `WriteByte(a, v)` (R60). -/
def writeByte (s : State) (a : Word) (v : Byte) : Except Fault State :=
  match resolve s.cfg a with
  | none => .error (.memoryError s.report a)
  | some b =>
    match b.kind with
    | .ram => .ok { s with mem := s.mem.write a.toNat v }
    | .led => .ok (ledWrite s (a.toNat - b.start) v)
    | .dip => .error (.memoryError s.report a)
    | .btn => .error (.memoryError s.report a)
    | .serial => .ok (serialWrite s (a.toNat - b.start) v)

/-- The byte reads of one access, in the order of the list. -/
def readBytes (s : State) : List Word → Except Fault (List Byte × State)
  | [] => .ok ([], s)
  | a :: rest => do
    let (b, s) ← readByte s a
    let (bs, s) ← readBytes s rest
    pure (b :: bs, s)

/-- The byte writes of one access, in the order of the list. -/
def writeBytes (s : State) : List (Word × Byte) → Except Fault State
  | [] => .ok s
  | (a, v) :: rest => do
    let s ← writeByte s a v
    writeBytes s rest

/-- `MemRead(addr, n)`: the little-endian value, zero-extended to a word (R62). -/
def memRead (s : State) (a : Word) (w : Width) : Except Fault (Word × State) := do
  admission s a w.bytes .read
  let (bs, s) ← readBytes s (addresses a w.bytes)
  pure (littleEndian bs, s)

/-- The bytes an access of width `w` stores, with their addresses, lowest first (R63). -/
def storeList (a : Word) (w : Width) (v : Word) : List (Word × Byte) :=
  (List.range w.bytes).map (fun i => (a + BitVec.ofNat 32 i, byteOf v i))

/-- `MemWrite(addr, n, v)`; the upper bits of `v` that the width does not hold are dropped (R63, 43_load_store.md
R195). -/
def memWrite (s : State) (a : Word) (w : Width) (v : Word) : Except Fault State := do
  admission s a w.bytes .write
  writeBytes s (storeList a w v)

/-! ## Inspection of one byte (20_memory.md R89) -/

/-- What the host sees of the byte at `a`: what a core read would return, its side effects left out; nothing where
no block holds `a`. -/
def State.peek (s : State) (a : Word) : Option Byte :=
  match resolve s.cfg a with
  | none => none
  | some b =>
    match b.kind with
    | .ram => some (s.mem.read a.toNat)
    | .led => some (ledRead s (a.toNat - b.start))
    | .dip => some (dipRead s (a.toNat - b.start))
    | .btn => some (btnRead s (a.toNat - b.start))
    | .serial => some (serialView s (a.toNat - b.start))

end Sys2Proof.Machine
end

