-- ==== Sys2Proof/Machine/Operands.lean ====
section
/-! DEFINITION. Operand forms: the three extensions of `IMM16` (30_encoding.md R107), shift counts (R108,
42_shift_rotate.md R180), effective addresses (43_load_store.md R195), branch and jump targets (44_control_transfer.md
R220, R228), and the shapes of instruction built on them (10_state.md R43). -/

namespace Sys2Proof.Machine

/-! ## Values -/

/-- `sext_32(IMM16)` (R107). -/
def signedImm (imm16 : Imm16) : Word := imm16.signExtend 32

/-- `zext_32(IMM16)` (R107). -/
def unsignedImm (imm16 : Imm16) : Word := imm16.setWidth 32

/-- `IMM16 ++ 0x0000` (R107). -/
def highImm (imm16 : Imm16) : Word := imm16 ++ 0#16

/-- The count of a register shift or rotate: the low five bits of the operand (42_shift_rotate.md R180). -/
def registerCount (b : Word) : Nat := (b.extractLsb' 0 5).toNat

/-- The count of an immediate shift or rotate (30_encoding.md R108). -/
def immediateCount (imm5 : Imm5) : Nat := imm5.toNat

/-- The effective address of a load or store whose base register holds `base`, modulo 2^32 (43_load_store.md R195). -/
def effectiveAddress (base : Word) (imm16 : Imm16) : Word := base + signedImm imm16

/-- The target of a taken branch at `pc` (44_control_transfer.md R220). -/
def branchTarget (pc : Word) (imm16 : Imm16) : Word := pc + 4#32 + signedImm imm16

/-- The target of a J-format instruction at `pc`: `IMM26` shifted left two, bits 31:28 zero or, with
`J_UPPER_FROM_PC`, those of the PC (30_encoding.md R109, 44_control_transfer.md R228). -/
def jumpTarget (cfg : Config) (pc : Word) (imm26 : Imm26) : Word :=
  (if cfg.jUpperFromPc then pc.extractLsb' 28 4 else 0#4) ++ imm26 ++ 0#2

/-- The sign extension of a loaded value of width `w` (43_load_store.md R198, R200). -/
def signExtendFrom (w : Width) (v : Word) : Word :=
  match w with
  | .byte => (v.setWidth 8).signExtend 32
  | .half => (v.setWidth 16).signExtend 32
  | .word => v

/-- The zero extension of a loaded value of width `w` (43_load_store.md R199, R201). -/
def zeroExtendFrom (w : Width) (v : Word) : Word :=
  match w with
  | .byte => (v.setWidth 8).setWidth 32
  | .half => (v.setWidth 16).setWidth 32
  | .word => v

/-! ## Instruction shapes (10_state.md R43, R44; 60_exceptions.md R292) -/

/-- Two source registers, `rA` then `rB`, and a result that may fault, to register `d`. -/
def twoSourceChecked (f : State → Word → Word → Except Fault Word) (d rA rB : Reg) (s : State) : Result :=
  conclude do
    let (a, s) ← readReg s rA
    let (b, s) ← readReg s rB
    let v ← f s a b
    let s ← writeReg s d v
    pure (advance s)

/-- Two source registers and a result, to register `d`. -/
def twoSource (f : Word → Word → Word) (d rA rB : Reg) (s : State) : Result :=
  twoSourceChecked (fun _ a b => .ok (f a b)) d rA rB s

/-- One source register and a result that may fault, to register `d`. -/
def oneSourceChecked (f : State → Word → Except Fault Word) (d rA : Reg) (s : State) : Result :=
  conclude do
    let (a, s) ← readReg s rA
    let v ← f s a
    let s ← writeReg s d v
    pure (advance s)

/-- One source register and a result, to register `d`. -/
def oneSource (f : Word → Word) (d rA : Reg) (s : State) : Result :=
  oneSourceChecked (fun _ a => .ok (f a)) d rA s

/-- A load of width `w`, the value extended by `ext`, to `rB` (43_load_store.md R195). -/
def loadForm (w : Width) (ext : Width → Word → Word) (rB : Reg) (imm16 : Imm16) (rA : Reg) (s : State) : Result :=
  conclude do
    let (base, s) ← readReg s rA
    let (v, s) ← memRead s (effectiveAddress base imm16) w
    let s ← writeReg s rB (ext w v)
    pure (advance s)

/-- A store of width `w` from `rB` (43_load_store.md R195). -/
def storeForm (w : Width) (rB : Reg) (imm16 : Imm16) (rA : Reg) (s : State) : Result :=
  conclude do
    let (base, s) ← readReg s rA
    let (v, s) ← readReg s rB
    let s ← memWrite s (effectiveAddress base imm16) w v
    pure (advance s)

/-- A conditional branch: taken to the target of R220 when the two registers are related, else sequential
(44_control_transfer.md R222). -/
def branchIf (taken : Word → Word → Bool) (rA rB : Reg) (imm16 : Imm16) (s : State) : Result :=
  conclude do
    let (a, s) ← readReg s rA
    let (b, s) ← readReg s rB
    if taken a b then transfer s (branchTarget s.pc imm16) else pure (advance s)

/-- An indirect transfer to the value of register `r` (44_control_transfer.md R231, R232). -/
def jumpRegister (r : Reg) (s : State) : Result :=
  conclude do
    let (t, s) ← readReg s r
    transfer s t

/-- The link register: r31 (44_control_transfer.md R228, R230, R232). -/
def linkReg : Reg := 31#5

/-- Writes the return address `pc + 4` to the link register and transfers to `t`; an unaligned target is found before
the link is written (44_control_transfer.md R228, R230; 60_exceptions.md R292). -/
def linkAndTransfer (s : State) (t : Word) : Except Fault State := do
  checkTarget s t
  let s' ← writeReg s linkReg (s.pc + 4#32)
  pure { s' with pc := t }

end Sys2Proof.Machine
end

