-- ==== Sys2Proof/Machine/Arith.lean ====
section
/-! DEFINITION. Arithmetic instructions (40_arith_logic.md R130 to R140, R151, R152): results wrap modulo 2^32, no flag
is written, and only a divide can fault. -/

namespace Sys2Proof.Machine

/-- Bits 63:32 of the product of two integers, as a 64-bit two's complement number (R136 to R138). -/
def highProduct (a b : Int) : Word := (BitVec.ofInt 64 (a * b)).extractLsb' 32 32

/-- The checked quotient of `div` and `divi`: a zero divisor faults, `-2^31` by `-1` gives `DIV_OVF`, every other pair
the quotient rounded toward zero (R139, R151). -/
def signedQuotient (s : State) (a b : Word) : Except Fault Word :=
  if b = 0#32 then .error (.divideByZero s.report)
  else if a.toInt = -2147483648 ∧ b.toInt = -1 then .ok s.cfg.divOvf
  else .ok (BitVec.ofInt 32 (a.toInt.tdiv b.toInt))

/-- The checked quotient of `divu`: a zero divisor faults, else the quotient rounded down (R140). -/
def unsignedQuotient (s : State) (a b : Word) : Except Fault Word :=
  if b = 0#32 then .error (.divideByZero s.report)
  else .ok (BitVec.ofNat 32 (a.toNat / b.toNat))

/-- `add rC, rA, rB` (40_arith_logic.md R131). -/
def execAdd (rC rA rB : Reg) (s : State) : Result :=
  twoSource (fun a b => a + b) rC rA rB s

/-- `addi rB, rA, imm16` (40_arith_logic.md R132). -/
def execAddi (rB rA : Reg) (imm16 : Imm16) (s : State) : Result :=
  oneSource (fun a => a + signedImm imm16) rB rA s

/-- `sub rC, rA, rB` (40_arith_logic.md R133). -/
def execSub (rC rA rB : Reg) (s : State) : Result :=
  twoSource (fun a b => a - b) rC rA rB s

/-- `mul rC, rA, rB` (40_arith_logic.md R134). The low 32 bits of the product. -/
def execMul (rC rA rB : Reg) (s : State) : Result :=
  twoSource (fun a b => a * b) rC rA rB s

/-- `muli rB, rA, imm16` (40_arith_logic.md R135). -/
def execMuli (rB rA : Reg) (imm16 : Imm16) (s : State) : Result :=
  oneSource (fun a => a * signedImm imm16) rB rA s

/-- `mulxss rC, rA, rB` (40_arith_logic.md R136). -/
def execMulxss (rC rA rB : Reg) (s : State) : Result :=
  twoSource (fun a b => highProduct a.toInt b.toInt) rC rA rB s

/-- `mulxsu rC, rA, rB` (40_arith_logic.md R137). -/
def execMulxsu (rC rA rB : Reg) (s : State) : Result :=
  twoSource (fun a b => highProduct a.toInt b.toNat) rC rA rB s

/-- `mulxuu rC, rA, rB` (40_arith_logic.md R138). -/
def execMulxuu (rC rA rB : Reg) (s : State) : Result :=
  twoSource (fun a b => highProduct a.toNat b.toNat) rC rA rB s

/-- `div rC, rA, rB` (40_arith_logic.md R139). -/
def execDiv (rC rA rB : Reg) (s : State) : Result :=
  twoSourceChecked signedQuotient rC rA rB s

/-- `divu rC, rA, rB` (40_arith_logic.md R140). -/
def execDivu (rC rA rB : Reg) (s : State) : Result :=
  twoSourceChecked unsignedQuotient rC rA rB s

/-- `divi rB, rA, imm16`, the optional row (40_arith_logic.md R151, 30_encoding.md R117): a machine whose `HAS_DIVI` is
set runs it; it has no row in the opcode table and so no constructor of `Instr`. -/
def execDivi (rB rA : Reg) (imm16 : Imm16) (s : State) : Result :=
  oneSourceChecked (fun s a => signedQuotient s a (signedImm imm16)) rB rA s

end Sys2Proof.Machine
end

