-- ==== Sys2Proof/Machine/Flags.lean ====
section
/-! DEFINITION. The core has no flags, condition codes or predicate registers (10_state.md R33): a comparison leaves its
one record, 0 or 1, in a general register (41_compare.md R160), and a conditional branch does its own comparison
(44_control_transfer.md R222). This file holds the relations both evaluate and the 0-or-1 result. -/

namespace Sys2Proof.Machine

/-- Equal. -/
def eqWord (a b : Word) : Bool := a == b

/-- Not equal. -/
def neWord (a b : Word) : Bool := a != b

/-- `signed(a) >= signed(b)`. -/
def geSigned (a b : Word) : Bool := decide (b.toInt ≤ a.toInt)

/-- `unsigned(a) >= unsigned(b)`. -/
def geUnsigned (a b : Word) : Bool := decide (b.toNat ≤ a.toNat)

/-- `signed(a) < signed(b)`. -/
def ltSigned (a b : Word) : Bool := decide (a.toInt < b.toInt)

/-- `unsigned(a) < unsigned(b)`. -/
def ltUnsigned (a b : Word) : Bool := decide (a.toNat < b.toNat)

/-- The result of a comparison: `0x00000001` if the relation holds, `0x00000000` if not (41_compare.md R160). -/
def flagWord (holds : Bool) : Word := if holds then 1#32 else 0#32

end Sys2Proof.Machine
end

