-- ==== Sys2Proof/Machine/Compare.lean ====
section
/-! DEFINITION. Comparison instructions (41_compare.md R160 to R172): the destination receives 1 if the relation holds
and 0 if not. -/

namespace Sys2Proof.Machine

/-- `cmpeq rC, rA, rB` (41_compare.md R161). -/
def execCmpeq (rC rA rB : Reg) (s : State) : Result :=
  twoSource (fun a b => flagWord (eqWord a b)) rC rA rB s

/-- `cmpne rC, rA, rB` (41_compare.md R162). -/
def execCmpne (rC rA rB : Reg) (s : State) : Result :=
  twoSource (fun a b => flagWord (neWord a b)) rC rA rB s

/-- `cmpge rC, rA, rB` (41_compare.md R163). -/
def execCmpge (rC rA rB : Reg) (s : State) : Result :=
  twoSource (fun a b => flagWord (geSigned a b)) rC rA rB s

/-- `cmpgeu rC, rA, rB` (41_compare.md R164). -/
def execCmpgeu (rC rA rB : Reg) (s : State) : Result :=
  twoSource (fun a b => flagWord (geUnsigned a b)) rC rA rB s

/-- `cmplt rC, rA, rB` (41_compare.md R165). -/
def execCmplt (rC rA rB : Reg) (s : State) : Result :=
  twoSource (fun a b => flagWord (ltSigned a b)) rC rA rB s

/-- `cmpltu rC, rA, rB` (41_compare.md R166). -/
def execCmpltu (rC rA rB : Reg) (s : State) : Result :=
  twoSource (fun a b => flagWord (ltUnsigned a b)) rC rA rB s

/-- `cmpeqi rB, rA, imm16` (41_compare.md R167). -/
def execCmpeqi (rB rA : Reg) (imm16 : Imm16) (s : State) : Result :=
  oneSource (fun a => flagWord (eqWord a (signedImm imm16))) rB rA s

/-- `cmpnei rB, rA, imm16` (41_compare.md R168). -/
def execCmpnei (rB rA : Reg) (imm16 : Imm16) (s : State) : Result :=
  oneSource (fun a => flagWord (neWord a (signedImm imm16))) rB rA s

/-- `cmpgei rB, rA, imm16` (41_compare.md R169). -/
def execCmpgei (rB rA : Reg) (imm16 : Imm16) (s : State) : Result :=
  oneSource (fun a => flagWord (geSigned a (signedImm imm16))) rB rA s

/-- `cmpgeui rB, rA, imm16` (41_compare.md R170). -/
def execCmpgeui (rB rA : Reg) (imm16 : Imm16) (s : State) : Result :=
  oneSource (fun a => flagWord (geUnsigned a (unsignedImm imm16))) rB rA s

/-- `cmplti rB, rA, imm16` (41_compare.md R171). -/
def execCmplti (rB rA : Reg) (imm16 : Imm16) (s : State) : Result :=
  oneSource (fun a => flagWord (ltSigned a (signedImm imm16))) rB rA s

/-- `cmpltui rB, rA, imm16` (41_compare.md R172). -/
def execCmpltui (rB rA : Reg) (imm16 : Imm16) (s : State) : Result :=
  oneSource (fun a => flagWord (ltUnsigned a (unsignedImm imm16))) rB rA s

end Sys2Proof.Machine
end

