-- ==== Sys2Proof/Machine/Control.lean ====
section
/-! DEFINITION. Branches, jumps, calls and the return (44_control_transfer.md R220 to R233). There are no delay slots; a
target that is not a multiple of 4 faults at the transferring instruction, which commits nothing. -/

namespace Sys2Proof.Machine

/-- `br label` (44_control_transfer.md R221). Always taken. -/
def execBr (imm16 : Imm16) (s : State) : Result :=
  conclude (transfer s (branchTarget s.pc imm16))

/-- `beq rA, rB, label` (44_control_transfer.md R222). -/
def execBeq (rA rB : Reg) (imm16 : Imm16) (s : State) : Result :=
  branchIf eqWord rA rB imm16 s

/-- `bne rA, rB, label` (44_control_transfer.md R223). -/
def execBne (rA rB : Reg) (imm16 : Imm16) (s : State) : Result :=
  branchIf neWord rA rB imm16 s

/-- `bge rA, rB, label` (44_control_transfer.md R224). -/
def execBge (rA rB : Reg) (imm16 : Imm16) (s : State) : Result :=
  branchIf geSigned rA rB imm16 s

/-- `bgeu rA, rB, label` (44_control_transfer.md R225). -/
def execBgeu (rA rB : Reg) (imm16 : Imm16) (s : State) : Result :=
  branchIf geUnsigned rA rB imm16 s

/-- `blt rA, rB, label` (44_control_transfer.md R226). -/
def execBlt (rA rB : Reg) (imm16 : Imm16) (s : State) : Result :=
  branchIf ltSigned rA rB imm16 s

/-- `bltu rA, rB, label` (44_control_transfer.md R227). -/
def execBltu (rA rB : Reg) (imm16 : Imm16) (s : State) : Result :=
  branchIf ltUnsigned rA rB imm16 s

/-- `call label` (44_control_transfer.md R228). -/
def execCall (imm26 : Imm26) (s : State) : Result :=
  conclude (linkAndTransfer s (jumpTarget s.cfg s.pc imm26))

/-- `jmpi label` (44_control_transfer.md R229). -/
def execJmpi (imm26 : Imm26) (s : State) : Result :=
  conclude (transfer s (jumpTarget s.cfg s.pc imm26))

/-- `callr rA` (44_control_transfer.md R230). The old value of the register is the target, also for `callr r31` (10_state.md R44). -/
def execCallr (rA : Reg) (s : State) : Result :=
  conclude do
    let (t, s) ← readReg s rA
    linkAndTransfer s t

/-- `jmp rA` (44_control_transfer.md R231). -/
def execJmp (rA : Reg) (s : State) : Result :=
  jumpRegister rA s

/-- `ret` (44_control_transfer.md R232). It reads r31 whatever the fields of its word hold. -/
def execRet (s : State) : Result :=
  jumpRegister linkReg s

end Sys2Proof.Machine
end

