-- ==== Sys2Proof/Machine/LoadStore.lean ====
section
/-! DEFINITION. Loads and stores (43_load_store.md R195 to R212). The `io` forms do what the plain forms do, since there is
no cache to bypass (R196). -/

namespace Sys2Proof.Machine

/-- `ldw rB, imm16(rA)` (43_load_store.md R197). -/
def execLdw (rB : Reg) (imm16 : Imm16) (rA : Reg) (s : State) : Result :=
  loadForm .word zeroExtendFrom rB imm16 rA s

/-- `ldh rB, imm16(rA)` (43_load_store.md R198). -/
def execLdh (rB : Reg) (imm16 : Imm16) (rA : Reg) (s : State) : Result :=
  loadForm .half signExtendFrom rB imm16 rA s

/-- `ldhu rB, imm16(rA)` (43_load_store.md R199). -/
def execLdhu (rB : Reg) (imm16 : Imm16) (rA : Reg) (s : State) : Result :=
  loadForm .half zeroExtendFrom rB imm16 rA s

/-- `ldb rB, imm16(rA)` (43_load_store.md R200). -/
def execLdb (rB : Reg) (imm16 : Imm16) (rA : Reg) (s : State) : Result :=
  loadForm .byte signExtendFrom rB imm16 rA s

/-- `ldbu rB, imm16(rA)` (43_load_store.md R201). -/
def execLdbu (rB : Reg) (imm16 : Imm16) (rA : Reg) (s : State) : Result :=
  loadForm .byte zeroExtendFrom rB imm16 rA s

/-- `stw rB, imm16(rA)` (43_load_store.md R202). -/
def execStw (rB : Reg) (imm16 : Imm16) (rA : Reg) (s : State) : Result :=
  storeForm .word rB imm16 rA s

/-- `sth rB, imm16(rA)` (43_load_store.md R203). -/
def execSth (rB : Reg) (imm16 : Imm16) (rA : Reg) (s : State) : Result :=
  storeForm .half rB imm16 rA s

/-- `stb rB, imm16(rA)` (43_load_store.md R204). -/
def execStb (rB : Reg) (imm16 : Imm16) (rA : Reg) (s : State) : Result :=
  storeForm .byte rB imm16 rA s

/-- `ldwio rB, imm16(rA)` (43_load_store.md R205). -/
def execLdwio (rB : Reg) (imm16 : Imm16) (rA : Reg) (s : State) : Result :=
  loadForm .word zeroExtendFrom rB imm16 rA s

/-- `ldhio rB, imm16(rA)` (43_load_store.md R206). -/
def execLdhio (rB : Reg) (imm16 : Imm16) (rA : Reg) (s : State) : Result :=
  loadForm .half signExtendFrom rB imm16 rA s

/-- `ldhuio rB, imm16(rA)` (43_load_store.md R207). -/
def execLdhuio (rB : Reg) (imm16 : Imm16) (rA : Reg) (s : State) : Result :=
  loadForm .half zeroExtendFrom rB imm16 rA s

/-- `ldbio rB, imm16(rA)` (43_load_store.md R208). -/
def execLdbio (rB : Reg) (imm16 : Imm16) (rA : Reg) (s : State) : Result :=
  loadForm .byte signExtendFrom rB imm16 rA s

/-- `ldbuio rB, imm16(rA)` (43_load_store.md R209). -/
def execLdbuio (rB : Reg) (imm16 : Imm16) (rA : Reg) (s : State) : Result :=
  loadForm .byte zeroExtendFrom rB imm16 rA s

/-- `stwio rB, imm16(rA)` (43_load_store.md R210). -/
def execStwio (rB : Reg) (imm16 : Imm16) (rA : Reg) (s : State) : Result :=
  storeForm .word rB imm16 rA s

/-- `sthio rB, imm16(rA)` (43_load_store.md R211). -/
def execSthio (rB : Reg) (imm16 : Imm16) (rA : Reg) (s : State) : Result :=
  storeForm .half rB imm16 rA s

/-- `stbio rB, imm16(rA)` (43_load_store.md R212). -/
def execStbio (rB : Reg) (imm16 : Imm16) (rA : Reg) (s : State) : Result :=
  storeForm .byte rB imm16 rA s

end Sys2Proof.Machine
end

