-- ==== Sys2Proof/Machine/Logic.lean ====
section
/-! DEFINITION. Bitwise instructions (40_arith_logic.md R141 to R150). The immediate of the plain forms is
zero-extended, that of the `hi` forms stands in the upper half (30_encoding.md R107). -/

namespace Sys2Proof.Machine

/-- `and rC, rA, rB` (40_arith_logic.md R141). -/
def execAnd (rC rA rB : Reg) (s : State) : Result :=
  twoSource (fun a b => a &&& b) rC rA rB s

/-- `andi rB, rA, imm16` (40_arith_logic.md R142). -/
def execAndi (rB rA : Reg) (imm16 : Imm16) (s : State) : Result :=
  oneSource (fun a => a &&& unsignedImm imm16) rB rA s

/-- `andhi rB, rA, imm16` (40_arith_logic.md R143). -/
def execAndhi (rB rA : Reg) (imm16 : Imm16) (s : State) : Result :=
  oneSource (fun a => a &&& highImm imm16) rB rA s

/-- `or rC, rA, rB` (40_arith_logic.md R144). -/
def execOr (rC rA rB : Reg) (s : State) : Result :=
  twoSource (fun a b => a ||| b) rC rA rB s

/-- `ori rB, rA, imm16` (40_arith_logic.md R145). -/
def execOri (rB rA : Reg) (imm16 : Imm16) (s : State) : Result :=
  oneSource (fun a => a ||| unsignedImm imm16) rB rA s

/-- `orhi rB, rA, imm16` (40_arith_logic.md R146). -/
def execOrhi (rB rA : Reg) (imm16 : Imm16) (s : State) : Result :=
  oneSource (fun a => a ||| highImm imm16) rB rA s

/-- `xor rC, rA, rB` (40_arith_logic.md R147). -/
def execXor (rC rA rB : Reg) (s : State) : Result :=
  twoSource (fun a b => a ^^^ b) rC rA rB s

/-- `xori rB, rA, imm16` (40_arith_logic.md R148). -/
def execXori (rB rA : Reg) (imm16 : Imm16) (s : State) : Result :=
  oneSource (fun a => a ^^^ unsignedImm imm16) rB rA s

/-- `xorhi rB, rA, imm16` (40_arith_logic.md R149). -/
def execXorhi (rB rA : Reg) (imm16 : Imm16) (s : State) : Result :=
  oneSource (fun a => a ^^^ highImm imm16) rB rA s

/-- `nor rC, rA, rB` (40_arith_logic.md R150). -/
def execNor (rC rA rB : Reg) (s : State) : Result :=
  twoSource (fun a b => ~~~(a ||| b)) rC rA rB s

end Sys2Proof.Machine
end

