-- ==== Sys2Proof/Machine/Shift.lean ====
section
/-! DEFINITION. Shifts and rotates (42_shift_rotate.md R180 to R189). The count is the low five bits of the second
register or `IMM5`, so it is always below 32. -/

namespace Sys2Proof.Machine

/-- Shift left, zeros entering at bit 0 (R181). -/
def shiftLeft (a : Word) (n : Nat) : Word := a <<< n

/-- Logical shift right, zeros entering at bit 31 (R183). -/
def shiftRightLogical (a : Word) (n : Nat) : Word := a >>> n

/-- Arithmetic shift right, copies of bit 31 entering at bit 31 (R185). -/
def shiftRightArith (a : Word) (n : Nat) : Word := a.sshiftRight n

/-- Rotate left: bits leaving at bit 31 re-enter at bit 0 (R187). -/
def rotateLeft (a : Word) (n : Nat) : Word := if n = 0 then a else (a <<< n) ||| (a >>> (32 - n))

/-- Rotate right: bits leaving at bit 0 re-enter at bit 31 (R189). -/
def rotateRight (a : Word) (n : Nat) : Word := if n = 0 then a else (a >>> n) ||| (a <<< (32 - n))

/-- `sll rC, rA, rB` (42_shift_rotate.md R181). -/
def execSll (rC rA rB : Reg) (s : State) : Result :=
  twoSource (fun a b => shiftLeft a (registerCount b)) rC rA rB s

/-- `slli rC, rA, imm5` (42_shift_rotate.md R182). -/
def execSlli (rC rA : Reg) (imm5 : Imm5) (s : State) : Result :=
  oneSource (fun a => shiftLeft a (immediateCount imm5)) rC rA s

/-- `srl rC, rA, rB` (42_shift_rotate.md R183). -/
def execSrl (rC rA rB : Reg) (s : State) : Result :=
  twoSource (fun a b => shiftRightLogical a (registerCount b)) rC rA rB s

/-- `srli rC, rA, imm5` (42_shift_rotate.md R184). -/
def execSrli (rC rA : Reg) (imm5 : Imm5) (s : State) : Result :=
  oneSource (fun a => shiftRightLogical a (immediateCount imm5)) rC rA s

/-- `sra rC, rA, rB` (42_shift_rotate.md R185). -/
def execSra (rC rA rB : Reg) (s : State) : Result :=
  twoSource (fun a b => shiftRightArith a (registerCount b)) rC rA rB s

/-- `srai rC, rA, imm5` (42_shift_rotate.md R186). -/
def execSrai (rC rA : Reg) (imm5 : Imm5) (s : State) : Result :=
  oneSource (fun a => shiftRightArith a (immediateCount imm5)) rC rA s

/-- `rol rC, rA, rB` (42_shift_rotate.md R187). -/
def execRol (rC rA rB : Reg) (s : State) : Result :=
  twoSource (fun a b => rotateLeft a (registerCount b)) rC rA rB s

/-- `roli rC, rA, imm5` (42_shift_rotate.md R188). -/
def execRoli (rC rA : Reg) (imm5 : Imm5) (s : State) : Result :=
  oneSource (fun a => rotateLeft a (immediateCount imm5)) rC rA s

/-- `ror rC, rA, rB` (42_shift_rotate.md R189). -/
def execRor (rC rA rB : Reg) (s : State) : Result :=
  twoSource (fun a b => rotateRight a (registerCount b)) rC rA rB s

end Sys2Proof.Machine
end

