-- ==== Sys2Proof/Machine/Dispatch.lean ====
section
/-! DEFINITION. The meaning of each instruction: one arm per constructor of `Instr`, one direct call per arm. -/

namespace Sys2Proof.Machine

def exec (i : Instr) (s : State) : Host.Outcome State Fault Refusal :=
  match i with
  | .add rC rA rB => Sys2Proof.Machine.execAdd rC rA rB s
  | .addi rB rA imm16 => Sys2Proof.Machine.execAddi rB rA imm16 s
  | .sub rC rA rB => Sys2Proof.Machine.execSub rC rA rB s
  | .mul rC rA rB => Sys2Proof.Machine.execMul rC rA rB s
  | .muli rB rA imm16 => Sys2Proof.Machine.execMuli rB rA imm16 s
  | .mulxss rC rA rB => Sys2Proof.Machine.execMulxss rC rA rB s
  | .mulxsu rC rA rB => Sys2Proof.Machine.execMulxsu rC rA rB s
  | .mulxuu rC rA rB => Sys2Proof.Machine.execMulxuu rC rA rB s
  | .div rC rA rB => Sys2Proof.Machine.execDiv rC rA rB s
  | .divu rC rA rB => Sys2Proof.Machine.execDivu rC rA rB s
  | .and rC rA rB => Sys2Proof.Machine.execAnd rC rA rB s
  | .andi rB rA imm16 => Sys2Proof.Machine.execAndi rB rA imm16 s
  | .andhi rB rA imm16 => Sys2Proof.Machine.execAndhi rB rA imm16 s
  | .or rC rA rB => Sys2Proof.Machine.execOr rC rA rB s
  | .ori rB rA imm16 => Sys2Proof.Machine.execOri rB rA imm16 s
  | .orhi rB rA imm16 => Sys2Proof.Machine.execOrhi rB rA imm16 s
  | .xor rC rA rB => Sys2Proof.Machine.execXor rC rA rB s
  | .xori rB rA imm16 => Sys2Proof.Machine.execXori rB rA imm16 s
  | .xorhi rB rA imm16 => Sys2Proof.Machine.execXorhi rB rA imm16 s
  | .nor rC rA rB => Sys2Proof.Machine.execNor rC rA rB s
  | .cmpeq rC rA rB => Sys2Proof.Machine.execCmpeq rC rA rB s
  | .cmpne rC rA rB => Sys2Proof.Machine.execCmpne rC rA rB s
  | .cmpge rC rA rB => Sys2Proof.Machine.execCmpge rC rA rB s
  | .cmpgeu rC rA rB => Sys2Proof.Machine.execCmpgeu rC rA rB s
  | .cmplt rC rA rB => Sys2Proof.Machine.execCmplt rC rA rB s
  | .cmpltu rC rA rB => Sys2Proof.Machine.execCmpltu rC rA rB s
  | .cmpeqi rB rA imm16 => Sys2Proof.Machine.execCmpeqi rB rA imm16 s
  | .cmpnei rB rA imm16 => Sys2Proof.Machine.execCmpnei rB rA imm16 s
  | .cmpgei rB rA imm16 => Sys2Proof.Machine.execCmpgei rB rA imm16 s
  | .cmpgeui rB rA imm16 => Sys2Proof.Machine.execCmpgeui rB rA imm16 s
  | .cmplti rB rA imm16 => Sys2Proof.Machine.execCmplti rB rA imm16 s
  | .cmpltui rB rA imm16 => Sys2Proof.Machine.execCmpltui rB rA imm16 s
  | .sll rC rA rB => Sys2Proof.Machine.execSll rC rA rB s
  | .slli rC rA imm5 => Sys2Proof.Machine.execSlli rC rA imm5 s
  | .srl rC rA rB => Sys2Proof.Machine.execSrl rC rA rB s
  | .srli rC rA imm5 => Sys2Proof.Machine.execSrli rC rA imm5 s
  | .sra rC rA rB => Sys2Proof.Machine.execSra rC rA rB s
  | .srai rC rA imm5 => Sys2Proof.Machine.execSrai rC rA imm5 s
  | .rol rC rA rB => Sys2Proof.Machine.execRol rC rA rB s
  | .roli rC rA imm5 => Sys2Proof.Machine.execRoli rC rA imm5 s
  | .ror rC rA rB => Sys2Proof.Machine.execRor rC rA rB s
  | .ldw rB imm16 rA => Sys2Proof.Machine.execLdw rB imm16 rA s
  | .ldh rB imm16 rA => Sys2Proof.Machine.execLdh rB imm16 rA s
  | .ldhu rB imm16 rA => Sys2Proof.Machine.execLdhu rB imm16 rA s
  | .ldb rB imm16 rA => Sys2Proof.Machine.execLdb rB imm16 rA s
  | .ldbu rB imm16 rA => Sys2Proof.Machine.execLdbu rB imm16 rA s
  | .stw rB imm16 rA => Sys2Proof.Machine.execStw rB imm16 rA s
  | .sth rB imm16 rA => Sys2Proof.Machine.execSth rB imm16 rA s
  | .stb rB imm16 rA => Sys2Proof.Machine.execStb rB imm16 rA s
  | .ldwio rB imm16 rA => Sys2Proof.Machine.execLdwio rB imm16 rA s
  | .ldhio rB imm16 rA => Sys2Proof.Machine.execLdhio rB imm16 rA s
  | .ldhuio rB imm16 rA => Sys2Proof.Machine.execLdhuio rB imm16 rA s
  | .ldbio rB imm16 rA => Sys2Proof.Machine.execLdbio rB imm16 rA s
  | .ldbuio rB imm16 rA => Sys2Proof.Machine.execLdbuio rB imm16 rA s
  | .stwio rB imm16 rA => Sys2Proof.Machine.execStwio rB imm16 rA s
  | .sthio rB imm16 rA => Sys2Proof.Machine.execSthio rB imm16 rA s
  | .stbio rB imm16 rA => Sys2Proof.Machine.execStbio rB imm16 rA s
  | .br imm16 => Sys2Proof.Machine.execBr imm16 s
  | .beq rA rB imm16 => Sys2Proof.Machine.execBeq rA rB imm16 s
  | .bne rA rB imm16 => Sys2Proof.Machine.execBne rA rB imm16 s
  | .bge rA rB imm16 => Sys2Proof.Machine.execBge rA rB imm16 s
  | .bgeu rA rB imm16 => Sys2Proof.Machine.execBgeu rA rB imm16 s
  | .blt rA rB imm16 => Sys2Proof.Machine.execBlt rA rB imm16 s
  | .bltu rA rB imm16 => Sys2Proof.Machine.execBltu rA rB imm16 s
  | .call imm26 => Sys2Proof.Machine.execCall imm26 s
  | .jmpi imm26 => Sys2Proof.Machine.execJmpi imm26 s
  | .callr rA => Sys2Proof.Machine.execCallr rA s
  | .jmp rA => Sys2Proof.Machine.execJmp rA s
  | .ret => Sys2Proof.Machine.execRet s

end Sys2Proof.Machine
end

