-- ==== Sys2Proof/Machine/Cycle.lean ====
section
/-! DEFINITION. One step of the core (10_state.md R31): tags reset, fetch, halt test, decode, execute; and the placing of
one instruction where the next fetch finds it. -/

namespace Sys2Proof.Machine

/-- The fetch: an ordinary word read at the PC, with the side effects of a read (10_state.md R31, 20_memory.md R68). -/
def fetch (s : State) : Except Fault (Word × State) := memRead s s.pc .word

/-- The execute stage: the meaning of a decoded instruction (10_state.md R31). -/
def execDecoded (d : Decoded) (s : State) : Result :=
  match d with
  | .row i => exec i s
  | .divi rB rA imm16 => execDivi rB rA imm16 s

/-- The end of a step that executed an instruction: run state `Running` (10_state.md R30, R31). -/
def retire : Result → Result
  | .next s => .next { s with run := .running }
  | .fault f => .fault f
  | .refused r => .refused r

/-- The step from the fetched word on: the halt sentinel ends it with run state `Halted`, before any decoding; another
word is decoded and executed (10_state.md R31, 30_encoding.md R113, R114). -/
def afterFetch (w : Word) (s : State) : Result :=
  if w = 0#32 then .next { s with run := .halted }
  else
    match s.cfg.decode w with
    | .error _ => .fault (.decodeError s.report w)
    | .ok d => retire (execDecoded d s)

/-- `step()`: refused in `Idle`, else the instruction cycle (10_state.md R30, R31). -/
def cycle (s : State) : Result :=
  if s.run = .idle then .refused .noImageLoaded
  else
    match fetch s.resetTags with
    | .error f => .fault f
    | .ok (w, t) => afterFetch w t

/-- Bytes written to RAM by hand, from address `a` up, modulo 2^32, as `load` writes an image. -/
def pokeBytes (m : Memory) (a : Word) : List Byte → Memory
  | [] => m
  | b :: bs => pokeBytes (m.write a.toNat b) (a + 1#32) bs

/-- The state with the word `w` in memory at the PC, little-endian, and an image counted as loaded: what `load` of a
program with this first instruction leaves (notes/assumptions/2.md). -/
def placeInstruction (s : State) (w : Word) : State :=
  { s with
    mem := pokeBytes s.mem s.pc (wordBytes w)
    run := if s.run = .idle then .loaded else s.run }

end Sys2Proof.Machine
end

