-- ==== Sys2Proof/Machine/Step.lean ====
section
/-! DEFINITION. The step function of the core, and the placing of one instruction where it fetches next. -/

namespace Sys2Proof.Machine

/-- One `step()` (10_state.md R31). A halting step is a next state with run state `Halted`. -/
def step (s : State) : Host.Outcome State Fault Refusal := cycle s

/-- The state whose next fetch reads the instruction with bits `w`, its bits from `nbits` up being 0. -/
def State.withFetchWord (s : State) (nbits w : Nat) : State :=
  placeInstruction s (BitVec.ofNat 32 (w % 2 ^ nbits))

end Sys2Proof.Machine
end

