-- ==== Sys2Proof/Machine/Assembler.lean ====
section
/-! DEFINITION. What of the assembler decides the bits of a program image (00_scope.md R4, 45_assembler.md): the value of
an operand expression, the relocation operators, the pseudo-instructions, the fields the link phase computes and the
layout of the image. Text processing (lines, labels, directives, macro definitions, error messages) is no part of the
hardware and is left out (R4). -/

namespace Sys2Proof.Machine

/-- The value of an operand expression: a 64-bit signed integer (R250). -/
abbrev Value := BitVec 64

/-! ## Expressions (R250 to R252) -/

/-- The binary operators (R251). -/
inductive BinOp where
  | shl | shr | ushr | and | or | xor | mul | div | rem | add | sub
  deriving DecidableEq, Repr

/-- The tier of an operator; tier 1 is reduced first (R251). -/
def BinOp.tier : BinOp → Nat
  | .shl => 1
  | .shr => 1
  | .ushr => 1
  | .and => 2
  | .or => 3
  | .xor => 3
  | .mul => 4
  | .div => 4
  | .rem => 4
  | .add => 5
  | .sub => 5

/-- What stands before a parenthesised group (R250). -/
inductive GroupPrefix where
  | plain | neg | lo | hi | hiadj
  deriving DecidableEq, Repr

/-- The expression cannot be evaluated: a divisor is zero (R251, 93_implementation_defined.md U25). -/
inductive ExprError where
  | zeroDivisor
  deriving DecidableEq, Repr

/-- An operand expression after symbols are replaced by their addresses (R250): literals, complements, groups, and chains
`term op rest` in text order. -/
inductive Expr where
  | lit (v : Value)
  | compl (e : Expr)
  | group (p : GroupPrefix) (e : Expr)
  | chain (term : Expr) (op : BinOp) (rest : Expr)
  deriving DecidableEq, Repr

/-- One operator on 64-bit signed integers (R251). A shift count counts modulo 64 (DEDUCED, notes/assumptions/13.md), and a
result outside the 64-bit range wraps modulo 2^64 (DEDUCED, notes/assumptions/25.md). -/
def BinOp.apply (o : BinOp) (a b : Value) : Except ExprError Value :=
  match o with
  | .shl => .ok (a <<< (b.toNat % 64))
  | .shr => .ok (a.sshiftRight (b.toNat % 64))
  | .ushr => .ok (a >>> (b.toNat % 64))
  | .and => .ok (a &&& b)
  | .or => .ok (a ||| b)
  | .xor => .ok (a ^^^ b)
  | .mul => .ok (a * b)
  | .div => if b = 0#64 then .error .zeroDivisor else .ok (BitVec.ofInt 64 (a.toInt.tdiv b.toInt))
  | .rem => if b = 0#64 then .error .zeroDivisor else .ok (BitVec.ofInt 64 (a.toInt.tmod b.toInt))
  | .add => .ok (a + b)
  | .sub => .ok (a - b)

/-- `%lo(v)`: the low 16 bits (R252). -/
def relocLo (v : Value) : Value := v &&& 0xFFFF#64

/-- `%hi(v)`: bits 16 to 31 (R252). -/
def relocHi (v : Value) : Value := (v >>> 16) &&& 0xFFFF#64

/-- `%hiadj(v)`: bits 16 to 31 plus the carry from bit 15 (R252). -/
def relocHiadj (v : Value) : Value := ((v >>> 16) &&& 0xFFFF#64) + ((v >>> 15) &&& 1#64)

/-- The value of a group with what stands before it (R250); the negation of -2^63 wraps (DEDUCED,
notes/assumptions/25.md). -/
def GroupPrefix.apply (p : GroupPrefix) (v : Value) : Value :=
  match p with
  | .plain => v
  | .neg => -v
  | .lo => relocLo v
  | .hi => relocHi v
  | .hiadj => relocHiadj v

/-- Reduces the operators of one tier in a flat chain, left to right (R251). -/
def reduceTier (tier : Nat) : Value → List (BinOp × Value) → Except ExprError (Value × List (BinOp × Value))
  | acc, [] => .ok (acc, [])
  | acc, (o, v) :: rest =>
    if o.tier = tier then do
      let x ← o.apply acc v
      reduceTier tier x rest
    else do
      let (h, more) ← reduceTier tier v rest
      pure (acc, (o, h) :: more)

/-- The value of a flat chain: every tier in turn, the highest first (R251). -/
def reduceChain (first : Value) (rest : List (BinOp × Value)) : Except ExprError Value := do
  let (a, l) ← reduceTier 1 first rest
  let (a, l) ← reduceTier 2 a l
  let (a, l) ← reduceTier 3 a l
  let (a, l) ← reduceTier 4 a l
  let (a, _) ← reduceTier 5 a l
  pure a

/-- The flat chain an expression is, groups and complements already evaluated (R250). -/
def Expr.flat : Expr → Except ExprError (Value × List (BinOp × Value))
  | .lit v => .ok (v, [])
  | .compl e => do
    let (a, l) ← e.flat
    let v ← reduceChain a l
    pure (~~~v, [])
  | .group p e => do
    let (a, l) ← e.flat
    let v ← reduceChain a l
    pure (p.apply v, [])
  | .chain t o rest => do
    let (a, l) ← t.flat
    let v ← reduceChain a l
    let (b, more) ← rest.flat
    pure (v, (o, b) :: more)

/-- The value of an expression (R250, R251). -/
def Expr.eval (e : Expr) : Except ExprError Value := do
  let (a, l) ← e.flat
  reduceChain a l

/-! ## Fields the link phase computes (R262 to R264) -/

/-- `IMM16` of a value: masked, not range-checked (R264). -/
def linkImm16 (v : Value) : Imm16 := v.setWidth 16

/-- `IMM5` of a value: masked (R264). -/
def linkImm5 (v : Value) : Imm5 := v.setWidth 5

/-- `IMM16` of a branch at address `at_` to `target` (R262). -/
def linkBranch (at_ : Word) (target : Value) : Imm16 := (target - (at_ + 4#32).setWidth 64).setWidth 16

/-- `IMM26` of a `call` or `jmpi` to `target` (R263). -/
def linkJump (target : Value) : Imm26 := (target >>> 2).setWidth 26

/-! ## Pseudo-instructions (R258) -/

/-- The pseudo-instructions, operands evaluated (R258). -/
inductive Pseudo where
  | mov (rC rA : Reg)
  | movi (rB : Reg) (v : Value)
  | movui (rB : Reg) (v : Value)
  | movhi (rB : Reg) (v : Value)
  | movia (rB : Reg) (v : Value)
  | nop
  | subi (rB rA : Reg) (v : Value)
  | cmpgt (rC rA rB : Reg)
  | cmpgtu (rC rA rB : Reg)
  | cmple (rC rA rB : Reg)
  | cmpleu (rC rA rB : Reg)
  | cmpgti (rB rA : Reg) (v : Value)
  | cmpgtui (rB rA : Reg) (v : Value)
  | cmplei (rB rA : Reg) (v : Value)
  | cmpleui (rB rA : Reg) (v : Value)
  | bgt (rA rB : Reg) (target : Value)
  | bgtu (rA rB : Reg) (target : Value)
  | ble (rA rB : Reg) (target : Value)
  | bleu (rA rB : Reg) (target : Value)
  deriving DecidableEq, Repr

/-- The expansion of a pseudo-instruction whose first instruction stands at `at_` (R258). -/
def Pseudo.expand (at_ : Word) : Pseudo → List Instr
  | .mov rC rA => [.add rC rA 0#5]
  | .movi rB v => [.addi rB 0#5 (linkImm16 v)]
  | .movui rB v => [.ori rB 0#5 (linkImm16 v)]
  | .movhi rB v => [.orhi rB 0#5 (linkImm16 v)]
  | .movia rB v => [.orhi rB 0#5 (linkImm16 (relocHiadj v)), .addi rB rB (linkImm16 (relocLo v))]
  | .nop => [.add 0#5 0#5 0#5]
  | .subi rB rA v => [.addi rB rA (linkImm16 (-v))]
  | .cmpgt rC rA rB => [.cmplt rC rB rA]
  | .cmpgtu rC rA rB => [.cmpltu rC rB rA]
  | .cmple rC rA rB => [.cmpge rC rB rA]
  | .cmpleu rC rA rB => [.cmpgeu rC rB rA]
  | .cmpgti rB rA v => [.cmpgei rB rA (linkImm16 (v + 1#64))]
  | .cmpgtui rB rA v => [.cmpgeui rB rA (linkImm16 (v + 1#64))]
  | .cmplei rB rA v => [.cmplti rB rA (linkImm16 (v + 1#64))]
  | .cmpleui rB rA v => [.cmpltui rB rA (linkImm16 (v + 1#64))]
  | .bgt rA rB t => [.blt rB rA (linkBranch at_ t)]
  | .bgtu rA rB t => [.bltu rB rA (linkBranch at_ t)]
  | .ble rA rB t => [.bge rB rA (linkBranch at_ t)]
  | .bleu rA rB t => [.bgeu rB rA (linkBranch at_ t)]

/-! ## Image (R259 to R261, R265) -/

/-- A variable of the data segment (R261). -/
inductive Variable where
  | byte (v : Value)
  | word (v : Value)
  | ascii (text : List Byte)
  | asciz (text : List Byte)
  deriving DecidableEq, Repr

/-- The bytes of a variable: `.word` little-endian, `.asciz` with a final zero (R261). An operand outside the range of its
directive keeps its low 8 or 32 bits: R261 gives the lengths alone, and R264 speaks of instruction immediates (DESIGN CHOICE,
notes/assumptions/23.md). -/
def Variable.bytes : Variable → List Byte
  | .byte v => [v.setWidth 8]
  | .word v => wordBytes (v.setWidth 32)
  | .ascii text => text
  | .asciz text => text ++ [0#8]

/-- The address of instruction `i`, counted from 0 (R259). -/
def instrAddress (start : Word) (i : Nat) : Word := start + BitVec.ofNat 32 (4 * i)

/-- The address of the variable that follows the variables `before`, after `n` instructions (R261). -/
def variableAddress (start : Word) (n : Nat) (before : List Variable) : Word :=
  start + BitVec.ofNat 32 (4 * n + 4 + (before.map (fun v => v.bytes.length)).sum)

/-- The words of a program, after macro expansion, for a machine with configuration `cfg`; none where an instruction is not in
its catalog (R245; R267, an unknown mnemonic). -/
def encodeAll (cfg : Config) : List Decoded → Option (List Word)
  | [] => some []
  | d :: ds => do
    let w ← cfg.encode d
    let ws ← encodeAll cfg ds
    pure (w :: ws)

/-- The bytes of an image: the instruction words, the reserved zero word, the variables, with no padding (R260). -/
def imageBytes (words : List Word) (data : List Variable) : List Byte :=
  words.flatMap wordBytes ++ wordBytes 0#32 ++ data.flatMap Variable.bytes

/-- The image of a program for a machine with configuration `cfg`, `divi` included where `HAS_DIVI` (R260, R265, 30_encoding.md
R117); none where an instruction is not in its catalog: a failed assembly gives no image (R267). -/
def buildImage (cfg : Config) (start : Word) (code : List Decoded) (data : List Variable) : Option Image :=
  (encodeAll cfg code).map (fun words => { bytes := imageBytes words data, start := start })

end Sys2Proof.Machine
end

