-- ==== Sys2Proof/Machine/HostInterface.lean ====
section
/-! DEFINITION. The host, the second agent of 00_scope.md R11: the commands `load`, `reset`, `step`, `run`
(70_reset_and_hazards.md R310 to R315), the inspection reads and the device stimuli (20_memory.md R86 to R89). Every move
falls between two core steps. -/

namespace Sys2Proof.Machine

/-! ## Configurations (20_memory.md R51, R52; 30_encoding.md R117) -/

/-- Two address ranges have no byte in common. -/
def blocksApart (b c : Block) : Bool := decide (b.start + b.len ≤ c.start) || decide (c.start + c.len ≤ b.start)

/-- A block is not empty and ends at or below 2^32 (R51). -/
def blockFits (b : Block) : Bool := decide (0 < b.len) && decide (b.start + b.len ≤ 2 ^ 32)

/-- `OP_DIVI` is a value that no row of the opcode table uses (30_encoding.md R117). -/
def opUnused (op : Op6) : Bool := Row.all.all (fun r => fieldOp r.pattern != op)

/-- A configuration of this hardware: blocks that fit and do not overlap (R51, R52), the program block among them (R55),
the three serial registers at offsets of their own (R70, R77), and an unused `OP_DIVI` (30_encoding.md R117). The checks that
neither R51 nor R52 names are the model's (DEDUCED, notes/assumptions/10.md). A block list without a block of some device kind
is accepted: 00_scope.md R2 counts four devices, and no rule refuses such a list (DESIGN CHOICE, notes/assumptions/21.md). So
is a serial offset at or beyond `UART_LEN`, whose register no access then reaches (DESIGN CHOICE, notes/assumptions/24.md). -/
def validConfig (cfg : Config) : Bool :=
  cfg.blocks.all blockFits
    && decide (cfg.blocks.Pairwise (fun b c => blocksApart b c = true))
    && cfg.blocks.any (fun b => b.kind == .ram && b.start == cfg.progBase.toNat && b.len == cfg.progLen)
    && cfg.uartRxOff != cfg.uartTxOff && cfg.uartRxOff != cfg.uartStOff && cfg.uartTxOff != cfg.uartStOff
    && (match cfg.divi with
        | none => true
        | some op => opUnused op)

/-! ## Load and reset (70_reset_and_hazards.md R311, R313; 10_state.md R41) -/

/-- The register values after `load` and `reset` (10_state.md R41). -/
def initialRegs (cfg : Config) : Vector Word 32 := cfg.regReset.set 0 0#32

/-- The tags after `load` and `reset` (10_state.md R41). -/
def initialTags (cfg : Config) : Tags :=
  ⟨⟨(List.range 32).map (fun i => if BitVec.ofNat 5 i ∈ cfg.disabled then Tag.disabled else Tag.untouched)⟩, by simp⟩

/-- The effect of `load(img)` and of a `reset` to it: every piece of state but the host's own and the output trace (R311,
R313). -/
def loaded (img : Image) (s : State) : State :=
  { s with
    regs := initialRegs s.cfg
    tags := initialTags s.cfg
    pc := s.cfg.entry
    run := .loaded
    mem := Memory.ofBytes img.start.toNat img.bytes
    led := 0#4
    rx := 0#8
    tx := 0#8
    rrdy := false
    snapshot := some img }

/-- A multiple of 4. -/
def aligned (a : Word) : Bool := a.extractLsb' 0 2 == 0#2

/-- `load(img)`, in any run state; a failed precondition refuses it with no change (R311). -/
def hostLoad (img : Image) (s : State) : Result :=
  if validConfig s.cfg = false then .refused .invalidConfiguration
  else if img.start ≠ s.cfg.progBase then .refused .imageStartMismatch
  else if aligned img.start = false then .refused .imageStartMisaligned
  else if s.cfg.progLen < img.bytes.length then .refused .imageTooLong
  else if aligned s.cfg.entry = false then .refused .entryMisaligned
  else .next (loaded img s)

/-- `reset()`: refused in `Idle`, else the state right after the load of the snapshot (R313). -/
def hostReset (s : State) : Result :=
  if s.run = .idle then .refused .noImageLoaded
  else
    match s.snapshot with
    | none => .refused .noImageLoaded
    | some img => .next (loaded img s)

/-! ## Step and run (70_reset_and_hazards.md R314, R315; 10_state.md R32) -/

/-- The result of a `step()`: `true`, `false`, a fault with its report, or a refusal (R314). -/
inductive StepReply where
  | executed
  | halted
  | fault (f : Fault)
  | refused (r : Refusal)
  deriving DecidableEq, Repr

/-- `step()` as the host issues it: the state the host finds afterwards, and the reply (R314; 60_exceptions.md R286,
R287). -/
def hostStep (s : State) : State × StepReply :=
  match step s with
  | .next t => (t, if t.run = .halted then .halted else .executed)
  | .fault f => (s.afterFault f, .fault f)
  | .refused r => (s, .refused r)

/-- The result of a `run()`: it halted, it faulted, it was refused, or the host stopped it at its bound (R315, R317). -/
inductive RunReply where
  | halted
  | fault (f : Fault)
  | refused (r : Refusal)
  | limit
  deriving DecidableEq, Repr

/-- The loop of `run()` under the bound `n`: steps until one halts or faults, at most `n` that execute an instruction
(10_state.md R32, R315). That a `run` in `Idle` is refused, whatever its bound, is `hostRun`'s to say. -/
def runFor : Nat → State → State × RunReply
  | 0, s => (s, .limit)
  | n + 1, s =>
    match hostStep s with
    | (t, .executed) => runFor n t
    | (t, .halted) => (t, .halted)
    | (t, .fault f) => (t, .fault f)
    | (t, .refused r) => (t, .refused r)

/-- The loop of `run()` without a bound ends in state `t` with reply `r`: some number of steps reaches it. A program that
never halts and never faults has no such end (10_state.md R32). -/
def runEnds (s t : State) (r : RunReply) : Prop := ∃ n, runFor n s = (t, r) ∧ r ≠ .limit

/-- `run()` under the configured `RUN_LIMIT`, as a relation of the state before, the state after and the reply: refused in
`Idle`, whatever the bound (10_state.md R30), else the loop of steps (R315). -/
def hostRun (s t : State) (r : RunReply) : Prop :=
  if s.run = .idle then t = s ∧ r = .refused .noImageLoaded
  else
    match s.cfg.runLimit with
    | some n => runFor n s = (t, r)
    | none => runEnds s t r

/-! ## Stimuli (20_memory.md R86 to R88) -/

/-- The nibble with bit `i` alone set. -/
def bitMask (i : Fin 4) : Nibble := 1#4 <<< i.val

/-- `toggleSwitch(i)` (R86). -/
def toggleSwitch (i : Fin 4) (s : State) : State := { s with sw := s.sw ^^^ bitMask i }

/-- `pressButton(i)` (R87). -/
def pressButton (i : Fin 4) (s : State) : State := { s with btn := s.btn ||| bitMask i }

/-- `releaseButton(i)` (R87). -/
def releaseButton (i : Fin 4) (s : State) : State := { s with btn := s.btn &&& ~~~(bitMask i) }

/-- `feedSerialInput(c)` (R88). -/
def feedSerialInput (c : Byte) (s : State) : State := { s with inq := s.inq ++ [c] }

/-! ## Inspection (20_memory.md R89, 70_reset_and_hazards.md R316) -/

/-- What an inspection read answers: a value, the address of a byte no block holds, or a refusal in `Idle`. -/
inductive Inspection (α : Type) where
  | value (v : α)
  | unmapped (a : Word)
  | refused (r : Refusal)
  deriving DecidableEq, Repr

/-- An inspection read is refused in `Idle` (70_reset_and_hazards.md R316). -/
def unlessIdle {α : Type} (s : State) (k : Inspection α) : Inspection α :=
  if s.run = .idle then .refused .noImageLoaded else k

/-- `readRegister(i)`; no tag changes (R89). A disabled register is read like any other: 10_state.md R24 fails a read by the
core, and R89 says neither way for the host's (DESIGN CHOICE, notes/assumptions/22.md). -/
def readRegister (s : State) (i : Reg) : Inspection Word := unlessIdle s (.value (s.reg i))

/-- `currentPC()` (10_state.md R27). -/
def currentPC (s : State) : Inspection Word := unlessIdle s (.value s.pc)

/-- `readByte`, `readShort` and `readWord`: the bytes the host sees, little-endian, with no side effect (R89). -/
def inspectMemory (s : State) (a : Word) (w : Width) : Inspection Word :=
  unlessIdle s
    (match (addresses a w.bytes).find? (fun x => (s.peek x).isNone) with
     | some x => .unmapped x
     | none => .value (littleEndian ((addresses a w.bytes).map (fun x => (s.peek x).getD 0#8))))

/-- The contents of a block as the host lists them (R89). -/
def blockContents (s : State) (b : Block) : List Byte :=
  (List.range b.len).map (fun i => (s.peek (BitVec.ofNat 32 (b.start + i))).getD 0#8)

/-- The block list "with name/range/contents" (R89). -/
def listBlocks (s : State) : Inspection (List (Block × List Byte)) :=
  unlessIdle s (.value (s.cfg.blocks.map (fun b => (b, blockContents s b))))

/-! ## The host as an agent (00_scope.md R11, 70_reset_and_hazards.md R310) -/

/-- The moves of the host that can change state. `run` is a sequence of `step` moves (10_state.md R32), and the inspection
reads change nothing (R89). -/
inductive HostMove where
  | load (img : Image)
  | reset
  | step
  | toggleSwitch (i : Fin 4)
  | pressButton (i : Fin 4)
  | releaseButton (i : Fin 4)
  | feedSerialInput (c : Byte)
  deriving DecidableEq, Repr

/-- The state a command leaves: the next state, or the state as it was where the command is refused. -/
def afterCommand (s : State) : Result → State
  | .next t => t
  | .fault f => s.afterFault f
  | .refused _ => s

/-- The state one move of the host leaves. -/
def hostMove (m : HostMove) (s : State) : State :=
  match m with
  | .load img => afterCommand s (hostLoad img s)
  | .reset => afterCommand s (hostReset s)
  | .step => (hostStep s).1
  | .toggleSwitch i => toggleSwitch i s
  | .pressButton i => pressButton i s
  | .releaseButton i => releaseButton i s
  | .feedSerialInput c => feedSerialInput c s

/-- The state a sequence of moves leaves (70_reset_and_hazards.md R324). -/
def hostMoves (ms : List HostMove) (s : State) : State := ms.foldl (fun t m => hostMove m t) s

end Sys2Proof.Machine
end

