-- ==== Sys2Proof/Safety.lean ====
section
/-! DEFINITION. The terms statements about the core use: which registers an instruction reads and writes (10_state.md
R43), which check of its own it makes (60_exceptions.md R292), what it leaves unchanged, and the invariant of the machine. Each
is written from the spec's tables, not from the meanings. -/

namespace Sys2Proof.Machine

/-! ## Registers an instruction names (10_state.md R43) -/

/-- The registers an instruction reads, in order (R43). -/
def reads : Instr → List Reg
  | .add _ rA rB => [rA, rB]
  | .addi _ rA _ => [rA]
  | .sub _ rA rB => [rA, rB]
  | .mul _ rA rB => [rA, rB]
  | .muli _ rA _ => [rA]
  | .mulxss _ rA rB => [rA, rB]
  | .mulxsu _ rA rB => [rA, rB]
  | .mulxuu _ rA rB => [rA, rB]
  | .div _ rA rB => [rA, rB]
  | .divu _ rA rB => [rA, rB]
  | .and _ rA rB => [rA, rB]
  | .andi _ rA _ => [rA]
  | .andhi _ rA _ => [rA]
  | .or _ rA rB => [rA, rB]
  | .ori _ rA _ => [rA]
  | .orhi _ rA _ => [rA]
  | .xor _ rA rB => [rA, rB]
  | .xori _ rA _ => [rA]
  | .xorhi _ rA _ => [rA]
  | .nor _ rA rB => [rA, rB]
  | .cmpeq _ rA rB => [rA, rB]
  | .cmpne _ rA rB => [rA, rB]
  | .cmpge _ rA rB => [rA, rB]
  | .cmpgeu _ rA rB => [rA, rB]
  | .cmplt _ rA rB => [rA, rB]
  | .cmpltu _ rA rB => [rA, rB]
  | .cmpeqi _ rA _ => [rA]
  | .cmpnei _ rA _ => [rA]
  | .cmpgei _ rA _ => [rA]
  | .cmpgeui _ rA _ => [rA]
  | .cmplti _ rA _ => [rA]
  | .cmpltui _ rA _ => [rA]
  | .sll _ rA rB => [rA, rB]
  | .slli _ rA _ => [rA]
  | .srl _ rA rB => [rA, rB]
  | .srli _ rA _ => [rA]
  | .sra _ rA rB => [rA, rB]
  | .srai _ rA _ => [rA]
  | .rol _ rA rB => [rA, rB]
  | .roli _ rA _ => [rA]
  | .ror _ rA rB => [rA, rB]
  | .ldw _ _ rA => [rA]
  | .ldh _ _ rA => [rA]
  | .ldhu _ _ rA => [rA]
  | .ldb _ _ rA => [rA]
  | .ldbu _ _ rA => [rA]
  | .stw rB _ rA => [rA, rB]
  | .sth rB _ rA => [rA, rB]
  | .stb rB _ rA => [rA, rB]
  | .ldwio _ _ rA => [rA]
  | .ldhio _ _ rA => [rA]
  | .ldhuio _ _ rA => [rA]
  | .ldbio _ _ rA => [rA]
  | .ldbuio _ _ rA => [rA]
  | .stwio rB _ rA => [rA, rB]
  | .sthio rB _ rA => [rA, rB]
  | .stbio rB _ rA => [rA, rB]
  | .br _ => []
  | .beq rA rB _ => [rA, rB]
  | .bne rA rB _ => [rA, rB]
  | .bge rA rB _ => [rA, rB]
  | .bgeu rA rB _ => [rA, rB]
  | .blt rA rB _ => [rA, rB]
  | .bltu rA rB _ => [rA, rB]
  | .call _ => []
  | .jmpi _ => []
  | .callr rA => [rA]
  | .jmp rA => [rA]
  | .ret => [31#5]

/-- The register an instruction writes, if any (R43). -/
def dest : Instr → Option Reg
  | .add rC _ _ => some rC
  | .addi rB _ _ => some rB
  | .sub rC _ _ => some rC
  | .mul rC _ _ => some rC
  | .muli rB _ _ => some rB
  | .mulxss rC _ _ => some rC
  | .mulxsu rC _ _ => some rC
  | .mulxuu rC _ _ => some rC
  | .div rC _ _ => some rC
  | .divu rC _ _ => some rC
  | .and rC _ _ => some rC
  | .andi rB _ _ => some rB
  | .andhi rB _ _ => some rB
  | .or rC _ _ => some rC
  | .ori rB _ _ => some rB
  | .orhi rB _ _ => some rB
  | .xor rC _ _ => some rC
  | .xori rB _ _ => some rB
  | .xorhi rB _ _ => some rB
  | .nor rC _ _ => some rC
  | .cmpeq rC _ _ => some rC
  | .cmpne rC _ _ => some rC
  | .cmpge rC _ _ => some rC
  | .cmpgeu rC _ _ => some rC
  | .cmplt rC _ _ => some rC
  | .cmpltu rC _ _ => some rC
  | .cmpeqi rB _ _ => some rB
  | .cmpnei rB _ _ => some rB
  | .cmpgei rB _ _ => some rB
  | .cmpgeui rB _ _ => some rB
  | .cmplti rB _ _ => some rB
  | .cmpltui rB _ _ => some rB
  | .sll rC _ _ => some rC
  | .slli rC _ _ => some rC
  | .srl rC _ _ => some rC
  | .srli rC _ _ => some rC
  | .sra rC _ _ => some rC
  | .srai rC _ _ => some rC
  | .rol rC _ _ => some rC
  | .roli rC _ _ => some rC
  | .ror rC _ _ => some rC
  | .ldw rB _ _ => some rB
  | .ldh rB _ _ => some rB
  | .ldhu rB _ _ => some rB
  | .ldb rB _ _ => some rB
  | .ldbu rB _ _ => some rB
  | .stw _ _ _ => none
  | .sth _ _ _ => none
  | .stb _ _ _ => none
  | .ldwio rB _ _ => some rB
  | .ldhio rB _ _ => some rB
  | .ldhuio rB _ _ => some rB
  | .ldbio rB _ _ => some rB
  | .ldbuio rB _ _ => some rB
  | .stwio _ _ _ => none
  | .sthio _ _ _ => none
  | .stbio _ _ _ => none
  | .br _ => none
  | .beq _ _ _ => none
  | .bne _ _ _ => none
  | .bge _ _ _ => none
  | .bgeu _ _ _ => none
  | .blt _ _ _ => none
  | .bltu _ _ _ => none
  | .call _ => some 31#5
  | .jmpi _ => none
  | .callr _ => some 31#5
  | .jmp _ => none
  | .ret => none

/-- The register a decoded instruction writes, if any: `divi` writes `rB` (R43, 40_arith_logic.md R151). -/
def destDecoded : Decoded → Option Reg
  | .row i => dest i
  | .divi rB _ _ => some rB

/-- None of the registers is disabled (R24, R25). -/
def Enabled (s : State) (rs : List Reg) : Prop := ∀ r ∈ rs, s.tag r ≠ .disabled

/-! ## The check an instruction makes of its own (60_exceptions.md R292, step 5) -/

/-- The first byte of an access that may not be made, as a `MemoryError` (20_memory.md R61, R66). -/
def accessFault (s : State) (a : Word) (n : Nat) (kind : Access) : Option (Report → Fault) :=
  ((addresses a n).find? (refuses s.cfg kind)).map (fun x r => .memoryError r x)

/-- A target that is not a multiple of 4, as a `MisalignedPC` (10_state.md R29). -/
def targetFault (t : Word) : Option (Report → Fault) :=
  if t.toNat % 4 = 0 then none else some (fun r => .misalignedPC r t)

/-- A branch makes the check only when it is taken (44_control_transfer.md R222). -/
def branchFault (taken : Prop) [Decidable taken] (s : State) (imm16 : Imm16) : Option (Report → Fault) :=
  if taken then targetFault (s.pc + 4#32 + imm16.signExtend 32) else none

/-- The fault of an instruction's own check, given the values of its registers: none where the check passes or there is
none (R292, step 5). -/
def ownFault (s : State) : Instr → Option (Report → Fault)
  | .add _ _ _ => none
  | .addi _ _ _ => none
  | .sub _ _ _ => none
  | .mul _ _ _ => none
  | .muli _ _ _ => none
  | .mulxss _ _ _ => none
  | .mulxsu _ _ _ => none
  | .mulxuu _ _ _ => none
  | .div _ _ rB => if s.reg rB = 0#32 then some .divideByZero else none
  | .divu _ _ rB => if s.reg rB = 0#32 then some .divideByZero else none
  | .and _ _ _ => none
  | .andi _ _ _ => none
  | .andhi _ _ _ => none
  | .or _ _ _ => none
  | .ori _ _ _ => none
  | .orhi _ _ _ => none
  | .xor _ _ _ => none
  | .xori _ _ _ => none
  | .xorhi _ _ _ => none
  | .nor _ _ _ => none
  | .cmpeq _ _ _ => none
  | .cmpne _ _ _ => none
  | .cmpge _ _ _ => none
  | .cmpgeu _ _ _ => none
  | .cmplt _ _ _ => none
  | .cmpltu _ _ _ => none
  | .cmpeqi _ _ _ => none
  | .cmpnei _ _ _ => none
  | .cmpgei _ _ _ => none
  | .cmpgeui _ _ _ => none
  | .cmplti _ _ _ => none
  | .cmpltui _ _ _ => none
  | .sll _ _ _ => none
  | .slli _ _ _ => none
  | .srl _ _ _ => none
  | .srli _ _ _ => none
  | .sra _ _ _ => none
  | .srai _ _ _ => none
  | .rol _ _ _ => none
  | .roli _ _ _ => none
  | .ror _ _ _ => none
  | .ldw _ imm16 rA => accessFault s (s.reg rA + imm16.signExtend 32) 4 .read
  | .ldh _ imm16 rA => accessFault s (s.reg rA + imm16.signExtend 32) 2 .read
  | .ldhu _ imm16 rA => accessFault s (s.reg rA + imm16.signExtend 32) 2 .read
  | .ldb _ imm16 rA => accessFault s (s.reg rA + imm16.signExtend 32) 1 .read
  | .ldbu _ imm16 rA => accessFault s (s.reg rA + imm16.signExtend 32) 1 .read
  | .stw _ imm16 rA => accessFault s (s.reg rA + imm16.signExtend 32) 4 .write
  | .sth _ imm16 rA => accessFault s (s.reg rA + imm16.signExtend 32) 2 .write
  | .stb _ imm16 rA => accessFault s (s.reg rA + imm16.signExtend 32) 1 .write
  | .ldwio _ imm16 rA => accessFault s (s.reg rA + imm16.signExtend 32) 4 .read
  | .ldhio _ imm16 rA => accessFault s (s.reg rA + imm16.signExtend 32) 2 .read
  | .ldhuio _ imm16 rA => accessFault s (s.reg rA + imm16.signExtend 32) 2 .read
  | .ldbio _ imm16 rA => accessFault s (s.reg rA + imm16.signExtend 32) 1 .read
  | .ldbuio _ imm16 rA => accessFault s (s.reg rA + imm16.signExtend 32) 1 .read
  | .stwio _ imm16 rA => accessFault s (s.reg rA + imm16.signExtend 32) 4 .write
  | .sthio _ imm16 rA => accessFault s (s.reg rA + imm16.signExtend 32) 2 .write
  | .stbio _ imm16 rA => accessFault s (s.reg rA + imm16.signExtend 32) 1 .write
  | .br imm16 => branchFault True s imm16
  | .beq rA rB imm16 => branchFault (s.reg rA = s.reg rB) s imm16
  | .bne rA rB imm16 => branchFault (s.reg rA ≠ s.reg rB) s imm16
  | .bge rA rB imm16 => branchFault ((s.reg rB).toInt ≤ (s.reg rA).toInt) s imm16
  | .bgeu rA rB imm16 => branchFault ((s.reg rB).toNat ≤ (s.reg rA).toNat) s imm16
  | .blt rA rB imm16 => branchFault ((s.reg rA).toInt < (s.reg rB).toInt) s imm16
  | .bltu rA rB imm16 => branchFault ((s.reg rA).toNat < (s.reg rB).toNat) s imm16
  | .call _ => none
  | .jmpi _ => none
  | .callr rA => targetFault (s.reg rA)
  | .jmp rA => targetFault (s.reg rA)
  | .ret => targetFault (s.reg 31#5)

/-! ## What an instruction leaves unchanged -/

/-- Everything but the general registers, their tags and the PC is the same in `t` as in `s`: every byte of RAM, every byte
the host can inspect, the device registers, the host's state, the output trace, the run state and the constants. -/
structure SameWorld (s t : State) : Prop where
  ram : ∀ a, t.mem.read a = s.mem.read a
  bytes : ∀ a, t.peek a = s.peek a
  led : t.led = s.led
  rx : t.rx = s.rx
  tx : t.tx = s.tx
  rrdy : t.rrdy = s.rrdy
  sw : t.sw = s.sw
  btn : t.btn = s.btn
  inq : t.inq = s.inq
  trace : t.trace = s.trace
  run : t.run = s.run
  cfg : t.cfg = s.cfg
  snapshot : t.snapshot = s.snapshot

/-- The tags after an instruction that read `rs` and wrote `d`: the last access of each register it named, every other tag
as before (10_state.md R24, R25). After a discarded write the tag of register 0 may be `write` or not. -/
def TagsMarked (rs : List Reg) (d : Option Reg) (s t : State) : Prop :=
  ∀ r, if d = some r then
      t.tag r = .write ∨ (r = 0#5 ∧ t.tag r = if r ∈ rs then .read else s.tag r)
    else t.tag r = if r ∈ rs then .read else s.tag r

/-- The outcome of an instruction that reads `rs`, writes the value `v` to register `d` and does nothing else but advance
the PC; register 0 stays zero (10_state.md R21, R28). -/
def WritesReg (rs : List Reg) (d : Reg) (v : Word) (s : State) (out : Result) : Prop :=
  ∃ t, out = .next t ∧ t.reg d = (if d = 0#5 then 0#32 else v) ∧ (∀ r, r ≠ d → t.reg r = s.reg r) ∧
    t.pc = s.pc + 4#32 ∧ SameWorld s t ∧ TagsMarked rs (some d) s t

/-- The outcome of an instruction that reads `rs`, writes no register and ends with the PC at `target`. -/
def GoesTo (rs : List Reg) (target : Word) (s : State) (out : Result) : Prop :=
  ∃ t, out = .next t ∧ t.pc = target ∧ (∀ r, t.reg r = s.reg r) ∧ SameWorld s t ∧ TagsMarked rs none s t

/-- The outcome of a call that reads `rs`: r31 holds the address of the next instruction, the PC is `target`
(44_control_transfer.md R228, R230). -/
def CallsTo (rs : List Reg) (target : Word) (s : State) (out : Result) : Prop :=
  ∃ t, out = .next t ∧ t.pc = target ∧ t.reg 31#5 = s.pc + 4#32 ∧ (∀ r, r ≠ 31#5 → t.reg r = s.reg r) ∧
    SameWorld s t ∧ TagsMarked rs (some 31#5) s t

/-- The outcome is the fault, reported with the PC of the instruction (60_exceptions.md R287). -/
def FaultsAtPC (f : Report → Fault) (s : State) (out : Result) : Prop :=
  ∃ r, out = .fault (f r) ∧ r.pc = s.pc

/-! ## Places of memory -/

/-- The `n` bytes from `a` up, modulo 2^32, are bytes of RAM blocks. -/
def InRam (cfg : Config) (a : Word) (n : Nat) : Prop :=
  ∀ i, i < n → ∃ b, resolve cfg (a + BitVec.ofNat 32 i) = some b ∧ b.kind = .ram

/-- The byte at `a` is the one at offset `off` of a block of kind `k`. -/
def InDevice (cfg : Config) (a : Word) (k : BlockKind) (off : Nat) : Prop :=
  ∃ b, resolve cfg a = some b ∧ b.kind = k ∧ a.toNat = b.start + off

/-- The word that `out` leaves in memory after a store of the low `n` bytes of `v` at `a`, everything else as it was: the
byte at `a + i` is byte `i` of `v`, every other byte of memory is unchanged (20_memory.md R63, 43_load_store.md R195). -/
def StoresRam (rs : List Reg) (a : Word) (n : Nat) (v : Word) (s : State) (out : Result) : Prop :=
  ∃ t, out = .next t ∧
    (∀ i, i < n → t.mem.read (a + BitVec.ofNat 32 i).toNat = v.extractLsb' (8 * i) 8) ∧
    (∀ x : Word, (∀ i, i < n → x ≠ a + BitVec.ofNat 32 i) → t.mem.read x.toNat = s.mem.read x.toNat) ∧
    (∀ r, t.reg r = s.reg r) ∧ t.pc = s.pc + 4#32 ∧ TagsMarked rs none s t ∧
    t.led = s.led ∧ t.rx = s.rx ∧ t.tx = s.tx ∧ t.rrdy = s.rrdy ∧ t.sw = s.sw ∧ t.btn = s.btn ∧ t.inq = s.inq ∧
    t.trace = s.trace ∧ t.run = s.run ∧ t.cfg = s.cfg ∧ t.snapshot = s.snapshot

/-! ## The invariant of the machine -/

/-- What every state a program can reach satisfies: RAM in canonical form and listed only where RAM is (20_memory.md R55),
`R[0]` zero (10_state.md R21), the PC a multiple of 4 (R27), and exactly the registers of `DISABLED` disabled (R23). -/
structure MachineInv (s : State) : Prop where
  canonical : Memory.WF s.mem
  onlyRam : ∀ c ∈ s.mem, c.1 < 2 ^ 32 ∧ InRam s.cfg (BitVec.ofNat 32 c.1) 1
  zeroReg : s.regs[0] = 0#32
  pcAligned : s.pc.toNat % 4 = 0
  disabledTags : ∀ r, s.tag r = .disabled ↔ r ∈ s.cfg.disabled

/-- The moves of the host that are device stimuli (20_memory.md R86 to R88). -/
def isStimulus : HostMove → Bool
  | .load _ => false
  | .reset => false
  | .step => false
  | .toggleSwitch _ => true
  | .pressButton _ => true
  | .releaseButton _ => true
  | .feedSerialInput _ => true

/-- The moves of the host other than `load`. -/
def isNotLoad : HostMove → Bool
  | .load _ => false
  | .reset => true
  | .step => true
  | .toggleSwitch _ => true
  | .pressButton _ => true
  | .releaseButton _ => true
  | .feedSerialInput _ => true

/-! ## Shapes of statement: the word of an instruction and what it does -/

/-- The word whose four bytes stand in RAM from `a` up, little-endian (20_memory.md R64). -/
def ramWord (s : State) (a : Word) : Word :=
  s.mem.read (a + 3#32).toNat ++ s.mem.read (a + 2#32).toNat ++ s.mem.read (a + 1#32).toNat ++ s.mem.read a.toNat

/-- The halfword whose two bytes stand in RAM from `a` up (20_memory.md R64). -/
def ramHalf (s : State) (a : Word) : BitVec 16 := s.mem.read (a + 1#32).toNat ++ s.mem.read a.toNat

/-- The byte of RAM at `a`. -/
def ramByte (s : State) (a : Word) : Byte := s.mem.read a.toNat

/-- R-format, three registers: the word with function code `opx` is the instruction, and with its registers enabled it
completes with the value `f` of its sources in `rC`. -/
def ThreeRegister (opx : Op6) (mk : Reg → Reg → Reg → Instr) (f : Word → Word → Word) : Prop :=
  ∀ rC rA rB, decode (encR opx rA rB rC 0#5) = .ok (mk rC rA rB) ∧
    ∀ s, Enabled s [rA, rB, rC] → WritesReg [rA, rB] rC (f (s.reg rA) (s.reg rB)) s (exec (mk rC rA rB) s)

/-- I-format, two registers and an immediate: the word with opcode `op` is the instruction, and with its registers enabled
it completes with the value `f` of source and immediate in `rB`. -/
def RegisterImmediate (op : Op6) (mk : Reg → Reg → Imm16 → Instr) (f : Word → Imm16 → Word) : Prop :=
  ∀ rB rA imm16, decode (encI op rA rB imm16) = .ok (mk rB rA imm16) ∧
    ∀ s, Enabled s [rA, rB] → WritesReg [rA] rB (f (s.reg rA) imm16) s (exec (mk rB rA imm16) s)

/-- R-format with a count: the word with function code `opx` and any `rB` field is the instruction, and with its registers
enabled it completes with the value `f` of source and count in `rC`. -/
def ShiftImmediate (opx : Op6) (mk : Reg → Reg → Imm5 → Instr) (f : Word → Nat → Word) : Prop :=
  ∀ rC rA rB imm5, decode (encR opx rA rB rC imm5) = .ok (mk rC rA imm5) ∧
    ∀ s, Enabled s [rA, rC] → WritesReg [rA] rC (f (s.reg rA) imm5.toNat) s (exec (mk rC rA imm5) s)

/-- A load: the word with opcode `op` is the instruction; with its registers enabled and the `n` bytes at its effective
address in RAM, it completes with `value` of that place in `rB`. -/
def LoadsFromRam (op : Op6) (mk : Reg → Imm16 → Reg → Instr) (n : Nat) (value : State → Word → Word) : Prop :=
  ∀ rB imm16 rA, decode (encI op rA rB imm16) = .ok (mk rB imm16 rA) ∧
    ∀ s, Enabled s [rA, rB] → InRam s.cfg (s.reg rA + imm16.signExtend 32) n →
      WritesReg [rA] rB (value s (s.reg rA + imm16.signExtend 32)) s (exec (mk rB imm16 rA) s)

/-- A load: the word with opcode `op` is the instruction. With its registers enabled and its `n` bytes admitted, whatever
blocks hold them, it completes with the extension `ext` of the bytes its byte reads return, lowest first, in `rB`; the world
is the one those byte reads leave, in which at most the serial receive register, its flag and the head of the input queue have
changed. With its base register enabled and a byte refused, it faults with that byte. -/
def LoadsFromBlocks (op : Op6) (mk : Reg → Imm16 → Reg → Instr) (n : Nat) (ext : Word → Word) : Prop :=
  ∀ rB imm16 rA, decode (encI op rA rB imm16) = .ok (mk rB imm16 rA) ∧
    ∀ s, (Enabled s [rA, rB] → accessFault s (s.reg rA + imm16.signExtend 32) n .read = none →
        ∃ bs u t, readBytes (s.setTag rA .read) (addresses (s.reg rA + imm16.signExtend 32) n) = .ok (bs, u) ∧
          bs.length = n ∧ exec (mk rB imm16 rA) s = .next t ∧
          t.reg rB = (if rB = 0#5 then 0#32 else ext (littleEndian bs)) ∧ (∀ r, r ≠ rB → t.reg r = s.reg r) ∧
          t.pc = s.pc + 4#32 ∧ SameWorld u t ∧ TagsMarked [rA] (some rB) s t ∧
          (∀ x, t.mem.read x = s.mem.read x) ∧ t.led = s.led ∧ t.tx = s.tx ∧ t.sw = s.sw ∧ t.btn = s.btn ∧
          t.inq <:+ s.inq ∧ t.trace = s.trace ∧ t.run = s.run ∧ t.cfg = s.cfg ∧ t.snapshot = s.snapshot) ∧
      (Enabled s [rA] → ∀ f, accessFault s (s.reg rA + imm16.signExtend 32) n .read = some f →
        FaultsAtPC f s (exec (mk rB imm16 rA) s))

/-- A store to RAM: the word with opcode `op` is the instruction; with its registers enabled and the `n` bytes at its
effective address in RAM, it completes and leaves the low `n` bytes of `rB` there. -/
def StoresToRam (op : Op6) (mk : Reg → Imm16 → Reg → Instr) (n : Nat) : Prop :=
  ∀ rB imm16 rA, decode (encI op rA rB imm16) = .ok (mk rB imm16 rA) ∧
    ∀ s, MachineInv s → Enabled s [rA, rB] → InRam s.cfg (s.reg rA + imm16.signExtend 32) n →
      StoresRam [rA, rB] (s.reg rA + imm16.signExtend 32) n (s.reg rB) s (exec (mk rB imm16 rA) s)

/-- A store: the word with opcode `op` is the instruction. With its registers enabled and its `n` bytes admitted, whatever
blocks hold them, it completes; the world is the one that its byte writes leave, made lowest byte first, no byte of RAM
outside the `n` changes, and no register. With its registers enabled and a byte refused, it faults with that byte. -/
def StoresToBlocks (op : Op6) (mk : Reg → Imm16 → Reg → Instr) (n : Nat) : Prop :=
  ∀ rB imm16 rA, decode (encI op rA rB imm16) = .ok (mk rB imm16 rA) ∧
    ∀ s, Enabled s [rA, rB] →
      (accessFault s (s.reg rA + imm16.signExtend 32) n .write = none →
        ∃ u t, writeBytes ((s.setTag rA .read).setTag rB .read)
            ((List.range n).map (fun i => (s.reg rA + imm16.signExtend 32 + BitVec.ofNat 32 i,
              (s.reg rB).extractLsb' (8 * i) 8))) = .ok u ∧
          exec (mk rB imm16 rA) s = .next t ∧ (∀ r, t.reg r = s.reg r) ∧ t.pc = s.pc + 4#32 ∧ SameWorld u t ∧
          TagsMarked [rA, rB] none s t ∧
          (∀ x : Word, (∀ i, i < n → x ≠ s.reg rA + imm16.signExtend 32 + BitVec.ofNat 32 i) →
            t.mem.read x.toNat = s.mem.read x.toNat) ∧
          t.sw = s.sw ∧ t.btn = s.btn ∧ t.inq <:+ s.inq ∧ s.trace <+: t.trace ∧ t.run = s.run ∧ t.cfg = s.cfg ∧
          t.snapshot = s.snapshot) ∧
      (∀ f, accessFault s (s.reg rA + imm16.signExtend 32) n .write = some f → FaultsAtPC f s (exec (mk rB imm16 rA) s))

/-- The target of a branch at `pc`, as an integer taken modulo 2^32 (44_control_transfer.md R220). -/
def branchTo (pc : Word) (imm16 : Imm16) : Word := BitVec.ofInt 32 (pc.toNat + 4 + imm16.toInt)

/-- A conditional branch: the word with opcode `op` is the instruction; with its registers enabled it goes to the next
instruction when the relation does not hold, and when it does to the target, or faults where the target is not a multiple
of 4. -/
def ConditionalBranch (op : Op6) (mk : Reg → Reg → Imm16 → Instr) (taken : Word → Word → Prop) : Prop :=
  ∀ rA rB imm16, decode (encI op rA rB imm16) = .ok (mk rA rB imm16) ∧
    ∀ s, Enabled s [rA, rB] →
      (¬ taken (s.reg rA) (s.reg rB) → GoesTo [rA, rB] (s.pc + 4#32) s (exec (mk rA rB imm16) s)) ∧
      (taken (s.reg rA) (s.reg rB) → (branchTo s.pc imm16).toNat % 4 = 0 →
        GoesTo [rA, rB] (branchTo s.pc imm16) s (exec (mk rA rB imm16) s)) ∧
      (taken (s.reg rA) (s.reg rB) → (branchTo s.pc imm16).toNat % 4 ≠ 0 →
        FaultsAtPC (fun r => .misalignedPC r (branchTo s.pc imm16)) s (exec (mk rA rB imm16) s))

/-- The target of a J-format instruction at `pc` (30_encoding.md R109): four times the field, plus the upper four bits of the
PC where the configuration says so. -/
def jumpTo (cfg : Config) (pc : Word) (imm26 : Imm26) : Word :=
  BitVec.ofNat 32 ((if cfg.jUpperFromPc then pc.toNat / 2 ^ 28 * 2 ^ 28 else 0) + 4 * imm26.toNat)

/-- A signed divide of `a` by `b` to register `d`: a zero divisor faults with nothing written; `-2^31` by `-1` gives
`DIV_OVF`; every other pair the quotient rounded toward zero (40_arith_logic.md R139). -/
def DividesSigned (rs : List Reg) (d : Reg) (a b : Word) (s : State) (out : Result) : Prop :=
  (b = 0#32 → FaultsAtPC .divideByZero s out) ∧
    (b ≠ 0#32 → s.tag d ≠ .disabled → ∃ q, WritesReg rs d q s out ∧
      (a.toInt = -2147483648 ∧ b.toInt = -1 → q = s.cfg.divOvf) ∧
      (¬ (a.toInt = -2147483648 ∧ b.toInt = -1) → q.toInt = a.toInt.tdiv b.toInt))

end Sys2Proof.Machine
end

