-- ==== Sys2Proof/Certificates/Slice0/Obligations.lean ====
section
/-! DEFINITION. The statements about the core, each from the rules of the spec its docstring names. They state and never
prove. The terms they use stand in Sys2Proof/Safety.lean. -/

open Sys2Proof Sys2Proof.Machine

/-! ## Encoding (30_encoding.md) -/

/-- R116: encoding is the inverse of decoding, for every instruction; the three encoders are the spec's sums, and the fields
the link phase makes of a value are its low bits. No well-formed instruction has the word of the halt sentinel (R113). -/
def Obligations.DecodeInvertsEncode : Prop :=
  (∀ i : Instr, decode (encode i) = .ok i ∧ (i.wellFormed = true → encode i ≠ 0#32)) ∧
  (∀ (op : Op6) (rA rB : Reg) (imm16 : Imm16), (encI op rA rB imm16).toNat =
    rA.toNat * 2 ^ 27 + rB.toNat * 2 ^ 22 + imm16.toNat * 2 ^ 6 + op.toNat) ∧
  (∀ (opx : Op6) (rA rB rC : Reg) (imm5 : Imm5), (encR opx rA rB rC imm5).toNat =
    rA.toNat * 2 ^ 27 + rB.toNat * 2 ^ 22 + rC.toNat * 2 ^ 17 + opx.toNat * 2 ^ 11 + imm5.toNat * 2 ^ 6 + 0x3A) ∧
  (∀ (op : Op6) (imm26 : Imm26), (encJ op imm26).toNat = imm26.toNat * 2 ^ 6 + op.toNat) ∧
  ∀ v : Value, (linkImm16 v).toNat = v.toNat % 2 ^ 16 ∧ (linkImm5 v).toNat = v.toNat % 2 ^ 5 ∧
    (linkJump (v <<< 2)).toNat = v.toNat % 2 ^ 26

/-- R104: the masks of the rows are those of their formats, a register field is never part of a pattern, and no two rows match
the same word. -/
def Obligations.RowsAreDisjoint : Prop :=
  (∀ r : Row, r.mask = 0x0000003F#32 ∨ (r.mask = 0x0001FFFF#32 ∧ fieldOp r.pattern = opRType ∧ fieldImm5 r.pattern = 0#5) ∨
    (r.mask = 0x0001F83F#32 ∧ fieldOp r.pattern = opRType ∧ r ∈ [Row.slli, Row.srli, Row.srai, Row.roli])) ∧
  (∀ r : Row, r.pattern &&& r.mask = r.pattern) ∧
  ∀ (r r' : Row) (w : Word), w &&& r.mask = r.pattern → w &&& r'.mask = r'.pattern → r = r'

/-- R105: the decoder answers an instruction of row `r` exactly when the word matches row `r` of the opcode table, and
rejects exactly the words that match no row. -/
def Obligations.DecoderFollowsTable : Prop :=
  ∀ w : Word, (∀ i, decode w = .ok i → w &&& i.row.mask = i.row.pattern) ∧
    (∀ r : Row, w &&& r.mask = r.pattern → ∃ i, decode w = .ok i ∧ i.row = r)

/-- R114: the illegal words are exactly its classes (a), (b) and (c). -/
def Obligations.IllegalWordsByClass : Prop :=
  ∀ w : Word, (∃ e, decode w = .error e) ↔
    (fieldOp w).toNat ∈ [0x02, 0x09, 0x0A, 0x11, 0x12, 0x13, 0x19, 0x1A, 0x1B, 0x1D, 0x1F, 0x21, 0x22, 0x29, 0x2A, 0x31,
      0x32, 0x33, 0x38, 0x39, 0x3B, 0x3D, 0x3E, 0x3F] ∨
    fieldOp w = 0x3A#6 ∧
      ((fieldOpx w).toNat ∈ [0x00, 0x01, 0x04, 0x09, 0x0A, 0x0C, 0x0F, 0x11, 0x14, 0x15, 0x19, 0x1C, 0x21, 0x22, 0x23, 0x26,
          0x29, 0x2A, 0x2B, 0x2C, 0x2D, 0x2E, 0x2F, 0x32, 0x33, 0x34, 0x35, 0x36, 0x37, 0x38, 0x3C, 0x3D, 0x3E, 0x3F] ∨
        fieldImm5 w ≠ 0#5 ∧ (fieldOpx w).toNat ∉ [0x02, 0x12, 0x1A, 0x3A])

/-- Words of 95_test_vectors.md (V1 to V4, V46, V66, V117), one of each format and family. -/
def Obligations.VectorWordsDecode : Prop :=
  decode 0x00800144#32 = .ok (.addi 2#5 0#5 5#16) ∧ decode 0x2007883A#32 = .ok (.add 3#5 4#5 0#5) ∧
  decode 0x00200200#32 = .ok (.call 0x8008#26) ∧ decode 0x1008913A#32 = .ok (.slli 4#5 2#5 4#5) ∧
  decode 0x003FFF06#32 = .ok (.br 0xFFFC#16) ∧ decode 0xF800283A#32 = .ok .ret ∧
  decode 0x10000015#32 = .ok (.stw 0#5 0#16 2#5) ∧ decode 0x10C9003A#32 = .ok (.cmpeq 4#5 2#5 3#5)

/-! ## Arithmetic and logic (40_arith_logic.md) -/

/-- R131 to R133: sums and differences modulo 2^32. -/
def Obligations.SumsAndDifferences : Prop :=
  ThreeRegister 0x31#6 .add (fun a b => BitVec.ofNat 32 (a.toNat + b.toNat)) ∧
  RegisterImmediate 0x04#6 .addi (fun a n => BitVec.ofInt 32 (a.toInt + n.toInt)) ∧
  ThreeRegister 0x39#6 .sub (fun a b => BitVec.ofInt 32 (a.toInt - b.toInt))

/-- R134, R135: the low 32 bits of the product, the same for the signed and the unsigned reading of the operands. -/
def Obligations.LowProducts : Prop :=
  ThreeRegister 0x27#6 .mul (fun a b => BitVec.ofNat 32 (a.toNat * b.toNat)) ∧
  ThreeRegister 0x27#6 .mul (fun a b => BitVec.ofInt 32 (a.toInt * b.toInt)) ∧
  RegisterImmediate 0x24#6 .muli (fun a n => BitVec.ofInt 32 (a.toInt * n.toInt))

/-- R136 to R138: the high 32 bits of the 64-bit product, per signedness of the operands: the product divided by 2^32,
rounded down. -/
def Obligations.HighProducts : Prop :=
  ThreeRegister 0x1F#6 .mulxss (fun a b => BitVec.ofInt 32 (a.toInt * b.toInt / 2 ^ 32)) ∧
  ThreeRegister 0x17#6 .mulxsu (fun a b => BitVec.ofInt 32 (a.toInt * (b.toNat : Int) / 2 ^ 32)) ∧
  ThreeRegister 0x07#6 .mulxuu (fun a b => BitVec.ofNat 32 (a.toNat * b.toNat / 2 ^ 32))

/-- R139: `div`. -/
def Obligations.SignedDivide : Prop :=
  ∀ rC rA rB, decode (encR 0x25#6 rA rB rC 0#5) = .ok (.div rC rA rB) ∧
    ∀ s, Enabled s [rA, rB] → DividesSigned [rA, rB] rC (s.reg rA) (s.reg rB) s (exec (.div rC rA rB) s)

/-- R140: `divu`. -/
def Obligations.UnsignedDivide : Prop :=
  ∀ rC rA rB, decode (encR 0x24#6 rA rB rC 0#5) = .ok (.divu rC rA rB) ∧
    ∀ s, Enabled s [rA, rB] →
      (s.reg rB = 0#32 → FaultsAtPC .divideByZero s (exec (.divu rC rA rB) s)) ∧
      (s.reg rB ≠ 0#32 → s.tag rC ≠ .disabled → ∃ q, WritesReg [rA, rB] rC q s (exec (.divu rC rA rB) s) ∧
        q.toNat = (s.reg rA).toNat / (s.reg rB).toNat)

/-- R117, R151: with `HAS_DIVI`, the unused opcode `OP_DIVI` decodes to the immediate divide, which divides by the
sign-extended immediate; without it the word is illegal. -/
def Obligations.OptionalImmediateDivide : Prop :=
  (∀ (cfg : Config) (op : Op6) (rB rA : Reg) (imm16 : Imm16), opUnused op = true → cfg.divi = some op →
    cfg.decode (encodeDivi op rB rA imm16) = .ok (.divi rB rA imm16)) ∧
  (∀ (cfg : Config) (op : Op6) (rB rA : Reg) (imm16 : Imm16), opUnused op = true → cfg.divi = none →
    ∃ e, cfg.decode (encodeDivi op rB rA imm16) = .error e) ∧
  ∀ (rB rA : Reg) (imm16 : Imm16) (s : State), Enabled s [rA] →
    DividesSigned [rA] rB (s.reg rA) (BitVec.ofInt 32 imm16.toInt) s (execDecoded (.divi rB rA imm16) s)

/-- R141 to R150: bitwise operations. -/
def Obligations.BitwiseResults : Prop :=
  ThreeRegister 0x0E#6 .and (fun a b => BitVec.ofNat 32 (a.toNat &&& b.toNat)) ∧
  RegisterImmediate 0x0C#6 .andi (fun a n => BitVec.ofNat 32 (a.toNat &&& n.toNat)) ∧
  RegisterImmediate 0x2C#6 .andhi (fun a n => BitVec.ofNat 32 (a.toNat &&& (n.toNat * 65536))) ∧
  ThreeRegister 0x16#6 .or (fun a b => BitVec.ofNat 32 (a.toNat ||| b.toNat)) ∧
  RegisterImmediate 0x14#6 .ori (fun a n => BitVec.ofNat 32 (a.toNat ||| n.toNat)) ∧
  RegisterImmediate 0x34#6 .orhi (fun a n => BitVec.ofNat 32 (a.toNat ||| (n.toNat * 65536))) ∧
  ThreeRegister 0x1E#6 .xor (fun a b => BitVec.ofNat 32 (a.toNat ^^^ b.toNat)) ∧
  RegisterImmediate 0x1C#6 .xori (fun a n => BitVec.ofNat 32 (a.toNat ^^^ n.toNat)) ∧
  RegisterImmediate 0x3C#6 .xorhi (fun a n => BitVec.ofNat 32 (a.toNat ^^^ (n.toNat * 65536))) ∧
  ThreeRegister 0x06#6 .nor (fun a b => BitVec.ofNat 32 (2 ^ 32 - 1 - (a.toNat ||| b.toNat)))

/-! ## Comparisons (41_compare.md) -/

/-- R161 to R166: the register comparisons. -/
def Obligations.RegisterComparisons : Prop :=
  ThreeRegister 0x20#6 .cmpeq (fun a b => if a = b then 1#32 else 0#32) ∧
  ThreeRegister 0x18#6 .cmpne (fun a b => if a ≠ b then 1#32 else 0#32) ∧
  ThreeRegister 0x08#6 .cmpge (fun a b => if a.toInt ≥ b.toInt then 1#32 else 0#32) ∧
  ThreeRegister 0x28#6 .cmpgeu (fun a b => if a.toNat ≥ b.toNat then 1#32 else 0#32) ∧
  ThreeRegister 0x10#6 .cmplt (fun a b => if a.toInt < b.toInt then 1#32 else 0#32) ∧
  ThreeRegister 0x30#6 .cmpltu (fun a b => if a.toNat < b.toNat then 1#32 else 0#32)

/-- R167 to R172: the immediate comparisons; the immediate is signed but for `cmpgeui` and `cmpltui`. -/
def Obligations.ImmediateComparisons : Prop :=
  RegisterImmediate 0x20#6 .cmpeqi (fun a n => if a.toInt = n.toInt then 1#32 else 0#32) ∧
  RegisterImmediate 0x18#6 .cmpnei (fun a n => if a.toInt ≠ n.toInt then 1#32 else 0#32) ∧
  RegisterImmediate 0x08#6 .cmpgei (fun a n => if a.toInt ≥ n.toInt then 1#32 else 0#32) ∧
  RegisterImmediate 0x28#6 .cmpgeui (fun a n => if a.toNat ≥ n.toNat then 1#32 else 0#32) ∧
  RegisterImmediate 0x10#6 .cmplti (fun a n => if a.toInt < n.toInt then 1#32 else 0#32) ∧
  RegisterImmediate 0x30#6 .cmpltui (fun a n => if a.toNat < n.toNat then 1#32 else 0#32)

/-! ## Shifts and rotates (42_shift_rotate.md) -/

/-- R181 to R186: shifts; the register count is taken modulo 32; the arithmetic shift rounds down. -/
def Obligations.ShiftResults : Prop :=
  ThreeRegister 0x13#6 .sll (fun a b => BitVec.ofNat 32 (a.toNat * 2 ^ (b.toNat % 32))) ∧
  ShiftImmediate 0x12#6 .slli (fun a n => BitVec.ofNat 32 (a.toNat * 2 ^ n)) ∧
  ThreeRegister 0x1B#6 .srl (fun a b => BitVec.ofNat 32 (a.toNat / 2 ^ (b.toNat % 32))) ∧
  ShiftImmediate 0x1A#6 .srli (fun a n => BitVec.ofNat 32 (a.toNat / 2 ^ n)) ∧
  ThreeRegister 0x3B#6 .sra (fun a b => BitVec.ofInt 32 (a.toInt / 2 ^ (b.toNat % 32))) ∧
  ShiftImmediate 0x3A#6 .srai (fun a n => BitVec.ofInt 32 (a.toInt / 2 ^ n))

/-- R187 to R189: rotates; the register count is taken modulo 32. -/
def Obligations.RotateResults : Prop :=
  ThreeRegister 0x03#6 .rol (fun a b => a.rotateLeft (b.toNat % 32)) ∧
  ShiftImmediate 0x02#6 .roli (fun a n => a.rotateLeft n) ∧
  ThreeRegister 0x0B#6 .ror (fun a b => a.rotateRight (b.toNat % 32))

/-! ## Loads and stores (43_load_store.md, 20_memory.md) -/

/-- R197 to R201, R205 to R209: loads from RAM, at any alignment; the `io` forms do what the plain forms do (R196). -/
def Obligations.RamLoads : Prop :=
  LoadsFromRam 0x17#6 .ldw 4 ramWord ∧
  LoadsFromRam 0x0F#6 .ldh 2 (fun s a => (ramHalf s a).signExtend 32) ∧
  LoadsFromRam 0x0B#6 .ldhu 2 (fun s a => (ramHalf s a).setWidth 32) ∧
  LoadsFromRam 0x07#6 .ldb 1 (fun s a => (ramByte s a).signExtend 32) ∧
  LoadsFromRam 0x03#6 .ldbu 1 (fun s a => (ramByte s a).setWidth 32) ∧
  LoadsFromRam 0x37#6 .ldwio 4 ramWord ∧
  LoadsFromRam 0x2F#6 .ldhio 2 (fun s a => (ramHalf s a).signExtend 32) ∧
  LoadsFromRam 0x2B#6 .ldhuio 2 (fun s a => (ramHalf s a).setWidth 32) ∧
  LoadsFromRam 0x27#6 .ldbio 1 (fun s a => (ramByte s a).signExtend 32) ∧
  LoadsFromRam 0x23#6 .ldbuio 1 (fun s a => (ramByte s a).setWidth 32)

/-- R197 to R201, R205 to R209: every load, from RAM and devices alike: with the bytes its byte reads return when admission
lets it through, and with the first refused byte as its fault when it does not. -/
def Obligations.LoadsFromAnyBlock : Prop :=
  LoadsFromBlocks 0x17#6 .ldw 4 id ∧ LoadsFromBlocks 0x37#6 .ldwio 4 id ∧
  LoadsFromBlocks 0x0F#6 .ldh 2 (fun v => (v.setWidth 16).signExtend 32) ∧
  LoadsFromBlocks 0x2F#6 .ldhio 2 (fun v => (v.setWidth 16).signExtend 32) ∧
  LoadsFromBlocks 0x0B#6 .ldhu 2 (fun v => (v.setWidth 16).setWidth 32) ∧
  LoadsFromBlocks 0x2B#6 .ldhuio 2 (fun v => (v.setWidth 16).setWidth 32) ∧
  LoadsFromBlocks 0x07#6 .ldb 1 (fun v => (v.setWidth 8).signExtend 32) ∧
  LoadsFromBlocks 0x27#6 .ldbio 1 (fun v => (v.setWidth 8).signExtend 32) ∧
  LoadsFromBlocks 0x03#6 .ldbu 1 (fun v => (v.setWidth 8).setWidth 32) ∧
  LoadsFromBlocks 0x23#6 .ldbuio 1 (fun v => (v.setWidth 8).setWidth 32)

/-- R202 to R204, R210 to R212: stores to RAM, at any alignment. -/
def Obligations.RamStores : Prop :=
  StoresToRam 0x15#6 .stw 4 ∧ StoresToRam 0x0D#6 .sth 2 ∧ StoresToRam 0x05#6 .stb 1 ∧
  StoresToRam 0x35#6 .stwio 4 ∧ StoresToRam 0x2D#6 .sthio 2 ∧ StoresToRam 0x25#6 .stbio 1

/-- R202 to R204, R210 to R212: every store, to RAM and devices alike: its byte writes when admission lets it through, and the
first refused byte as its fault, with nothing written, when it does not. -/
def Obligations.StoresToAnyBlock : Prop :=
  StoresToBlocks 0x15#6 .stw 4 ∧ StoresToBlocks 0x0D#6 .sth 2 ∧ StoresToBlocks 0x05#6 .stb 1 ∧
  StoresToBlocks 0x35#6 .stwio 4 ∧ StoresToBlocks 0x2D#6 .sthio 2 ∧ StoresToBlocks 0x25#6 .stbio 1

/-- R64: little-endian everywhere: after a word is written to RAM, each narrower read sees its bytes by address. -/
def Obligations.NarrowReadsOfAWord : Prop :=
  ∀ (s : State) (a v : Word), MachineInv s → InRam s.cfg a 4 → ∃ t, memWrite s a .word v = .ok t ∧
    memRead t a .word = .ok (v, t) ∧
    (∀ i, i < 4 → memRead t (a + BitVec.ofNat 32 i) .byte = .ok ((v.extractLsb' (8 * i) 8).setWidth 32, t)) ∧
    (∀ i, i < 3 → memRead t (a + BitVec.ofNat 32 i) .half = .ok ((v.extractLsb' (8 * i) 16).setWidth 32, t))

/-- R75, R76, R61: a store any byte of which lies in a DIP-switch or pushbutton window faults, at that byte or at a lower
refused one, and so writes nothing. -/
def Obligations.ReadOnlyWindowsRejectStores : Prop :=
  ∀ (s : State) (rB rA : Reg) (imm16 : Imm16) (k : Nat) (b : Block), Enabled s [rA, rB] →
    resolve s.cfg (s.reg rA + imm16.signExtend 32 + BitVec.ofNat 32 k) = some b → b.kind = .dip ∨ b.kind = .btn →
    ∀ p ∈ [(4, Instr.stw rB imm16 rA), (4, .stwio rB imm16 rA), (2, .sth rB imm16 rA), (2, .sthio rB imm16 rA),
        (1, .stb rB imm16 rA), (1, .stbio rB imm16 rA)], k < p.1 →
      ∃ j, j ≤ k ∧
        FaultsAtPC (fun r => .memoryError r (s.reg rA + imm16.signExtend 32 + BitVec.ofNat 32 j)) s (exec p.2 s)

/-- The inference R91 marks as the spec's own: a store to an instruction's address is seen by the next fetch of that
address. -/
def Obligations.StoreSeenByFetch : Prop :=
  ∀ (s : State) (rB rA : Reg) (imm16 : Imm16), MachineInv s → Enabled s [rA, rB] →
    InRam s.cfg (s.reg rA + imm16.signExtend 32) 4 →
    ∃ t, exec (.stw rB imm16 rA) s = .next t ∧
      fetch { t with pc := s.reg rA + imm16.signExtend 32 } =
        .ok (s.reg rB, { t with pc := s.reg rA + imm16.signExtend 32 })

/-! ## Devices (20_memory.md) -/

/-- R72, R70: a store of any width that begins at the LED data byte and lies in the LED window keeps the low nibble and emits
exactly one event, also when nothing changes. For the wider stores this is the inference R72 marks as the spec's own. -/
def Obligations.LedStore : Prop :=
  ∀ (s : State) (rB rA : Reg) (imm16 : Imm16), Enabled s [rA, rB] →
    ∀ p ∈ [(1, Instr.stb rB imm16 rA), (1, .stbio rB imm16 rA), (2, .sth rB imm16 rA), (2, .sthio rB imm16 rA),
        (4, .stw rB imm16 rA), (4, .stwio rB imm16 rA)],
      (∀ k, k < p.1 → InDevice s.cfg (s.reg rA + imm16.signExtend 32 + BitVec.ofNat 32 k) .led k) →
      ∃ t, exec p.2 s = .next t ∧
        t.led = BitVec.ofNat 4 ((s.reg rB).toNat % 16) ∧
        t.trace = s.trace ++ [.ledUpdate (BitVec.ofNat 4 ((s.reg rB).toNat % 16))] ∧
        t.mem = s.mem ∧ (∀ r, t.reg r = s.reg r) ∧ t.pc = s.pc + 4#32 ∧ TagsMarked [rA, rB] none s t ∧ t.rx = s.rx ∧
        t.tx = s.tx ∧ t.rrdy = s.rrdy ∧ t.sw = s.sw ∧ t.btn = s.btn ∧ t.inq = s.inq ∧ t.run = s.run ∧ t.cfg = s.cfg ∧
        t.snapshot = s.snapshot

/-- R73, R74, R76, R70: a byte load of the LED, DIP-switch or pushbutton window returns the four bits at the data byte and
zero elsewhere, with no side effect. -/
def Obligations.NibbleDeviceLoads : Prop :=
  ∀ (s : State) (rB rA : Reg) (imm16 : Imm16) (off : Nat), Enabled s [rA, rB] →
    ∀ i ∈ [Instr.ldbu rB imm16 rA, Instr.ldbuio rB imm16 rA],
      (InDevice s.cfg (s.reg rA + imm16.signExtend 32) .led off →
        WritesReg [rA] rB (if off = 0 then s.led.setWidth 32 else 0#32) s (exec i s)) ∧
      (InDevice s.cfg (s.reg rA + imm16.signExtend 32) .dip off →
        WritesReg [rA] rB (if off = 0 then (if s.cfg.inputActiveHigh then s.sw else ~~~ s.sw).setWidth 32 else 0#32) s
          (exec i s)) ∧
      (InDevice s.cfg (s.reg rA + imm16.signExtend 32) .btn off →
        WritesReg [rA] rB (if off = 0 then (if s.cfg.inputActiveHigh then s.btn else ~~~ s.btn).setWidth 32 else 0#32) s
          (exec i s))

/-- R79 to R84, and R85 up to its inference: every byte access of the serial window begins with the poll, by which, with
receive-ready clear and a character waiting, the character becomes the receive-data byte and sets receive-ready; then the byte
registers read and write as their rules say. The three registers have offsets of their own (notes/assumptions/10.md). -/
def Obligations.SerialAccesses : Prop :=
  (∀ s : State, (∀ c q, s.rrdy = false → s.inq = c :: q → serialPoll s = { s with rx := c, inq := q, rrdy := true }) ∧
    (s.rrdy = true ∨ s.inq = [] → serialPoll s = s)) ∧
  (∀ (s : State) (a : Word) (off : Nat), InDevice s.cfg a .serial off → s.cfg.uartRxOff ≠ s.cfg.uartTxOff →
    s.cfg.uartRxOff ≠ s.cfg.uartStOff → s.cfg.uartTxOff ≠ s.cfg.uartStOff →
    (off = s.cfg.uartRxOff → readByte s a = .ok ((serialPoll s).rx, { serialPoll s with rrdy := false })) ∧
    (off = s.cfg.uartTxOff → readByte s a = .ok (s.tx, serialPoll s)) ∧
    (off = s.cfg.uartStOff → readByte s a =
      .ok ((if (serialPoll s).rrdy then s.cfg.rrdyMask else 0#8) ||| s.cfg.tidleMask, serialPoll s)) ∧
    (off ≠ s.cfg.uartRxOff → off ≠ s.cfg.uartTxOff → off ≠ s.cfg.uartStOff → readByte s a = .ok (0#8, serialPoll s))) ∧
  ∀ (s : State) (a : Word) (v : Byte) (off : Nat), InDevice s.cfg a .serial off → s.cfg.uartRxOff ≠ s.cfg.uartTxOff →
    (off = s.cfg.uartTxOff → writeByte s a v =
      .ok { serialPoll s with tx := v, trace := s.trace ++ [.serialOut v] }) ∧
    (off ≠ s.cfg.uartTxOff → writeByte s a v = .ok (serialPoll s))

/-- The inference R85 marks as the spec's own, in `CFG0`: a word load of the receive register consumes one character and
leaves the next one ready. -/
def Obligations.SerialWordLoad : Prop :=
  ∀ (s : State) (rB rA : Reg) (imm16 : Imm16) (c d : Byte) (q : List Byte), Enabled s [rA, rB] → rB ≠ 0#5 →
    s.cfg = Config.cfg0 s.cfg.progLen → s.reg rA + imm16.signExtend 32 = 0x00000860#32 → s.rrdy = false →
    s.inq = c :: d :: q →
    ∃ t, exec (.ldw rB imm16 rA) s = .next t ∧ t.reg rB = c.setWidth 32 ∧ t.rx = d ∧ t.rrdy = true ∧ t.inq = q

/-- R68: a byte read of a RAM, LED, DIP-switch or pushbutton block changes nothing. -/
def Obligations.ReadsWithoutSideEffect : Prop :=
  ∀ (s t : State) (a : Word) (b : Block) (v : Byte), resolve s.cfg a = some b → b.kind ≠ .serial →
    readByte s a = .ok (v, t) → t = s ∧ s.peek a = some v

/-! ## Control transfer (44_control_transfer.md) -/

/-- R220, R221: `br`, with any `rA` and `rB` fields. -/
def Obligations.UnconditionalBranch : Prop :=
  ∀ (rA rB : Reg) (imm16 : Imm16), decode (encI 0x06#6 rA rB imm16) = .ok (.br imm16) ∧
    ∀ s, ((branchTo s.pc imm16).toNat % 4 = 0 → GoesTo [] (branchTo s.pc imm16) s (exec (.br imm16) s)) ∧
      ((branchTo s.pc imm16).toNat % 4 ≠ 0 →
        FaultsAtPC (fun r => .misalignedPC r (branchTo s.pc imm16)) s (exec (.br imm16) s))

/-- R220, R222 to R227: the conditional branches, one target rule for all. -/
def Obligations.ConditionalBranches : Prop :=
  ConditionalBranch 0x26#6 .beq (fun a b => a = b) ∧
  ConditionalBranch 0x1E#6 .bne (fun a b => a ≠ b) ∧
  ConditionalBranch 0x0E#6 .bge (fun a b => a.toInt ≥ b.toInt) ∧
  ConditionalBranch 0x2E#6 .bgeu (fun a b => a.toNat ≥ b.toNat) ∧
  ConditionalBranch 0x16#6 .blt (fun a b => a.toInt < b.toInt) ∧
  ConditionalBranch 0x36#6 .bltu (fun a b => a.toNat < b.toNat)

/-- R228, R229: the J-format call and jump; they never fault on their target. -/
def Obligations.AbsoluteCallAndJump : Prop :=
  ∀ imm26 : Imm26, decode (encJ 0x00#6 imm26) = .ok (.call imm26) ∧ decode (encJ 0x01#6 imm26) = .ok (.jmpi imm26) ∧
    ∀ s, (s.tag 31#5 ≠ .disabled → CallsTo [] (jumpTo s.cfg s.pc imm26) s (exec (.call imm26) s)) ∧
      (s.tag 31#5 = .disabled → FaultsAtPC (fun r => .registerError r 31#5) s (exec (.call imm26) s)) ∧
      GoesTo [] (jumpTo s.cfg s.pc imm26) s (exec (.jmpi imm26) s)

/-- R230: `callr` jumps to the old value of its register, checks it before the link is written, and links r31. -/
def Obligations.IndirectCall : Prop :=
  ∀ rA rB rC : Reg, decode (encR 0x1D#6 rA rB rC 0#5) = .ok (.callr rA) ∧
    ∀ s, Enabled s [rA] →
      ((s.reg rA).toNat % 4 = 0 → s.tag 31#5 ≠ .disabled → CallsTo [rA] (s.reg rA) s (exec (.callr rA) s)) ∧
      ((s.reg rA).toNat % 4 ≠ 0 → FaultsAtPC (fun r => .misalignedPC r (s.reg rA)) s (exec (.callr rA) s))

/-- R231, R232: `jmp` goes to its register, `ret` to r31 whatever its fields hold. -/
def Obligations.IndirectJumpAndReturn : Prop :=
  (∀ rA rB rC : Reg, decode (encR 0x0D#6 rA rB rC 0#5) = .ok (.jmp rA) ∧
    ∀ s, Enabled s [rA] →
      ((s.reg rA).toNat % 4 = 0 → GoesTo [rA] (s.reg rA) s (exec (.jmp rA) s)) ∧
      ((s.reg rA).toNat % 4 ≠ 0 → FaultsAtPC (fun r => .misalignedPC r (s.reg rA)) s (exec (.jmp rA) s))) ∧
  (∀ rA rB rC : Reg, decode (encR 0x05#6 rA rB rC 0#5) = .ok .ret ∧
    ∀ s, Enabled s [31#5] →
      ((s.reg 31#5).toNat % 4 = 0 → GoesTo [31#5] (s.reg 31#5) s (exec .ret s)) ∧
      ((s.reg 31#5).toNat % 4 ≠ 0 → FaultsAtPC (fun r => .misalignedPC r (s.reg 31#5)) s (exec .ret s)))

/-! ## Faults (60_exceptions.md) -/

/-- R292, steps 4 to 6: a disabled source register faults first, then the instruction's own check, then a disabled
destination. -/
def Obligations.FaultOrder : Prop :=
  ∀ (i : Instr) (s : State),
    (∀ r, (reads i).find? (fun r => decide (s.tag r = .disabled)) = some r →
      FaultsAtPC (fun p => .registerError p r) s (exec i s)) ∧
    (Enabled s (reads i) → ∀ f, ownFault s i = some f → FaultsAtPC f s (exec i s)) ∧
    (Enabled s (reads i) → ownFault s i = none → ∀ d, dest i = some d → s.tag d = .disabled →
      FaultsAtPC (fun p => .registerError p d) s (exec i s))

/-- R292, step 7: with its registers enabled and its own check passed, every instruction of the catalog completes. -/
def Obligations.EveryInstructionCompletes : Prop :=
  ∀ (i : Instr) (s : State), Enabled s (reads i) → ownFault s i = none → (∀ d, dest i = some d → s.tag d ≠ .disabled) →
    ∃ t, exec i s = .next t

/-- R289, first inference: after a fault a further `step()` faults the same way and leaves the same state. -/
def Obligations.FaultRepeats : Prop :=
  ∀ (s t : State) (f : Fault), hostStep s = (t, .fault f) → hostStep t = (t, .fault f)

/-- The inference R289 marks as the spec's own: no stimulus of the host changes whether or how an instruction fetched from RAM
faults. The premise is the model's (notes/assumptions/9.md): a fetch from an input device reads what the host sets. -/
def Obligations.StimuliNeverChangeAFault : Prop :=
  ∀ (s : State) (ms : List HostMove) (f : Fault), InRam s.cfg s.pc 4 → (∀ m ∈ ms, isStimulus m = true) →
    (step s = .fault f ↔ step (hostMoves ms s) = .fault f)

/-! ## The step (10_state.md R26 to R32) -/

/-- R31: when the bytes at the PC are in RAM and decode to a well-formed instruction of the catalog, the step resets the
tags, runs that instruction, and leaves run state `Running`. -/
def Obligations.StepRunsDecodedInstruction : Prop :=
  ∀ (s : State) (i : Instr), s.run ≠ .idle → InRam s.cfg s.pc 4 → decode (ramWord s s.pc) = .ok i → i.wellFormed = true →
    i.row ∈ s.cfg.catalog →
    step s = (match exec i s.resetTags with
      | .next t => .next { t with run := .running }
      | .fault f => .fault f
      | .refused r => .refused r)

/-- R31, R113: the word 0 halts the core before decoding, with nothing changed but the tags and the run state; and a further
step halts again and changes nothing. -/
def Obligations.HaltSentinel : Prop :=
  ∀ s : State, s.run ≠ .idle → InRam s.cfg s.pc 4 → ramWord s s.pc = 0#32 →
    step s = .next { s.resetTags with run := .halted } ∧
    step { s.resetTags with run := .halted } = .next { s.resetTags with run := .halted }

/-- R54, R292, R114: a fetch from an unmapped byte faults with the first such byte, and a non-zero word of RAM that matches no
row of the catalog faults with the whole word. -/
def Obligations.FetchAndDecodeFaults : Prop :=
  ∀ s : State, s.run ≠ .idle →
    (∀ x, (addresses s.pc 4).find? (fun a => (resolve s.cfg a).isNone) = some x →
      FaultsAtPC (fun r => .memoryError r x) s (step s)) ∧
    (∀ e, InRam s.cfg s.pc 4 → ramWord s s.pc ≠ 0#32 → s.cfg.decode (ramWord s s.pc) = .error e →
      FaultsAtPC (fun r => .decodeError r (ramWord s s.pc)) s (step s))

/-- R30: in `Idle` a step, a run and a reset are refused and change nothing, whatever the bound of the run; and so is every
inspection read, the block list included (20_memory.md R89, 70_reset_and_hazards.md R316). -/
def Obligations.IdleRefuses : Prop :=
  ∀ s : State, s.run = .idle → step s = .refused .noImageLoaded ∧ hostStep s = (s, .refused .noImageLoaded) ∧
    (∀ t r, hostRun s t r ↔ t = s ∧ r = .refused .noImageLoaded) ∧
    hostReset s = .refused .noImageLoaded ∧ hostMove .reset s = s ∧
    (∀ r, readRegister s r = .refused .noImageLoaded) ∧ currentPC s = .refused .noImageLoaded ∧
    (∀ a w, inspectMemory s a w = .refused .noImageLoaded) ∧ listBlocks s = .refused .noImageLoaded

/-! ## Invariants and whole-machine rules -/

/-- The state after reset satisfies the invariant. The image and configuration of that state are the model's choice
(notes/assumptions/2.md). -/
def Obligations.ResetSatisfiesInvariant : Prop := MachineInv State.reset

/-- R311, R41: a `load` that is accepted leaves a state that satisfies the invariant. -/
def Obligations.LoadEstablishesInvariant : Prop :=
  ∀ (img : Image) (s t : State), hostLoad img s = .next t → MachineInv t

/-- R21, R23, R27, R55: every step keeps RAM in canonical form inside its blocks, `R[0]` zero, the PC a multiple of 4, and
exactly the registers of `DISABLED` disabled. -/
def Obligations.StepKeepsInvariant : Prop :=
  ∀ s t : State, MachineInv s → step s = .next t → MachineInv t

/-- R36, R38, R39: no step changes the configuration, the snapshot, a switch or a button; the input queue loses characters
only at its head; the output trace only grows. -/
def Obligations.StepKeepsHostState : Prop :=
  ∀ s t : State, step s = .next t → t.cfg = s.cfg ∧ t.snapshot = s.snapshot ∧ t.sw = s.sw ∧ t.btn = s.btn ∧
    t.inq <:+ s.inq ∧ s.trace <+: t.trace

/-- R43: a step changes no general register but the destination, by the table, of the instruction it decodes (`rB` of the
optional `divi`); a step that halts changes none. -/
def Obligations.StepChangesOneRegister : Prop :=
  ∀ s t : State, step s = .next t → ∃ w u, fetch s.resetTags = .ok (w, u) ∧
    (w = 0#32 → ∀ r, t.reg r = s.reg r) ∧
    (w ≠ 0#32 → ∃ d, s.cfg.decode w = .ok d ∧ ∀ r, destDecoded d ≠ some r → t.reg r = s.reg r)

/-- R21: register 0 reads as zero in every state, and an instruction whose destination is register 0 changes no
register and goes on to the next instruction. -/
def Obligations.DiscardedWriteChangesNoRegister : Prop :=
  (∀ s : State, s.reg 0#5 = 0#32) ∧
  ∀ (i : Instr) (s t : State), dest i = some 0#5 → exec i s = .next t → (∀ r, t.reg r = s.reg r) ∧ t.pc = s.pc + 4#32

/-- R43, R63: a step changes a byte of RAM only when it executes a store, and only within the store's bytes, which start at
the effective address. -/
def Obligations.OnlyStoresChangeRam : Prop :=
  ∀ (s t : State) (x : Nat), step s = .next t → t.mem.read x ≠ s.mem.read x →
    ∃ w u rB imm16 rA n, fetch s.resetTags = .ok (w, u) ∧
      (n = 4 ∧ decode w = .ok (.stw rB imm16 rA) ∨ n = 4 ∧ decode w = .ok (.stwio rB imm16 rA) ∨
        n = 2 ∧ decode w = .ok (.sth rB imm16 rA) ∨ n = 2 ∧ decode w = .ok (.sthio rB imm16 rA) ∨
        n = 1 ∧ decode w = .ok (.stb rB imm16 rA) ∨ n = 1 ∧ decode w = .ok (.stbio rB imm16 rA)) ∧
      ∃ k, k < n ∧ x = (s.reg rA + imm16.signExtend 32 + BitVec.ofNat 32 k).toNat

/-- R23 to R26: after a step the tags show what it touched: a register the instruction wrote has tag `write` (register 0, whose
write is discarded, `write` or the tag it would have had: notes/assumptions/4.md), another one it read has tag `read`, every
other one has the tag `resetTags` left, which is `untouched` unless it is disabled; the same registers are disabled as before. -/
def Obligations.TagsShowTheStep : Prop :=
  ∀ (s : State) (i : Instr) (t : State), s.run ≠ .idle → InRam s.cfg s.pc 4 → decode (ramWord s s.pc) = .ok i →
    i.wellFormed = true → i.row ∈ s.cfg.catalog → step s = .next t →
    TagsMarked (reads i) (dest i) s.resetTags t ∧
    ∀ r, (t.tag r = .disabled ↔ s.tag r = .disabled) ∧
      (r ∉ reads i → dest i ≠ some r → s.tag r ≠ .disabled → t.tag r = .untouched)

/-! ## Host commands (70_reset_and_hazards.md) -/

/-- R311: `load` is accepted, in every run state, exactly when its preconditions hold on a configuration that the model takes
for one of this hardware; its effect; and a refused `load` changes nothing. Which configurations those are is the model's choice
beyond R51 and R52: that coinciding serial offsets, a missing program block or a used `OP_DIVI` are refused
(notes/assumptions/10.md), and that a list without a block of some device kind (notes/assumptions/21.md) and a serial offset at
or beyond the window's length (notes/assumptions/24.md) are accepted. -/
def Obligations.LoadRule : Prop :=
  ∀ (img : Image) (s : State),
    ((∃ t, hostLoad img s = .next t) ↔
      (validConfig s.cfg = true ∧ img.start = s.cfg.progBase ∧ img.start.toNat % 4 = 0 ∧
        img.bytes.length ≤ s.cfg.progLen ∧ s.cfg.entry.toNat % 4 = 0)) ∧
    (∀ r, hostLoad img s = .refused r → hostMove (.load img) s = s) ∧
    ∀ t, hostLoad img s = .next t → hostMove (.load img) s = t ∧
      t.run = .loaded ∧ t.pc = s.cfg.entry ∧ t.reg 0#5 = 0#32 ∧ (∀ r : Reg, r ≠ 0#5 → t.reg r = s.cfg.regReset[r.toNat]) ∧
      (∀ r, t.tag r = if r ∈ s.cfg.disabled then .disabled else .untouched) ∧
      (∀ k, k < img.bytes.length → t.mem.read (img.start.toNat + k) = img.bytes.getD k 0#8) ∧
      (∀ x, x < img.start.toNat ∨ img.start.toNat + img.bytes.length ≤ x → t.mem.read x = 0#8) ∧
      t.led = 0#4 ∧ t.rx = 0#8 ∧ t.tx = 0#8 ∧ t.rrdy = false ∧ t.snapshot = some img ∧
      t.cfg = s.cfg ∧ t.sw = s.sw ∧ t.btn = s.btn ∧ t.inq = s.inq ∧ t.trace = s.trace

/-- R42, R313: `reset()` after any sequence of host moves other than a further `load` restores registers, tags, PC, RAM and
device registers to the state immediately after `load()`, and touches neither the host's state nor the trace. -/
def Obligations.ResetRestoresLoadedState : Prop :=
  ∀ (img : Image) (s0 s1 : State) (ms : List HostMove), hostLoad img s0 = .next s1 → (∀ m ∈ ms, isNotLoad m = true) →
    ∃ t, hostReset (hostMoves ms s1) = .next t ∧
      t.regs = s1.regs ∧ t.tags = s1.tags ∧ t.pc = s1.pc ∧ t.mem = s1.mem ∧ t.led = s1.led ∧ t.rx = s1.rx ∧ t.tx = s1.tx ∧
      t.rrdy = s1.rrdy ∧ t.run = .loaded ∧ t.cfg = s1.cfg ∧ t.snapshot = s1.snapshot ∧
      t.sw = (hostMoves ms s1).sw ∧ t.btn = (hostMoves ms s1).btn ∧ t.inq = (hostMoves ms s1).inq ∧
      t.trace = (hostMoves ms s1).trace

/-- R32, R315: a run is no more than the sequence of its steps: under a bound of 0 it makes none; under a greater one it makes
one, ends where that step does not answer `true`, and goes on from there where it does; each step of a run is `step`; and a run
bounded by `m + n` steps is one bounded by `m`, continued by one bounded by `n` if its bound stopped it. The command `run`,
outside `Idle`, is that run under the configured bound, or, with none, under a bound large enough for it to end by itself. -/
def Obligations.RunIsItsSteps : Prop :=
  (∀ s : State, runFor 0 s = (s, .limit)) ∧
  (∀ (n : Nat) (s t : State), hostStep s = (t, .executed) → runFor (n + 1) s = runFor n t) ∧
  (∀ (n : Nat) (s t : State), hostStep s = (t, .halted) → runFor (n + 1) s = (t, .halted)) ∧
  (∀ (n : Nat) (s t : State) (f : Fault), hostStep s = (t, .fault f) → runFor (n + 1) s = (t, .fault f)) ∧
  (∀ (n : Nat) (s t : State) (r : Refusal), hostStep s = (t, .refused r) → runFor (n + 1) s = (t, .refused r)) ∧
  (∀ s : State, hostStep s =
    (match step s with
      | .next t => (t, if t.run = .halted then .halted else .executed)
      | .fault f => (s.afterFault f, .fault f)
      | .refused r => (s, .refused r))) ∧
  (∀ (m n : Nat) (s : State), runFor (m + n) s =
    (match runFor m s with
      | (t, .limit) => runFor n t
      | (t, .halted) => (t, .halted)
      | (t, .fault f) => (t, .fault f)
      | (t, .refused r) => (t, .refused r))) ∧
  ∀ (s t : State) (r : RunReply), s.run ≠ .idle →
    (hostRun s t r ↔
      (∃ n, s.cfg.runLimit = some n ∧ runFor n s = (t, r)) ∨
      (s.cfg.runLimit = none ∧ r ≠ .limit ∧ ∃ n, runFor n s = (t, r)))

/-- R317: a run that ends by itself ends in exactly one way: the state and the reply do not depend on how many steps were
allowed; so the command `run` has at most one outcome. -/
def Obligations.RunEndsOneWay : Prop :=
  (∀ (s t t' : State) (r r' : RunReply), runEnds s t r → runEnds s t' r' → t = t' ∧ r = r') ∧
  ∀ (s t t' : State) (r r' : RunReply), hostRun s t r → hostRun s t' r' → t = t' ∧ r = r'

/-- R86 to R88: the stimuli, bit by bit: each changes its own switch, button or the end of the queue, and nothing else. -/
def Obligations.StimuliEffects : Prop :=
  ∀ (s : State) (i j : Fin 4) (c : Byte),
    (toggleSwitch i s).sw.getLsbD j = (if j = i then !s.sw.getLsbD j else s.sw.getLsbD j) ∧
    toggleSwitch i s = { s with sw := (toggleSwitch i s).sw } ∧
    (pressButton i s).btn.getLsbD j = (if j = i then true else s.btn.getLsbD j) ∧
    pressButton i s = { s with btn := (pressButton i s).btn } ∧
    (releaseButton i s).btn.getLsbD j = (if j = i then false else s.btn.getLsbD j) ∧
    releaseButton i s = { s with btn := (releaseButton i s).btn } ∧
    feedSerialInput c s = { s with inq := s.inq ++ [c] }

/-! ## Assembler (45_assembler.md) -/

/-- R262, R220: a branch linked at `a` to a target within its reach goes to that target. -/
def Obligations.LinkedBranchReachesTarget : Prop :=
  ∀ a t : Word, (-32768 : Int) ≤ (t - (a + 4#32)).toInt → (t - (a + 4#32)).toInt ≤ 32767 →
    branchTarget a (linkBranch a (t.setWidth 64)) = t

/-- R252: `orhi rB, r0, %hiadj(v)` then `addi rB, rB, %lo(v)`, the expansion of `movia`, leave `v[31:0]` in `rB`. -/
def Obligations.MoviaLoadsTheValue : Prop :=
  ∀ (s : State) (rB : Reg) (v : Value) (a : Word), rB ≠ 0#5 → Enabled s [0#5, rB] →
    ∃ i j t u, Pseudo.expand a (.movia rB v) = [i, j] ∧ exec i s = .next t ∧ exec j t = .next u ∧
      u.reg rB = v.setWidth 32 ∧ (∀ r, r ≠ rB → u.reg r = s.reg r) ∧ u.pc = s.pc + 8#32

/-- R258: the pseudo-comparisons `cmpgt`, `cmpgtu`, `cmple`, `cmpleu` compare as their names say. -/
def Obligations.PseudoComparisons : Prop :=
  ∀ (s : State) (rC rA rB : Reg) (a : Word), Enabled s [rA, rB, rC] →
    (∃ i, Pseudo.expand a (.cmpgt rC rA rB) = [i] ∧
      WritesReg [rB, rA] rC (if (s.reg rA).toInt > (s.reg rB).toInt then 1#32 else 0#32) s (exec i s)) ∧
    (∃ i, Pseudo.expand a (.cmpgtu rC rA rB) = [i] ∧
      WritesReg [rB, rA] rC (if (s.reg rA).toNat > (s.reg rB).toNat then 1#32 else 0#32) s (exec i s)) ∧
    (∃ i, Pseudo.expand a (.cmple rC rA rB) = [i] ∧
      WritesReg [rB, rA] rC (if (s.reg rA).toInt ≤ (s.reg rB).toInt then 1#32 else 0#32) s (exec i s)) ∧
    (∃ i, Pseudo.expand a (.cmpleu rC rA rB) = [i] ∧
      WritesReg [rB, rA] rC (if (s.reg rA).toNat ≤ (s.reg rB).toNat then 1#32 else 0#32) s (exec i s))

/-- R259, R260, R265, R117: after an accepted load of an image built for the machine, instruction `k` of the code, `divi`
included where the machine has it, is fetched at its address and decodes to itself, and the word after the last instruction is
the halt sentinel. -/
def Obligations.LoadedImageIsFetched : Prop :=
  ∀ (start : Word) (code : List Decoded) (data : List Variable) (img : Image) (s t : State),
    buildImage s.cfg start code data = some img → hostLoad img s = .next t →
    (∀ (k : Nat) d, code[k]? = some d → ∃ w, s.cfg.encode d = some w ∧ s.cfg.decode w = .ok d ∧
      fetch { t with pc := instrAddress start k } = .ok (w, { t with pc := instrAddress start k })) ∧
    fetch { t with pc := instrAddress start code.length } = .ok (0#32, { t with pc := instrAddress start code.length })

/-- R260, with the catalog lookup of R245, R104 and R117 and the failed assembly of R267: a program has an image exactly when
each of its instructions is in the catalog, a row of the table or `divi` where `HAS_DIVI`; and with `N` instructions the image
is the instruction words, little-endian, in order, the reserved word, all zero, and from byte `4N + 4` the variables, in source
order, with no padding between them. -/
def Obligations.ImageLayout : Prop :=
  ∀ (cfg : Config) (start : Word) (code : List Decoded) (data : List Variable),
    ((∃ img, buildImage cfg start code data = some img) ↔
      (∀ i, .row i ∈ code → i.row ∈ cfg.catalog) ∧ (∀ rB rA imm16, .divi rB rA imm16 ∈ code → ∃ op, cfg.divi = some op)) ∧
    ∀ img, buildImage cfg start code data = some img →
      img.start = start ∧
      img.bytes.length = code.length * 4 + 4 + (data.map (fun v => v.bytes.length)).sum ∧
      (∀ (k : Nat) i, code[k]? = some (.row i) → ∀ j, j < 4 →
        img.bytes[4 * k + j]? = some ((encode i).extractLsb' (8 * j) 8)) ∧
      (∀ (k : Nat) rB rA imm16 op, code[k]? = some (.divi rB rA imm16) → cfg.divi = some op → ∀ j, j < 4 →
        img.bytes[4 * k + j]? = some ((encI op rA rB imm16).extractLsb' (8 * j) 8)) ∧
      (∀ j, j < 4 → img.bytes[4 * code.length + j]? = some 0#8) ∧
      ∀ before v after, data = before ++ v :: after → ∀ j, j < v.bytes.length →
        img.bytes[4 * code.length + 4 + (before.map (fun u => u.bytes.length)).sum + j]? = v.bytes[j]?
end

