-- ==== Sys2Proof/Laws/Memory.lean ====
section
/-! SUPPORT. The sparse memory: read after write, and that every memory operation keeps the canonical form. -/

namespace Sys2Proof.Machine

theorem Memory.wf_nil : Memory.WF [] := by simp [Memory.WF]

theorem Memory.wf_cons {c : Host.Cell} {m : Memory} :
    Memory.WF (c :: m) ↔ (∀ d ∈ m, c.1 < d.1) ∧ c.2 ≠ Memory.blank ∧ Memory.WF m := by
  simp only [Memory.WF, List.pairwise_cons, List.forall_mem_cons]
  tauto

/-- An address below every listed one reads blank. -/
theorem Memory.read_below {m : Memory} {a : Nat} (h : ∀ c ∈ m, a < c.1) : Memory.read m a = Memory.blank := by
  induction m with
  | nil => rfl
  | cons c m ih =>
    have hc := h c (by simp)
    rw [Memory.read, if_neg (by omega), ih (fun d hd => h d (by simp [hd]))]

/-- A write leaves every other address alone. -/
theorem Memory.read_write_ne (m : Memory) {a b : Nat} (v : Byte) (h : b ≠ a) :
    Memory.read (Memory.write m a v) b = Memory.read m b := by
  induction m with
  | nil => by_cases hv : v = Memory.blank <;> simp [Memory.write, Memory.read, hv, h]
  | cons c m ih =>
    obtain ⟨k, x⟩ := c
    by_cases h1 : a < k
    · by_cases hv : v = Memory.blank <;> simp [Memory.write, Memory.read, h1, hv, h]
    · by_cases h2 : a = k
      · subst h2
        by_cases hv : v = Memory.blank <;> simp [Memory.write, Memory.read, hv, h]
      · simp [Memory.write, Memory.read, h1, h2, ih]

/-- A read of the address written gives the byte written. -/
theorem Memory.read_write_same {m : Memory} (hm : Memory.WF m) (a : Nat) (v : Byte) :
    Memory.read (Memory.write m a v) a = v := by
  induction m with
  | nil => by_cases hv : v = Memory.blank <;> simp [Memory.write, Memory.read, hv]
  | cons c m ih =>
    obtain ⟨k, x⟩ := c
    obtain ⟨hlt, hx, hm'⟩ := Memory.wf_cons.mp hm
    by_cases h1 : a < k
    · by_cases hv : v = Memory.blank
      · simp only [Memory.write, h1, hv, if_true]
        exact Memory.read_below (by
          intro d hd
          rcases List.mem_cons.mp hd with rfl | hd
          · exact h1
          · exact Nat.lt_trans h1 (hlt d hd))
      · simp [Memory.write, Memory.read, h1, hv]
    · by_cases h2 : a = k
      · subst h2
        by_cases hv : v = Memory.blank
        · simp only [Memory.write, hv, if_true, Nat.lt_irrefl, if_false]
          exact Memory.read_below hlt
        · simp [Memory.write, Memory.read, hv]
      · simp [Memory.write, Memory.read, h1, h2, ih hm']

theorem Memory.read_write {m : Memory} (hm : Memory.WF m) (a b : Nat) (v : Byte) :
    Memory.read (Memory.write m a v) b = if b = a then v else Memory.read m b := by
  by_cases h : b = a
  · subst h; simp [Memory.read_write_same hm]
  · simp [h, Memory.read_write_ne m v h]

/-- Every entry after a write was there before or is the byte written. -/
theorem Memory.mem_write {m : Memory} {a : Nat} {v : Byte} {c : Host.Cell} (h : c ∈ Memory.write m a v) :
    c ∈ m ∨ c = (a, v) := by
  induction m with
  | nil =>
    by_cases hv : v = Memory.blank
    · simp [Memory.write, hv] at h
    · simp only [Memory.write, hv, if_false, List.mem_singleton] at h; exact .inr h
  | cons d m ih =>
    obtain ⟨k, x⟩ := d
    by_cases h1 : a < k
    · by_cases hv : v = Memory.blank <;> simp only [Memory.write, h1, hv, if_true, if_false] at h
      · exact .inl h
      · rcases List.mem_cons.mp h with h | h
        · exact .inr h
        · exact .inl h
    · by_cases h2 : a = k
      · subst h2
        by_cases hv : v = Memory.blank <;> simp only [Memory.write, Nat.lt_irrefl, hv, if_true, if_false] at h
        · exact .inl (by simp [h])
        · rcases List.mem_cons.mp h with h | h
          · exact .inr h
          · exact .inl (by simp [h])
      · simp only [Memory.write, h1, h2, if_false] at h
        rcases List.mem_cons.mp h with h | h
        · exact .inl (by simp [h])
        · rcases ih h with h | h
          · exact .inl (by simp [h])
          · exact .inr h

/-- A write keeps the canonical form. -/
theorem Memory.write_wf {m : Memory} (hm : Memory.WF m) (a : Nat) (v : Byte) : Memory.WF (Memory.write m a v) := by
  induction m with
  | nil => by_cases hv : v = Memory.blank <;> simp [Memory.write, Memory.WF, hv]
  | cons d m ih =>
    obtain ⟨k, x⟩ := d
    obtain ⟨hlt, hx, hm'⟩ := Memory.wf_cons.mp hm
    by_cases h1 : a < k
    · by_cases hv : v = Memory.blank
      · simpa [Memory.write, h1, hv] using hm
      · simp only [Memory.write, h1, hv, if_true, if_false]
        refine Memory.wf_cons.mpr ⟨?_, hv, hm⟩
        intro d hd
        rcases List.mem_cons.mp hd with rfl | hd
        · exact h1
        · exact Nat.lt_trans h1 (hlt d hd)
    · by_cases h2 : a = k
      · subst h2
        by_cases hv : v = Memory.blank
        · simpa [Memory.write, hv] using hm'
        · simp only [Memory.write, Nat.lt_irrefl, hv, if_true, if_false]
          exact Memory.wf_cons.mpr ⟨hlt, hv, hm'⟩
      · simp only [Memory.write, h1, h2, if_false]
        refine Memory.wf_cons.mpr ⟨?_, hx, ih hm'⟩
        intro d hd
        rcases Memory.mem_write hd with hd | rfl
        · exact hlt d hd
        · show k < a; omega

/-- An image lists only addresses from its start up to its end. -/
theorem Memory.mem_ofBytes {a : Nat} {bs : List Byte} {c : Host.Cell} (h : c ∈ Memory.ofBytes a bs) :
    a ≤ c.1 ∧ c.1 < a + bs.length := by
  induction bs generalizing a with
  | nil => simp [Memory.ofBytes] at h
  | cons b bs ih =>
    by_cases hb : b = Memory.blank
    · simp only [Memory.ofBytes, hb, if_true] at h
      have := ih h
      simp only [List.length_cons]; omega
    · simp only [Memory.ofBytes, hb, if_false] at h
      rcases List.mem_cons.mp h with rfl | h
      · simp
      · have := ih h
        simp only [List.length_cons]; omega

/-- An image is in canonical form. -/
theorem Memory.ofBytes_wf (a : Nat) (bs : List Byte) : Memory.WF (Memory.ofBytes a bs) := by
  induction bs generalizing a with
  | nil => exact Memory.wf_nil
  | cons b bs ih =>
    by_cases hb : b = Memory.blank
    · simpa [Memory.ofBytes, hb] using ih (a + 1)
    · simp only [Memory.ofBytes, hb, if_false]
      refine Memory.wf_cons.mpr ⟨?_, hb, ih (a + 1)⟩
      intro d hd
      have := Memory.mem_ofBytes hd
      show a < d.1; omega

/-- Byte `k` of an image stands at its start plus `k`. -/
theorem Memory.read_ofBytes (a : Nat) (bs : List Byte) (k : Nat) :
    Memory.read (Memory.ofBytes a bs) (a + k) = bs.getD k Memory.blank := by
  induction bs generalizing a k with
  | nil => simp [Memory.ofBytes, Memory.read]
  | cons b bs ih =>
    cases k with
    | zero =>
      by_cases hb : b = Memory.blank
      · simp only [Memory.ofBytes, hb, if_true, List.getD_cons_zero]
        exact Memory.read_below (fun c hc => by have := Memory.mem_ofBytes hc; omega)
      · simp [Memory.ofBytes, hb, Memory.read]
    | succ k =>
      have e : a + (k + 1) = (a + 1) + k := by omega
      by_cases hb : b = Memory.blank
      · simp only [Memory.ofBytes, hb, if_true, List.getD_cons_succ]; rw [e, ih]
      · simp only [Memory.ofBytes, hb, if_false, List.getD_cons_succ]
        rw [Memory.read, if_neg (by omega), e, ih]

/-- Placing bytes by hand keeps the canonical form. -/
theorem pokeBytes_wf {m : Memory} (hm : Memory.WF m) (a : Word) (bs : List Byte) : Memory.WF (pokeBytes m a bs) := by
  induction bs generalizing m a with
  | nil => exact hm
  | cons b bs ih => exact ih (Memory.write_wf hm _ _) _

/-- The memory after reset is in canonical form. -/
theorem reset_mem_wf : Memory.WF State.reset.mem := Memory.wf_nil

end Sys2Proof.Machine
end

