-- ==== Sys2Proof/Laws/State.lean ====
section
/-! SUPPORT. One lemma per field per named update of the state, so that no proof unfolds a record update, and the values
of `reg` and `tag` after each. -/

namespace Sys2Proof.Machine

/-! ## `setTag` -/

@[simp] theorem setTag_cfg (s : State) (i : Reg) (t : Tag) : (s.setTag i t).cfg = s.cfg := rfl
@[simp] theorem setTag_regs (s : State) (i : Reg) (t : Tag) : (s.setTag i t).regs = s.regs := rfl
@[simp] theorem setTag_pc (s : State) (i : Reg) (t : Tag) : (s.setTag i t).pc = s.pc := rfl
@[simp] theorem setTag_run (s : State) (i : Reg) (t : Tag) : (s.setTag i t).run = s.run := rfl
@[simp] theorem setTag_mem (s : State) (i : Reg) (t : Tag) : (s.setTag i t).mem = s.mem := rfl
@[simp] theorem setTag_led (s : State) (i : Reg) (t : Tag) : (s.setTag i t).led = s.led := rfl
@[simp] theorem setTag_rx (s : State) (i : Reg) (t : Tag) : (s.setTag i t).rx = s.rx := rfl
@[simp] theorem setTag_tx (s : State) (i : Reg) (t : Tag) : (s.setTag i t).tx = s.tx := rfl
@[simp] theorem setTag_rrdy (s : State) (i : Reg) (t : Tag) : (s.setTag i t).rrdy = s.rrdy := rfl
@[simp] theorem setTag_sw (s : State) (i : Reg) (t : Tag) : (s.setTag i t).sw = s.sw := rfl
@[simp] theorem setTag_btn (s : State) (i : Reg) (t : Tag) : (s.setTag i t).btn = s.btn := rfl
@[simp] theorem setTag_inq (s : State) (i : Reg) (t : Tag) : (s.setTag i t).inq = s.inq := rfl
@[simp] theorem setTag_trace (s : State) (i : Reg) (t : Tag) : (s.setTag i t).trace = s.trace := rfl
@[simp] theorem setTag_snapshot (s : State) (i : Reg) (t : Tag) : (s.setTag i t).snapshot = s.snapshot := rfl

/-! ## `resetTags` -/

@[simp] theorem resetTags_cfg (s : State) : (s.resetTags).cfg = s.cfg := rfl
@[simp] theorem resetTags_regs (s : State) : (s.resetTags).regs = s.regs := rfl
@[simp] theorem resetTags_pc (s : State) : (s.resetTags).pc = s.pc := rfl
@[simp] theorem resetTags_run (s : State) : (s.resetTags).run = s.run := rfl
@[simp] theorem resetTags_mem (s : State) : (s.resetTags).mem = s.mem := rfl
@[simp] theorem resetTags_led (s : State) : (s.resetTags).led = s.led := rfl
@[simp] theorem resetTags_rx (s : State) : (s.resetTags).rx = s.rx := rfl
@[simp] theorem resetTags_tx (s : State) : (s.resetTags).tx = s.tx := rfl
@[simp] theorem resetTags_rrdy (s : State) : (s.resetTags).rrdy = s.rrdy := rfl
@[simp] theorem resetTags_sw (s : State) : (s.resetTags).sw = s.sw := rfl
@[simp] theorem resetTags_btn (s : State) : (s.resetTags).btn = s.btn := rfl
@[simp] theorem resetTags_inq (s : State) : (s.resetTags).inq = s.inq := rfl
@[simp] theorem resetTags_trace (s : State) : (s.resetTags).trace = s.trace := rfl
@[simp] theorem resetTags_snapshot (s : State) : (s.resetTags).snapshot = s.snapshot := rfl

/-! ## `advance` -/

@[simp] theorem advance_cfg (s : State) : (advance s).cfg = s.cfg := rfl
@[simp] theorem advance_regs (s : State) : (advance s).regs = s.regs := rfl
@[simp] theorem advance_tags (s : State) : (advance s).tags = s.tags := rfl
@[simp] theorem advance_run (s : State) : (advance s).run = s.run := rfl
@[simp] theorem advance_mem (s : State) : (advance s).mem = s.mem := rfl
@[simp] theorem advance_led (s : State) : (advance s).led = s.led := rfl
@[simp] theorem advance_rx (s : State) : (advance s).rx = s.rx := rfl
@[simp] theorem advance_tx (s : State) : (advance s).tx = s.tx := rfl
@[simp] theorem advance_rrdy (s : State) : (advance s).rrdy = s.rrdy := rfl
@[simp] theorem advance_sw (s : State) : (advance s).sw = s.sw := rfl
@[simp] theorem advance_btn (s : State) : (advance s).btn = s.btn := rfl
@[simp] theorem advance_inq (s : State) : (advance s).inq = s.inq := rfl
@[simp] theorem advance_trace (s : State) : (advance s).trace = s.trace := rfl
@[simp] theorem advance_snapshot (s : State) : (advance s).snapshot = s.snapshot := rfl

@[simp] theorem advance_pc (s : State) : (advance s).pc = s.pc + 4#32 := rfl

/-! ## `emit` -/

@[simp] theorem emit_cfg (s : State) (e : OutputEvent) : (emit s e).cfg = s.cfg := rfl
@[simp] theorem emit_regs (s : State) (e : OutputEvent) : (emit s e).regs = s.regs := rfl
@[simp] theorem emit_tags (s : State) (e : OutputEvent) : (emit s e).tags = s.tags := rfl
@[simp] theorem emit_pc (s : State) (e : OutputEvent) : (emit s e).pc = s.pc := rfl
@[simp] theorem emit_run (s : State) (e : OutputEvent) : (emit s e).run = s.run := rfl
@[simp] theorem emit_mem (s : State) (e : OutputEvent) : (emit s e).mem = s.mem := rfl
@[simp] theorem emit_led (s : State) (e : OutputEvent) : (emit s e).led = s.led := rfl
@[simp] theorem emit_rx (s : State) (e : OutputEvent) : (emit s e).rx = s.rx := rfl
@[simp] theorem emit_tx (s : State) (e : OutputEvent) : (emit s e).tx = s.tx := rfl
@[simp] theorem emit_rrdy (s : State) (e : OutputEvent) : (emit s e).rrdy = s.rrdy := rfl
@[simp] theorem emit_sw (s : State) (e : OutputEvent) : (emit s e).sw = s.sw := rfl
@[simp] theorem emit_btn (s : State) (e : OutputEvent) : (emit s e).btn = s.btn := rfl
@[simp] theorem emit_inq (s : State) (e : OutputEvent) : (emit s e).inq = s.inq := rfl
@[simp] theorem emit_snapshot (s : State) (e : OutputEvent) : (emit s e).snapshot = s.snapshot := rfl

@[simp] theorem emit_trace (s : State) (e : OutputEvent) : (emit s e).trace = s.trace ++ [e] := rfl

/-! ## `afterFault` -/

@[simp] theorem afterFault_cfg (s : State) (f : Fault) : (s.afterFault f).cfg = s.cfg := rfl
@[simp] theorem afterFault_regs (s : State) (f : Fault) : (s.afterFault f).regs = s.regs := rfl
@[simp] theorem afterFault_pc (s : State) (f : Fault) : (s.afterFault f).pc = s.pc := rfl
@[simp] theorem afterFault_run (s : State) (f : Fault) : (s.afterFault f).run = s.run := rfl
@[simp] theorem afterFault_mem (s : State) (f : Fault) : (s.afterFault f).mem = s.mem := rfl
@[simp] theorem afterFault_led (s : State) (f : Fault) : (s.afterFault f).led = s.led := rfl
@[simp] theorem afterFault_rx (s : State) (f : Fault) : (s.afterFault f).rx = s.rx := rfl
@[simp] theorem afterFault_tx (s : State) (f : Fault) : (s.afterFault f).tx = s.tx := rfl
@[simp] theorem afterFault_rrdy (s : State) (f : Fault) : (s.afterFault f).rrdy = s.rrdy := rfl
@[simp] theorem afterFault_sw (s : State) (f : Fault) : (s.afterFault f).sw = s.sw := rfl
@[simp] theorem afterFault_btn (s : State) (f : Fault) : (s.afterFault f).btn = s.btn := rfl
@[simp] theorem afterFault_inq (s : State) (f : Fault) : (s.afterFault f).inq = s.inq := rfl
@[simp] theorem afterFault_trace (s : State) (f : Fault) : (s.afterFault f).trace = s.trace := rfl
@[simp] theorem afterFault_snapshot (s : State) (f : Fault) : (s.afterFault f).snapshot = s.snapshot := rfl

@[simp] theorem afterFault_tags (s : State) (f : Fault) : (s.afterFault f).tags = f.report.tags := rfl

/-! ## `setReg`, which keeps register 0 -/

@[simp] theorem setReg_cfg (s : State) (i : Reg) (v : Word) : (s.setReg i v).cfg = s.cfg := by
  unfold State.setReg; split <;> rfl
@[simp] theorem setReg_tags (s : State) (i : Reg) (v : Word) : (s.setReg i v).tags = s.tags := by
  unfold State.setReg; split <;> rfl
@[simp] theorem setReg_pc (s : State) (i : Reg) (v : Word) : (s.setReg i v).pc = s.pc := by
  unfold State.setReg; split <;> rfl
@[simp] theorem setReg_run (s : State) (i : Reg) (v : Word) : (s.setReg i v).run = s.run := by
  unfold State.setReg; split <;> rfl
@[simp] theorem setReg_mem (s : State) (i : Reg) (v : Word) : (s.setReg i v).mem = s.mem := by
  unfold State.setReg; split <;> rfl
@[simp] theorem setReg_led (s : State) (i : Reg) (v : Word) : (s.setReg i v).led = s.led := by
  unfold State.setReg; split <;> rfl
@[simp] theorem setReg_rx (s : State) (i : Reg) (v : Word) : (s.setReg i v).rx = s.rx := by
  unfold State.setReg; split <;> rfl
@[simp] theorem setReg_tx (s : State) (i : Reg) (v : Word) : (s.setReg i v).tx = s.tx := by
  unfold State.setReg; split <;> rfl
@[simp] theorem setReg_rrdy (s : State) (i : Reg) (v : Word) : (s.setReg i v).rrdy = s.rrdy := by
  unfold State.setReg; split <;> rfl
@[simp] theorem setReg_sw (s : State) (i : Reg) (v : Word) : (s.setReg i v).sw = s.sw := by
  unfold State.setReg; split <;> rfl
@[simp] theorem setReg_btn (s : State) (i : Reg) (v : Word) : (s.setReg i v).btn = s.btn := by
  unfold State.setReg; split <;> rfl
@[simp] theorem setReg_inq (s : State) (i : Reg) (v : Word) : (s.setReg i v).inq = s.inq := by
  unfold State.setReg; split <;> rfl
@[simp] theorem setReg_trace (s : State) (i : Reg) (v : Word) : (s.setReg i v).trace = s.trace := by
  unfold State.setReg; split <;> rfl
@[simp] theorem setReg_snapshot (s : State) (i : Reg) (v : Word) : (s.setReg i v).snapshot = s.snapshot := by
  unfold State.setReg; split <;> rfl

/-! ## Reports -/

@[simp] theorem report_pc (s : State) : s.report.pc = s.pc := rfl
@[simp] theorem report_tags (s : State) : s.report.tags = s.tags := rfl

/-! ## `reg` -/

/-- Registers depend on the register slots alone. -/
theorem reg_congr {s t : State} (h : t.regs = s.regs) (r : Reg) : t.reg r = s.reg r := by
  simp only [State.reg, h]

@[simp] theorem reg_zero (s : State) : s.reg 0#5 = 0#32 := by simp [State.reg]
@[simp] theorem setTag_reg (s : State) (i : Reg) (t : Tag) (r : Reg) : (s.setTag i t).reg r = s.reg r := rfl
@[simp] theorem resetTags_reg (s : State) (r : Reg) : s.resetTags.reg r = s.reg r := rfl
@[simp] theorem advance_reg (s : State) (r : Reg) : (advance s).reg r = s.reg r := rfl
@[simp] theorem emit_reg (s : State) (e : OutputEvent) (r : Reg) : (emit s e).reg r = s.reg r := rfl

theorem setReg_reg (s : State) (i : Reg) (v : Word) (r : Reg) :
    (s.setReg i v).reg r = if r = i then (if i = 0#5 then 0#32 else v) else s.reg r := by
  by_cases hi : i = 0#5
  · by_cases hr : r = i <;> simp [State.setReg, hi, hr]
    · intro h; subst h; simp
  · by_cases hr : r = i
    · subst hr; simp [State.setReg, State.reg, hi]
    · have hn : i.toNat ≠ r.toNat := fun h => hr (BitVec.eq_of_toNat_eq h.symm)
      simp [State.setReg, State.reg, hi, hr, hn]

/-! ## `tag` -/

/-- Tags depend on the tag slots alone. -/
theorem tag_congr {s t : State} (h : t.tags = s.tags) (r : Reg) : t.tag r = s.tag r := by
  simp only [State.tag, h]

@[simp] theorem setReg_tag (s : State) (i : Reg) (v : Word) (r : Reg) : (s.setReg i v).tag r = s.tag r :=
  tag_congr (by simp) r
@[simp] theorem advance_tag (s : State) (r : Reg) : (advance s).tag r = s.tag r := rfl
@[simp] theorem emit_tag (s : State) (e : OutputEvent) (r : Reg) : (emit s e).tag r = s.tag r := rfl

theorem setTag_tag (s : State) (i : Reg) (t : Tag) (r : Reg) :
    (s.setTag i t).tag r = if r = i then t else s.tag r := by
  by_cases hr : r = i
  · subst hr; simp [State.setTag, State.tag]
  · have hn : i.toNat ≠ r.toNat := fun h => hr (BitVec.eq_of_toNat_eq h.symm)
    simp [State.setTag, State.tag, hr, hn]

@[simp] theorem setTag_tag_self (s : State) (i : Reg) (t : Tag) : (s.setTag i t).tag i = t := by
  simp [setTag_tag]

@[simp] theorem resetTags_tag (s : State) (r : Reg) : s.resetTags.tag r = freshTag (s.tag r) := by
  simp [State.resetTags, State.tag]

theorem freshTag_eq_disabled {t : Tag} : freshTag t = .disabled ↔ t = .disabled := by
  cases t <;> simp [freshTag]

theorem resetTags_tag_eq_disabled (s : State) (r : Reg) : s.resetTags.tag r = .disabled ↔ s.tag r = .disabled := by
  rw [resetTags_tag, freshTag_eq_disabled]

/-- States with the same tag of every register have the same tags. -/
theorem tags_ext {s t : State} (h : ∀ r, t.tag r = s.tag r) : t.tags = s.tags := by
  apply Vector.ext
  intro i hi
  have := h (BitVec.ofNat 5 i)
  simpa [State.tag, Nat.mod_eq_of_lt hi] using this

theorem resetTags_idem (s : State) : s.resetTags.resetTags = s.resetTags := by
  have h : s.resetTags.resetTags.tags = s.resetTags.tags :=
    tags_ext (s := s.resetTags) (fun r => by simp; cases s.tag r <;> rfl)
  show { s.resetTags with tags := s.resetTags.resetTags.tags } = s.resetTags
  rw [h]

theorem tagAfterDiscard_eq (v : Word) (t : Tag) : tagAfterDiscard v t = .write ∨ tagAfterDiscard v t = t := by
  unfold tagAfterDiscard; split <;> simp

end Sys2Proof.Machine
end

