-- ==== Sys2Proof/Laws/Ops.lean ====
section
/-! SUPPORT. One lemma per shared operation that says everything it can do; proofs cite these in place of unfolding the
operation. -/

namespace Sys2Proof.Machine

/-! ## Sequencing -/

@[simp] theorem except_bind_ok {ε α β : Type} (a : α) (f : α → Except ε β) : (Except.ok a >>= f) = f a := rfl
@[simp] theorem except_bind_error {ε α β : Type} (e : ε) (f : α → Except ε β) :
    ((Except.error e : Except ε α) >>= f) = .error e := rfl
@[simp] theorem except_pure {ε α : Type} (a : α) : (pure a : Except ε α) = .ok a := rfl

/-- A sequence that answers a value answered one at each of its two steps. -/
theorem except_bind_eq_ok {ε α β : Type} {x : Except ε α} {f : α → Except ε β} {b : β} :
    (x >>= f) = .ok b ↔ ∃ a, x = .ok a ∧ f a = .ok b := by
  cases x <;> simp

/-- A sequence that fails failed at one of its two steps. -/
theorem except_bind_eq_error {ε α β : Type} {x : Except ε α} {f : α → Except ε β} {e : ε} :
    (x >>= f) = .error e ↔ x = .error e ∨ ∃ a, x = .ok a ∧ f a = .error e := by
  cases x <;> simp

@[simp] theorem conclude_ok (s : State) : conclude (.ok s) = .next s := rfl
@[simp] theorem conclude_error (f : Fault) : conclude (.error f) = .fault f := rfl

theorem conclude_eq_next {x : Except Fault State} {t : State} : conclude x = .next t ↔ x = .ok t := by
  cases x <;> simp [conclude]

theorem conclude_eq_fault {x : Except Fault State} {f : Fault} : conclude x = .fault f ↔ x = .error f := by
  cases x <;> simp [conclude]

theorem conclude_ne_refused {x : Except Fault State} {r : Refusal} : conclude x ≠ .refused r := by
  cases x <;> simp [conclude]

/-! ## `SameWorld` -/

/-- States that differ in registers, tags and PC alone have the same world. -/
theorem sameWorld_of_eq {s t : State} (h : t = { s with regs := t.regs, tags := t.tags, pc := t.pc }) : SameWorld s t := by
  rw [h]; constructor <;> intros <;> rfl

theorem SameWorld.refl (s : State) : SameWorld s s := by constructor <;> intros <;> rfl

/-! ## Register file -/

theorem readReg_enabled {s : State} {i : Reg} (h : s.tag i ≠ .disabled) :
    readReg s i = .ok (s.reg i, s.setTag i .read) := by simp [readReg, h]

theorem readReg_disabled {s : State} {i : Reg} (h : s.tag i = .disabled) :
    readReg s i = .error (.registerError s.report i) := by simp [readReg, h]

theorem readReg_eq_ok {s : State} {i : Reg} {p : Word × State} :
    readReg s i = .ok p ↔ s.tag i ≠ .disabled ∧ p = (s.reg i, s.setTag i .read) := by
  by_cases h : s.tag i = .disabled <;> simp [readReg, h, eq_comm]

theorem readReg_eq_error {s : State} {i : Reg} {f : Fault} :
    readReg s i = .error f ↔ s.tag i = .disabled ∧ f = .registerError s.report i := by
  by_cases h : s.tag i = .disabled <;> simp [readReg, h, eq_comm]

theorem writeReg_disabled {s : State} {i : Reg} {v : Word} (h : s.tag i = .disabled) :
    writeReg s i v = .error (.registerError s.report i) := by simp [writeReg, h]

/-- Everything `writeReg` does when it answers a state: the register holds the value, register 0 stays zero, the tag of a
register other than 0 is `write`, the tag of register 0 is `write` or as before, and nothing else changes. -/
theorem writeReg_eq_ok {s t : State} {i : Reg} {v : Word} (h : writeReg s i v = .ok t) :
    s.tag i ≠ .disabled ∧ t = { s with regs := t.regs, tags := t.tags } ∧
      (∀ r, t.reg r = if r = i then (if i = 0#5 then 0#32 else v) else s.reg r) ∧
      (∀ r, r ≠ i → t.tag r = s.tag r) ∧ (t.tag i = .write ∨ (i = 0#5 ∧ t.tag i = s.tag i)) ∧
      t.regs[0] = s.regs[0] := by
  by_cases hd : s.tag i = .disabled
  · simp [writeReg, hd] at h
  refine ⟨hd, ?_⟩
  by_cases hi : i = 0#5
  · subst hi
    simp only [writeReg, hd, if_false, if_true, Except.ok.injEq] at h
    subst h
    refine ⟨rfl, fun r => ?_, fun r hr => by simp [setTag_tag, hr], ?_, rfl⟩
    · by_cases hr : r = 0#5 <;> simp [hr]
    · rcases tagAfterDiscard_eq v (s.tag 0#5) with e | e <;> simp [e]
  · simp only [writeReg, hd, hi, if_false, Except.ok.injEq] at h
    subst h
    refine ⟨?_, fun r => by simp [setReg_reg], fun r hr => by simp [setTag_tag, hr], by simp, ?_⟩
    · simp [State.setReg, State.setTag, hi]
    · have hn : i.toNat ≠ 0 := fun h => hi (BitVec.eq_of_toNat_eq (by simpa using h))
      simp [State.setReg, hi, hn]

theorem writeReg_enabled {s : State} {i : Reg} (v : Word) (h : s.tag i ≠ .disabled) :
    ∃ t, writeReg s i v = .ok t := by
  unfold writeReg; rw [if_neg h]; split <;> exact ⟨_, rfl⟩

theorem writeReg_eq_error {s : State} {i : Reg} {v : Word} {f : Fault} :
    writeReg s i v = .error f ↔ s.tag i = .disabled ∧ f = .registerError s.report i := by
  by_cases h : s.tag i = .disabled
  · simp [writeReg, h, eq_comm]
  · obtain ⟨t, ht⟩ := writeReg_enabled v h
    simp [ht, h]

/-! ## Program counter -/

/-- Two low bits are zero exactly when the number is a multiple of 4. -/
theorem lowBits_eq_zero (t : Word) : t.extractLsb' 0 2 = 0#2 ↔ t.toNat % 4 = 0 := by
  rw [← BitVec.toNat_inj]; simp [BitVec.extractLsb'_toNat]

theorem checkTarget_aligned {s : State} {t : Word} (h : t.toNat % 4 = 0) : checkTarget s t = .ok () := by
  simp [checkTarget, (lowBits_eq_zero t).mpr h]

theorem checkTarget_misaligned {s : State} {t : Word} (h : t.toNat % 4 ≠ 0) :
    checkTarget s t = .error (.misalignedPC s.report t) := by
  have : ¬ t.extractLsb' 0 2 = 0#2 := fun e => h ((lowBits_eq_zero t).mp e)
  simp [checkTarget, this]

theorem transfer_aligned {s : State} {t : Word} (h : t.toNat % 4 = 0) : transfer s t = .ok { s with pc := t } := by
  simp [transfer, checkTarget_aligned h]

theorem transfer_misaligned {s : State} {t : Word} (h : t.toNat % 4 ≠ 0) :
    transfer s t = .error (.misalignedPC s.report t) := by
  simp [transfer, checkTarget_misaligned h]

theorem transfer_eq_ok {s u : State} {t : Word} : transfer s t = .ok u ↔ t.toNat % 4 = 0 ∧ u = { s with pc := t } := by
  by_cases h : t.toNat % 4 = 0
  · simp [transfer_aligned h, h, eq_comm]
  · simp [transfer_misaligned h, h]

/-! ## Admission -/

theorem admission_ok {s : State} {a : Word} {n : Nat} {k : Access} :
    admission s a n k = .ok () ↔ (addresses a n).find? (refuses s.cfg k) = none := by
  unfold admission; split <;> simp_all

theorem admission_error {s : State} {a x : Word} {n : Nat} {k : Access}
    (h : (addresses a n).find? (refuses s.cfg k) = some x) : admission s a n k = .error (.memoryError s.report x) := by
  simp [admission, h]

theorem mem_addresses {a x : Word} {n : Nat} : x ∈ addresses a n ↔ ∃ i, i < n ∧ x = a + BitVec.ofNat 32 i := by
  simp [addresses, eq_comm]

/-- A byte that reading does not refuse lies in a block. -/
theorem not_refuses_read {cfg : Config} {a : Word} : refuses cfg .read a = false ↔ ∃ b, resolve cfg a = some b := by
  unfold refuses
  cases h : resolve cfg a with
  | none => simp
  | some b => simp

/-- A byte that writing does not refuse lies in a block that is not read-only. -/
theorem not_refuses_write {cfg : Config} {a : Word} :
    refuses cfg .write a = false ↔ ∃ b, resolve cfg a = some b ∧ b.kind ≠ .dip ∧ b.kind ≠ .btn := by
  unfold refuses
  cases h : resolve cfg a with
  | none => simp
  | some b => cases hk : b.kind <;> simp [hk]

/-! ## Byte accesses -/

/-- What a poll can change: one character moved from the queue (20_memory.md R79). -/
theorem serialPoll_shape (s : State) :
    ∃ c f q, serialPoll s = { s with rx := c, rrdy := f, inq := q } ∧ q <:+ s.inq := by
  unfold serialPoll
  split
  · rename_i c rest _ h; exact ⟨c, true, rest, rfl, h ▸ List.suffix_cons _ _⟩
  · exact ⟨_, _, _, rfl, List.suffix_refl _⟩

/-- What a byte read can change: the serial receive side alone, and the queue only at its head. -/
theorem readByte_eq_ok {s t : State} {a : Word} {b : Byte} (h : readByte s a = .ok (b, t)) :
    t = { s with rx := t.rx, rrdy := t.rrdy, inq := t.inq } ∧ t.inq <:+ s.inq ∧ ∃ k, resolve s.cfg a = some k := by
  unfold readByte at h
  cases hr : resolve s.cfg a with
  | none => simp [hr] at h
  | some k =>
    simp only [hr, Except.ok.injEq] at h
    refine (?_ : _ ∧ _).imp id (fun h => ⟨h, k, rfl⟩)
    unfold blockRead at h
    cases hk : k.kind <;> simp only [hk, Prod.mk.injEq] at h
    case serial =>
      obtain ⟨c, f, q, hp, hq⟩ := serialPoll_shape s
      simp only [serialRead, hp] at h
      split at h <;> obtain ⟨-, rfl⟩ := Prod.mk.inj h <;> exact ⟨rfl, hq⟩
    all_goals obtain ⟨-, rfl⟩ := h; exact ⟨rfl, List.suffix_refl _⟩

/-- A byte of RAM is read without side effect. -/
theorem readByte_ram {s : State} {a : Word} {k : Block} (hr : resolve s.cfg a = some k) (hk : k.kind = .ram) :
    readByte s a = .ok (s.mem.read a.toNat, s) := by
  simp [readByte, hr, blockRead, hk]

theorem readByte_mapped {s : State} {a : Word} {k : Block} (hr : resolve s.cfg a = some k) :
    ∃ b t, readByte s a = .ok (b, t) := by
  simp only [readByte, hr]; exact ⟨_, _, rfl⟩

/-- What a byte write can change: RAM at its own address, and the registers of the LED and serial blocks; the queue only at
its head, the trace only at its end. -/
theorem writeByte_eq_ok {s t : State} {a : Word} {v : Byte} (h : writeByte s a v = .ok t) :
    t = { s with mem := t.mem, led := t.led, rx := t.rx, tx := t.tx, rrdy := t.rrdy, inq := t.inq, trace := t.trace } ∧
      (t.mem = s.mem ∨ t.mem = s.mem.write a.toNat v ∧ ∃ k, resolve s.cfg a = some k ∧ k.kind = .ram) ∧
      t.inq <:+ s.inq ∧ s.trace <+: t.trace ∧ ∃ k, resolve s.cfg a = some k ∧ k.kind ≠ .dip ∧ k.kind ≠ .btn := by
  unfold writeByte at h
  cases hr : resolve s.cfg a with
  | none => simp [hr] at h
  | some k =>
    simp only [hr] at h
    cases hk : k.kind <;> simp only [hk, Except.ok.injEq, reduceCtorEq] at h
    · subst h
      exact ⟨rfl, .inr ⟨rfl, k, rfl, hk⟩, List.suffix_refl _, List.prefix_refl _, k, rfl, by simp [hk], by simp [hk]⟩
    · subst h
      unfold ledWrite
      split
      · exact ⟨rfl, .inl rfl, List.suffix_refl _, List.prefix_append _ _, k, rfl, by simp [hk], by simp [hk]⟩
      · exact ⟨rfl, .inl rfl, List.suffix_refl _, List.prefix_refl _, k, rfl, by simp [hk], by simp [hk]⟩
    · subst h
      obtain ⟨c, f, q, hp, hq⟩ := serialPoll_shape s
      simp only [serialWrite, hp]
      split
      · exact ⟨rfl, .inl rfl, hq, List.prefix_refl _, k, rfl, by simp [hk], by simp [hk]⟩
      · split
        · exact ⟨rfl, .inl rfl, hq, List.prefix_append _ _, k, rfl, by simp [hk], by simp [hk]⟩
        · exact ⟨rfl, .inl rfl, hq, List.prefix_refl _, k, rfl, by simp [hk], by simp [hk]⟩

theorem writeByte_allowed {s : State} {a : Word} {k : Block} (v : Byte) (hr : resolve s.cfg a = some k)
    (hd : k.kind ≠ .dip) (hb : k.kind ≠ .btn) : ∃ t, writeByte s a v = .ok t := by
  cases hk : k.kind <;> simp_all [writeByte]

theorem writeByte_ram {s : State} {a : Word} {k : Block} (v : Byte) (hr : resolve s.cfg a = some k) (hk : k.kind = .ram) :
    writeByte s a v = .ok { s with mem := s.mem.write a.toNat v } := by
  simp [writeByte, hr, hk]

end Sys2Proof.Machine
end

