-- ==== Sys2Proof/Laws/Access.lean ====
section
/-! SUPPORT. What a multi-byte access can do: when it completes, what it changes, and its value and effect in RAM. -/

namespace Sys2Proof.Machine

/-! ## Reads -/

/-- A list of byte reads changes the serial receive side alone. -/
theorem readBytes_eq_ok {s t : State} {l : List Word} {bs : List Byte} (h : readBytes s l = .ok (bs, t)) :
    t = { s with rx := t.rx, rrdy := t.rrdy, inq := t.inq } ∧ t.inq <:+ s.inq ∧ bs.length = l.length := by
  induction l generalizing s bs with
  | nil =>
    obtain ⟨rfl, rfl⟩ := Prod.mk.inj (Except.ok.inj h)
    exact ⟨rfl, List.suffix_refl _, rfl⟩
  | cons a l ih =>
    obtain ⟨⟨b, u⟩, h1, h2⟩ := except_bind_eq_ok.mp h
    obtain ⟨⟨cs, v⟩, h3, h4⟩ := except_bind_eq_ok.mp h2
    obtain ⟨rfl, rfl⟩ := Prod.mk.inj (Except.ok.inj h4)
    obtain ⟨e1, q1, -⟩ := readByte_eq_ok h1
    obtain ⟨e2, q2, n⟩ := ih h3
    refine ⟨?_, q2.trans q1, by simp [n]⟩
    rw [e1] at e2; rw [e2]

/-- Byte reads of mapped addresses complete. -/
theorem readBytes_mapped {s : State} {l : List Word} (h : ∀ a ∈ l, ∃ k, resolve s.cfg a = some k) :
    ∃ bs t, readBytes s l = .ok (bs, t) := by
  induction l generalizing s with
  | nil => exact ⟨_, _, rfl⟩
  | cons a l ih =>
    obtain ⟨k, hk⟩ := h a (by simp)
    obtain ⟨b, u, hb⟩ := readByte_mapped hk
    have hc : u.cfg = s.cfg := by rw [(readByte_eq_ok hb).1]
    obtain ⟨bs, t, ht⟩ := ih (s := u) (fun x hx => hc ▸ h x (by simp [hx]))
    exact ⟨b :: bs, t, by simp [readBytes, hb, ht]⟩

/-- Byte reads of RAM return its bytes and change nothing. -/
theorem readBytes_ram {s : State} {l : List Word} (h : ∀ a ∈ l, ∃ k, resolve s.cfg a = some k ∧ k.kind = .ram) :
    readBytes s l = .ok (l.map (fun a => s.mem.read a.toNat), s) := by
  induction l with
  | nil => rfl
  | cons a l ih =>
    obtain ⟨k, hk, hr⟩ := h a (by simp)
    simp [readBytes, readByte_ram hk hr, ih (fun x hx => h x (by simp [hx]))]

theorem find_refuses_none {s : State} {a : Word} {n : Nat} {k : Access}
    (h : (addresses a n).find? (refuses s.cfg k) = none) : ∀ x ∈ addresses a n, refuses s.cfg k x = false := by
  intro x hx
  simpa using List.find?_eq_none.mp h x hx

/-- A read every byte of which is admitted completes. -/
theorem memRead_admitted {s : State} {a : Word} {w : Width}
    (h : (addresses a w.bytes).find? (refuses s.cfg .read) = none) : ∃ v t, memRead s a w = .ok (v, t) := by
  obtain ⟨bs, t, ht⟩ := readBytes_mapped (s := s) (fun x hx => not_refuses_read.mp (find_refuses_none h x hx))
  exact ⟨littleEndian bs, t, by simp [memRead, admission_ok.mpr h, ht]⟩

/-- A read with a refused byte faults with the first one. -/
theorem memRead_refused {s : State} {a x : Word} {w : Width}
    (h : (addresses a w.bytes).find? (refuses s.cfg .read) = some x) :
    memRead s a w = .error (.memoryError s.report x) := by
  simp [memRead, admission_error h]

/-- Everything a read that completes does. -/
theorem memRead_eq_ok {s t : State} {a v : Word} {w : Width} (h : memRead s a w = .ok (v, t)) :
    (addresses a w.bytes).find? (refuses s.cfg .read) = none ∧
      t = { s with rx := t.rx, rrdy := t.rrdy, inq := t.inq } ∧ t.inq <:+ s.inq ∧
      ∃ bs, readBytes s (addresses a w.bytes) = .ok (bs, t) ∧ v = littleEndian bs := by
  obtain ⟨u, h1, h2⟩ := except_bind_eq_ok.mp h
  obtain ⟨⟨bs, t'⟩, h3, h4⟩ := except_bind_eq_ok.mp h2
  obtain ⟨rfl, rfl⟩ := Prod.mk.inj (Except.ok.inj h4)
  obtain ⟨e, q, -⟩ := readBytes_eq_ok h3
  exact ⟨admission_ok.mp h1, e, q, bs, h3, rfl⟩

/-- A read faults exactly when a byte is refused. -/
theorem memRead_eq_error {s : State} {a : Word} {w : Width} {f : Fault} :
    memRead s a w = .error f ↔
      ∃ x, (addresses a w.bytes).find? (refuses s.cfg .read) = some x ∧ f = .memoryError s.report x := by
  cases h : (addresses a w.bytes).find? (refuses s.cfg .read) with
  | none =>
    obtain ⟨v, t, ht⟩ := memRead_admitted h
    simp [ht]
  | some x => simp [memRead_refused h, eq_comm]

/-- RAM is never refused. -/
theorem inRam_admitted {cfg : Config} {a : Word} {n : Nat} (h : InRam cfg a n) (k : Access) :
    (addresses a n).find? (refuses cfg k) = none := by
  rw [List.find?_eq_none]
  intro x hx
  obtain ⟨i, hi, rfl⟩ := mem_addresses.mp hx
  obtain ⟨b, hb, hk⟩ := h i hi
  simp [refuses, hb, hk]

/-- A read of RAM gives its bytes, little-endian, and changes nothing. -/
theorem memRead_ram {s : State} {a : Word} {w : Width} (h : InRam s.cfg a w.bytes) :
    memRead s a w = .ok (littleEndian ((addresses a w.bytes).map (fun x => s.mem.read x.toNat)), s) := by
  have hb := readBytes_ram (s := s) (l := addresses a w.bytes) (by
    intro x hx
    obtain ⟨i, hi, rfl⟩ := mem_addresses.mp hx
    exact h i hi)
  simp [memRead, admission_ok.mpr (inRam_admitted h .read), hb]

/-! ## Writes -/

theorem map_fst_storeList (a : Word) (w : Width) (v : Word) : (storeList a w v).map Prod.fst = addresses a w.bytes := by
  simp [storeList, addresses]

/-- What a list of byte writes can change: RAM at the listed addresses that are RAM, and the LED and serial blocks. -/
theorem writeBytes_eq_ok {s t : State} {l : List (Word × Byte)} (h : writeBytes s l = .ok t) :
    t = { s with mem := t.mem, led := t.led, rx := t.rx, tx := t.tx, rrdy := t.rrdy, inq := t.inq, trace := t.trace } ∧
      t.inq <:+ s.inq ∧ s.trace <+: t.trace ∧ (Memory.WF s.mem → Memory.WF t.mem) ∧
      (∀ c ∈ t.mem, c ∈ s.mem ∨ ∃ p ∈ l, c.1 = p.1.toNat ∧ ∃ k, resolve s.cfg p.1 = some k ∧ k.kind = .ram) ∧
      (∀ x, (∀ p ∈ l, x ≠ p.1.toNat) → t.mem.read x = s.mem.read x) := by
  induction l generalizing s with
  | nil =>
    obtain rfl := Except.ok.inj h
    exact ⟨rfl, List.suffix_refl _, List.prefix_refl _, id, fun c hc => .inl hc, fun _ _ => rfl⟩
  | cons p l ih =>
    obtain ⟨a, v⟩ := p
    obtain ⟨u, h1, h2⟩ := except_bind_eq_ok.mp h
    obtain ⟨e1, m1, q1, t1, -⟩ := writeByte_eq_ok h1
    obtain ⟨e2, q2, t2, w2, c2, r2⟩ := ih h2
    have hc : u.cfg = s.cfg := by rw [e1]
    refine ⟨?_, q2.trans q1, t1.trans t2, ?_, ?_, ?_⟩
    · rw [e1] at e2; rw [e2]
    · intro hs
      rcases m1 with m | ⟨m, -⟩
      · exact w2 (m ▸ hs)
      · exact w2 (m ▸ Memory.write_wf hs _ _)
    · intro c hcm
      rcases c2 c hcm with h | ⟨p, hp, h⟩
      · rcases m1 with m | ⟨m, hram⟩
        · exact .inl (m ▸ h)
        · rcases Memory.mem_write (m ▸ h) with h | rfl
          · exact .inl h
          · exact .inr ⟨(a, v), by simp, rfl, hram⟩
      · exact .inr ⟨p, by simp [hp], hc ▸ h⟩
    · intro x hx
      rw [r2 x (fun p hp => hx p (by simp [hp]))]
      rcases m1 with m | ⟨m, -⟩
      · rw [m]
      · rw [m]; exact Memory.read_write_ne _ _ (hx (a, v) (by simp))

/-- Byte writes of admitted addresses complete. -/
theorem writeBytes_admitted {s : State} {l : List (Word × Byte)} (h : ∀ p ∈ l, refuses s.cfg .write p.1 = false) :
    ∃ t, writeBytes s l = .ok t := by
  induction l generalizing s with
  | nil => exact ⟨_, rfl⟩
  | cons p l ih =>
    obtain ⟨a, v⟩ := p
    obtain ⟨k, hk, hd, hb⟩ := not_refuses_write.mp (h (a, v) (by simp))
    obtain ⟨u, hu⟩ := writeByte_allowed v hk hd hb
    have hc : u.cfg = s.cfg := by rw [(writeByte_eq_ok hu).1]
    obtain ⟨t, ht⟩ := ih (s := u) (fun p hp => hc ▸ h p (by simp [hp]))
    exact ⟨t, by simp [writeBytes, hu, ht]⟩

/-- Byte writes of RAM change those bytes alone. -/
theorem writeBytes_ram {s : State} {l : List (Word × Byte)}
    (h : ∀ p ∈ l, ∃ k, resolve s.cfg p.1 = some k ∧ k.kind = .ram) :
    writeBytes s l = .ok { s with mem := l.foldl (fun m p => m.write p.1.toNat p.2) s.mem } := by
  induction l generalizing s with
  | nil => rfl
  | cons p l ih =>
    obtain ⟨a, v⟩ := p
    obtain ⟨k, hk, hr⟩ := h (a, v) (by simp)
    simp only [writeBytes, writeByte_ram v hk hr, except_bind_ok, List.foldl_cons]
    exact ih (s := { s with mem := s.mem.write a.toNat v }) (fun p hp => h p (by simp [hp]))

/-- A write every byte of which is admitted completes. -/
theorem memWrite_admitted {s : State} {a : Word} {w : Width} (v : Word)
    (h : (addresses a w.bytes).find? (refuses s.cfg .write) = none) : ∃ t, memWrite s a w v = .ok t := by
  obtain ⟨t, ht⟩ := writeBytes_admitted (s := s) (l := storeList a w v) (by
    intro p hp
    exact find_refuses_none h _ (map_fst_storeList a w v ▸ List.mem_map_of_mem hp))
  exact ⟨t, by simp [memWrite, admission_ok.mpr h, ht]⟩

/-- A write with a refused byte faults with the first one, and writes nothing. -/
theorem memWrite_refused {s : State} {a x v : Word} {w : Width}
    (h : (addresses a w.bytes).find? (refuses s.cfg .write) = some x) :
    memWrite s a w v = .error (.memoryError s.report x) := by
  simp [memWrite, admission_error h]

theorem memWrite_eq_ok {s t : State} {a v : Word} {w : Width} :
    memWrite s a w v = .ok t ↔
      (addresses a w.bytes).find? (refuses s.cfg .write) = none ∧ writeBytes s (storeList a w v) = .ok t := by
  unfold memWrite
  rw [except_bind_eq_ok]
  constructor
  · rintro ⟨u, h1, h2⟩; exact ⟨admission_ok.mp h1, h2⟩
  · rintro ⟨h1, h2⟩; exact ⟨(), admission_ok.mpr h1, h2⟩

/-- A write faults exactly when a byte is refused. -/
theorem memWrite_eq_error {s : State} {a v : Word} {w : Width} {f : Fault} :
    memWrite s a w v = .error f ↔
      ∃ x, (addresses a w.bytes).find? (refuses s.cfg .write) = some x ∧ f = .memoryError s.report x := by
  cases h : (addresses a w.bytes).find? (refuses s.cfg .write) with
  | none =>
    obtain ⟨t, ht⟩ := memWrite_admitted v h
    simp [ht]
  | some x => simp [memWrite_refused h, eq_comm]

/-- A write to RAM changes its bytes alone. -/
theorem memWrite_ram {s : State} {a : Word} {w : Width} (v : Word) (h : InRam s.cfg a w.bytes) :
    memWrite s a w v =
      .ok { s with mem := (storeList a w v).foldl (fun m p => m.write p.1.toNat p.2) s.mem } := by
  refine memWrite_eq_ok.mpr ⟨inRam_admitted h .write, writeBytes_ram ?_⟩
  intro p hp
  have : p.1 ∈ addresses a w.bytes := map_fst_storeList a w v ▸ List.mem_map_of_mem hp
  obtain ⟨i, hi, e⟩ := mem_addresses.mp this
  exact e ▸ h i hi

/-! ## The bytes a list of RAM writes leaves -/

theorem foldl_write_wf {m : Memory} (hm : Memory.WF m) (l : List (Word × Byte)) :
    Memory.WF (l.foldl (fun m p => m.write p.1.toNat p.2) m) := by
  induction l generalizing m with
  | nil => exact hm
  | cons p l ih => exact ih (Memory.write_wf hm _ _)

theorem foldl_write_other {m : Memory} (l : List (Word × Byte)) {x : Nat} (hx : ∀ p ∈ l, x ≠ p.1.toNat) :
    (l.foldl (fun m p => m.write p.1.toNat p.2) m).read x = m.read x := by
  induction l generalizing m with
  | nil => rfl
  | cons p l ih =>
    rw [List.foldl_cons, ih (fun q hq => hx q (by simp [hq]))]
    exact Memory.read_write_ne _ _ (hx p (by simp))

theorem foldl_write_listed {m : Memory} (hm : Memory.WF m) {l : List (Word × Byte)} (hd : (l.map Prod.fst).Nodup)
    {p : Word × Byte} (hp : p ∈ l) : (l.foldl (fun m p => m.write p.1.toNat p.2) m).read p.1.toNat = p.2 := by
  induction l generalizing m with
  | nil => simp at hp
  | cons q l ih =>
    rw [List.map_cons, List.nodup_cons] at hd
    rw [List.foldl_cons]
    rcases List.mem_cons.mp hp with rfl | hp
    · rw [foldl_write_other l]
      · exact Memory.read_write_same hm _ _
      · intro r hr e
        exact hd.1 (List.mem_map.mpr ⟨r, hr, (BitVec.eq_of_toNat_eq e).symm⟩)
    · exact ih (Memory.write_wf hm _ _) hd.2 hp

/-- The byte addresses of one access are distinct. -/
theorem addresses_nodup (a : Word) (w : Width) : (addresses a w.bytes).Nodup := by
  have h : w.bytes ≤ 4 := by cases w <;> simp [Width.bytes]
  refine List.Nodup.map_on ?_ List.nodup_range
  intro i hi j hj e
  have hi := List.mem_range.mp hi
  have hj := List.mem_range.mp hj
  have ha := a.isLt
  have := congrArg BitVec.toNat e
  simp only [BitVec.toNat_add, BitVec.toNat_ofNat] at this
  omega

end Sys2Proof.Machine
end

