-- ==== Sys2Proof/Laws/Shapes.lean ====
section
/-! SUPPORT. What each shape of instruction does: it completes with a named effect when its registers are enabled and its
own check passes, and faults in the order of 60_exceptions.md R292 otherwise. -/

namespace Sys2Proof.Machine

/-! ## Enabled registers -/

theorem enabled_cons {s : State} {r : Reg} {rs : List Reg} :
    Enabled s (r :: rs) ↔ s.tag r ≠ .disabled ∧ Enabled s rs := by simp [Enabled]

@[simp] theorem enabled_nil (s : State) : Enabled s [] := by simp [Enabled]

/-- Marking an enabled register as read leaves the same registers enabled. -/
theorem setTag_read_tag_ne {s : State} {i r : Reg} (h : s.tag r ≠ .disabled) :
    (s.setTag i .read).tag r ≠ .disabled := by
  rw [setTag_tag]; split <;> simp [h]

/-- Marking an enabled register as read enables no other. -/
theorem setTag_read_tag_eq {s : State} {i r : Reg} (hi : s.tag i ≠ .disabled) :
    (s.setTag i .read).tag r = .disabled ↔ s.tag r = .disabled := by
  rw [setTag_tag]
  split
  · rename_i e; subst e; simp [hi]
  · rfl

/-! ## Writing the result and advancing -/

/-- The end of every instruction that writes a register: with `s` the state before the instruction and `u` the state after
its reads, which differs in tags alone. -/
theorem writesReg_of_write {rs : List Reg} {d : Reg} {v : Word} {s u t : State}
    (hu : u = { s with tags := u.tags }) (ht : ∀ r, u.tag r = if r ∈ rs then .read else s.tag r)
    (hw : writeReg u d v = .ok t) : WritesReg rs d v s (.next (advance t)) := by
  obtain ⟨-, e, hr, htn, htd, -⟩ := writeReg_eq_ok hw
  have hreg : ∀ r, u.reg r = s.reg r := fun r => reg_congr (by rw [hu]) r
  refine ⟨advance t, rfl, by simp [hr], fun r h => by simp [hr, h, hreg], ?_, ?_, ?_⟩
  · rw [advance_pc, e, hu]
  · exact sameWorld_of_eq (by rw [e, hu]; rfl)
  · intro r
    by_cases h : d = r
    · subst h
      rw [if_pos rfl, advance_tag]
      rcases htd with h | ⟨h0, h⟩
      · exact .inl h
      · exact .inr ⟨h0, by rw [h, ht]⟩
    · simp only [Option.some.injEq, h, if_false, advance_tag]
      rw [htn r (Ne.symm h), ht]

theorem tag_after_reads (s : State) (rA rB r : Reg) :
    ((s.setTag rA .read).setTag rB .read).tag r = if r ∈ [rA, rB] then .read else s.tag r := by
  by_cases h1 : r = rA <;> by_cases h2 : r = rB <;> simp [setTag_tag, h1, h2]

theorem tag_after_read (s : State) (rA r : Reg) :
    (s.setTag rA .read).tag r = if r ∈ [rA] then .read else s.tag r := by
  by_cases h1 : r = rA <;> simp [setTag_tag, h1]

/-! ## Two sources -/

theorem twoSourceChecked_result {f : State → Word → Word → Except Fault Word} {d rA rB : Reg} {s : State} {v : Word}
    (h : Enabled s [rA, rB, d]) (hv : f ((s.setTag rA .read).setTag rB .read) (s.reg rA) (s.reg rB) = .ok v) :
    WritesReg [rA, rB] d v s (twoSourceChecked f d rA rB s) := by
  obtain ⟨hA, hB, hD, -⟩ : _ ∧ _ ∧ _ ∧ True := by simpa [Enabled] using h
  obtain ⟨t, ht⟩ := writeReg_enabled v (setTag_read_tag_ne (i := rB) (setTag_read_tag_ne (i := rA) hD))
  have : twoSourceChecked f d rA rB s = .next (advance t) := by
    simp [twoSourceChecked, readReg_enabled hA, readReg_enabled (setTag_read_tag_ne (i := rA) hB), hv, ht]
  rw [this]
  exact writesReg_of_write rfl (tag_after_reads s rA rB) ht

theorem twoSourceChecked_fault {f : State → Word → Word → Except Fault Word} {d rA rB : Reg} {s : State} {e : Fault}
    (h : Enabled s [rA, rB]) (hv : f ((s.setTag rA .read).setTag rB .read) (s.reg rA) (s.reg rB) = .error e) :
    twoSourceChecked f d rA rB s = .fault e := by
  obtain ⟨hA, hB, -⟩ : _ ∧ _ ∧ True := by simpa [Enabled] using h
  simp [twoSourceChecked, readReg_enabled hA, readReg_enabled (setTag_read_tag_ne (i := rA) hB), hv]

theorem twoSource_result (f : Word → Word → Word) {d rA rB : Reg} {s : State} (h : Enabled s [rA, rB, d]) :
    WritesReg [rA, rB] d (f (s.reg rA) (s.reg rB)) s (twoSource f d rA rB s) :=
  twoSourceChecked_result h rfl

/-! ## One source -/

theorem oneSourceChecked_result {f : State → Word → Except Fault Word} {d rA : Reg} {s : State} {v : Word}
    (h : Enabled s [rA, d]) (hv : f (s.setTag rA .read) (s.reg rA) = .ok v) :
    WritesReg [rA] d v s (oneSourceChecked f d rA s) := by
  obtain ⟨hA, hD, -⟩ : _ ∧ _ ∧ True := by simpa [Enabled] using h
  obtain ⟨t, ht⟩ := writeReg_enabled v (setTag_read_tag_ne (i := rA) hD)
  have : oneSourceChecked f d rA s = .next (advance t) := by
    simp [oneSourceChecked, readReg_enabled hA, hv, ht]
  rw [this]
  exact writesReg_of_write rfl (tag_after_read s rA) ht

theorem oneSourceChecked_fault {f : State → Word → Except Fault Word} {d rA : Reg} {s : State} {e : Fault}
    (h : Enabled s [rA]) (hv : f (s.setTag rA .read) (s.reg rA) = .error e) :
    oneSourceChecked f d rA s = .fault e := by
  obtain ⟨hA, -⟩ : _ ∧ True := by simpa [Enabled] using h
  simp [oneSourceChecked, readReg_enabled hA, hv]

theorem oneSource_result (f : Word → Word) {d rA : Reg} {s : State} (h : Enabled s [rA, d]) :
    WritesReg [rA] d (f (s.reg rA)) s (oneSource f d rA s) :=
  oneSourceChecked_result h rfl

/-! ## Loads and stores -/

/-- A load from RAM. -/
theorem loadForm_ram {w : Width} {ext : Width → Word → Word} {rB rA : Reg} {imm16 : Imm16} {s : State}
    (h : Enabled s [rA, rB]) (hm : InRam s.cfg (effectiveAddress (s.reg rA) imm16) w.bytes) :
    WritesReg [rA] rB
      (ext w (littleEndian ((addresses (effectiveAddress (s.reg rA) imm16) w.bytes).map (fun x => s.mem.read x.toNat))))
      s (loadForm w ext rB imm16 rA s) := by
  obtain ⟨hA, hB, -⟩ : _ ∧ _ ∧ True := by simpa [Enabled] using h
  have hr := memRead_ram (s := s.setTag rA .read) hm
  obtain ⟨t, ht⟩ := writeReg_enabled (ext w (littleEndian
    ((addresses (effectiveAddress (s.reg rA) imm16) w.bytes).map (fun x => s.mem.read x.toNat))))
    (setTag_read_tag_ne (i := rA) hB)
  have : loadForm w ext rB imm16 rA s = .next (advance t) := by
    simp only [loadForm, readReg_enabled hA, hr, except_bind_ok, setTag_mem, ht, except_pure, conclude_ok]
  rw [this]
  exact writesReg_of_write rfl (tag_after_read s rA) ht

/-- A store to RAM. -/
theorem storeForm_ram {w : Width} {rB rA : Reg} {imm16 : Imm16} {s : State}
    (h : Enabled s [rA, rB]) (hm : InRam s.cfg (effectiveAddress (s.reg rA) imm16) w.bytes) :
    storeForm w rB imm16 rA s = .next (advance { (s.setTag rA .read).setTag rB .read with
      mem := (storeList (effectiveAddress (s.reg rA) imm16) w (s.reg rB)).foldl
        (fun m p => m.write p.1.toNat p.2) s.mem }) := by
  obtain ⟨hA, hB, -⟩ : _ ∧ _ ∧ True := by simpa [Enabled] using h
  simp [storeForm, readReg_enabled hA, readReg_enabled (setTag_read_tag_ne (i := rA) hB),
    memWrite_ram (s := (s.setTag rA .read).setTag rB .read) _ hm]

/-! ## Transfers -/

theorem goesTo_of_tags {rs : List Reg} {s u : State} (target : Word) (hu : u = { s with tags := u.tags })
    (ht : ∀ r, u.tag r = if r ∈ rs then .read else s.tag r) : GoesTo rs target s (.next { u with pc := target }) := by
  refine ⟨_, rfl, rfl, fun r => reg_congr (by rw [hu]) r, sameWorld_of_eq (by rw [hu]), fun r => ?_⟩
  rw [if_neg (by simp)]; exact ht r

theorem branchIf_taken {c : Word → Word → Bool} {rA rB : Reg} {imm16 : Imm16} {s : State} (h : Enabled s [rA, rB])
    (hc : c (s.reg rA) (s.reg rB) = true) (ht : (branchTarget s.pc imm16).toNat % 4 = 0) :
    GoesTo [rA, rB] (branchTarget s.pc imm16) s (branchIf c rA rB imm16 s) := by
  obtain ⟨hA, hB, -⟩ : _ ∧ _ ∧ True := by simpa [Enabled] using h
  have : branchIf c rA rB imm16 s = .next { (s.setTag rA .read).setTag rB .read with pc := branchTarget s.pc imm16 } := by
    simp [branchIf, readReg_enabled hA, readReg_enabled (setTag_read_tag_ne (i := rA) hB), hc, transfer_aligned ht]
  rw [this]
  exact goesTo_of_tags _ rfl (tag_after_reads s rA rB)

theorem branchIf_misaligned {c : Word → Word → Bool} {rA rB : Reg} {imm16 : Imm16} {s : State} (h : Enabled s [rA, rB])
    (hc : c (s.reg rA) (s.reg rB) = true) (ht : (branchTarget s.pc imm16).toNat % 4 ≠ 0) :
    branchIf c rA rB imm16 s =
      .fault (.misalignedPC ((s.setTag rA .read).setTag rB .read).report (branchTarget s.pc imm16)) := by
  obtain ⟨hA, hB, -⟩ : _ ∧ _ ∧ True := by simpa [Enabled] using h
  simp [branchIf, readReg_enabled hA, readReg_enabled (setTag_read_tag_ne (i := rA) hB), hc, transfer_misaligned ht]

theorem branchIf_not_taken {c : Word → Word → Bool} {rA rB : Reg} {imm16 : Imm16} {s : State} (h : Enabled s [rA, rB])
    (hc : c (s.reg rA) (s.reg rB) = false) : GoesTo [rA, rB] (s.pc + 4#32) s (branchIf c rA rB imm16 s) := by
  obtain ⟨hA, hB, -⟩ : _ ∧ _ ∧ True := by simpa [Enabled] using h
  have : branchIf c rA rB imm16 s = .next { (s.setTag rA .read).setTag rB .read with pc := s.pc + 4#32 } := by
    simp only [branchIf, readReg_enabled hA, readReg_enabled (setTag_read_tag_ne (i := rA) hB), except_bind_ok,
      setTag_reg, hc]
    rfl
  rw [this]
  exact goesTo_of_tags _ rfl (tag_after_reads s rA rB)

theorem jumpRegister_aligned {r : Reg} {s : State} (h : Enabled s [r]) (ht : (s.reg r).toNat % 4 = 0) :
    GoesTo [r] (s.reg r) s (jumpRegister r s) := by
  obtain ⟨hA, -⟩ : _ ∧ True := by simpa [Enabled] using h
  have : jumpRegister r s = .next { s.setTag r .read with pc := s.reg r } := by
    simp [jumpRegister, readReg_enabled hA, transfer_aligned ht]
  rw [this]
  exact goesTo_of_tags _ rfl (tag_after_read s r)

theorem jumpRegister_misaligned {r : Reg} {s : State} (h : Enabled s [r]) (ht : (s.reg r).toNat % 4 ≠ 0) :
    jumpRegister r s = .fault (.misalignedPC (s.setTag r .read).report (s.reg r)) := by
  obtain ⟨hA, -⟩ : _ ∧ True := by simpa [Enabled] using h
  simp [jumpRegister, readReg_enabled hA, transfer_misaligned ht]

/-- A call, from the state `u` after its reads. -/
theorem linkAndTransfer_result {rs : List Reg} {s u : State} {t : Word} (hu : u = { s with tags := u.tags })
    (ht : ∀ r, u.tag r = if r ∈ rs then .read else s.tag r) (h31 : u.tag 31#5 ≠ .disabled) (ha : t.toNat % 4 = 0) :
    CallsTo rs t s (conclude (linkAndTransfer u t)) := by
  obtain ⟨v, hv⟩ := writeReg_enabled (s := u) (i := linkReg) (u.pc + 4#32) h31
  obtain ⟨-, e, hr, htn, htd, -⟩ := writeReg_eq_ok hv
  have : conclude (linkAndTransfer u t) = .next { v with pc := t } := by
    simp [linkAndTransfer, checkTarget_aligned ha, hv]
  rw [this]
  have hpc : u.pc = s.pc := by rw [hu]
  refine ⟨_, rfl, rfl, ?_, fun r h => ?_, sameWorld_of_eq (by rw [e, hu]), fun r => ?_⟩
  · show v.reg 31#5 = _
    rw [hr]; simp [linkReg, hpc]
  · show v.reg r = _
    rw [hr, if_neg (show r ≠ linkReg from h)]; exact reg_congr (by rw [hu]) r
  · show if some 31#5 = some r then v.tag r = _ ∨ (r = 0#5 ∧ v.tag r = _) else v.tag r = _
    by_cases h : (31#5 : Reg) = r
    · subst h
      rw [if_pos rfl]
      rcases htd with h | ⟨h0, -⟩
      · exact .inl h
      · exact absurd h0 (by decide)
    · rw [if_neg (by simpa using h), htn r (Ne.symm h), ht]

theorem linkAndTransfer_misaligned {u : State} {t : Word} (h : t.toNat % 4 ≠ 0) :
    linkAndTransfer u t = .error (.misalignedPC u.report t) := by
  simp [linkAndTransfer, checkTarget_misaligned h]

/-- A J-format target is a multiple of 4 (44_control_transfer.md R228). -/
theorem jumpTarget_aligned (cfg : Config) (pc : Word) (imm26 : Imm26) : (jumpTarget cfg pc imm26).toNat % 4 = 0 := by
  unfold jumpTarget
  rw [BitVec.toNat_append]
  simp [Nat.shiftLeft_eq]

end Sys2Proof.Machine
end

