-- ==== Sys2Proof/Laws/Inversion.lean ====
section
/-! SUPPORT. One lemma per instruction shape that says everything it can do: if it answers a next state, which registers
were enabled and how that state comes about; if it faults, which of its stages faulted; and it never refuses. -/

namespace Sys2Proof.Machine

/-! ## Next states -/

theorem twoSourceChecked_next {f : State → Word → Word → Except Fault Word} {d rA rB : Reg} {s t : State}
    (h : twoSourceChecked f d rA rB s = .next t) :
    Enabled s [rA, rB, d] ∧ ∃ v u, f ((s.setTag rA .read).setTag rB .read) (s.reg rA) (s.reg rB) = .ok v ∧
      writeReg ((s.setTag rA .read).setTag rB .read) d v = .ok u ∧ t = advance u := by
  obtain ⟨p, h1, h⟩ := except_bind_eq_ok.mp (conclude_eq_next.mp h)
  obtain ⟨hA, rfl⟩ := readReg_eq_ok.mp h1
  obtain ⟨q, h2, h⟩ := except_bind_eq_ok.mp h
  obtain ⟨hB, rfl⟩ := readReg_eq_ok.mp h2
  obtain ⟨v, h3, h⟩ := except_bind_eq_ok.mp h
  obtain ⟨u, h4, h⟩ := except_bind_eq_ok.mp h
  obtain ⟨hD, -⟩ := writeReg_eq_ok h4
  have hB' : s.tag rB ≠ .disabled := fun e => hB ((setTag_read_tag_eq hA).mpr e)
  refine ⟨?_, v, u, h3, h4, (Except.ok.inj h).symm⟩
  simp only [enabled_cons, enabled_nil, and_true]
  exact ⟨hA, hB', fun e => hD ((setTag_read_tag_eq hB).mpr ((setTag_read_tag_eq hA).mpr e))⟩

theorem oneSourceChecked_next {f : State → Word → Except Fault Word} {d rA : Reg} {s t : State}
    (h : oneSourceChecked f d rA s = .next t) :
    Enabled s [rA, d] ∧ ∃ v u, f (s.setTag rA .read) (s.reg rA) = .ok v ∧
      writeReg (s.setTag rA .read) d v = .ok u ∧ t = advance u := by
  obtain ⟨p, h1, h⟩ := except_bind_eq_ok.mp (conclude_eq_next.mp h)
  obtain ⟨hA, rfl⟩ := readReg_eq_ok.mp h1
  obtain ⟨v, h2, h⟩ := except_bind_eq_ok.mp h
  obtain ⟨u, h3, h⟩ := except_bind_eq_ok.mp h
  obtain ⟨hD, -⟩ := writeReg_eq_ok h3
  refine ⟨?_, v, u, h2, h3, (Except.ok.inj h).symm⟩
  simp only [enabled_cons, enabled_nil, and_true]
  exact ⟨hA, fun e => hD ((setTag_read_tag_eq hA).mpr e)⟩

theorem loadForm_next {w : Width} {ext : Width → Word → Word} {rB rA : Reg} {imm16 : Imm16} {s t : State}
    (h : loadForm w ext rB imm16 rA s = .next t) :
    Enabled s [rA, rB] ∧ ∃ v m u, memRead (s.setTag rA .read) (effectiveAddress (s.reg rA) imm16) w = .ok (v, m) ∧
      writeReg m rB (ext w v) = .ok u ∧ t = advance u := by
  obtain ⟨p, h1, h⟩ := except_bind_eq_ok.mp (conclude_eq_next.mp h)
  obtain ⟨hA, rfl⟩ := readReg_eq_ok.mp h1
  obtain ⟨⟨v, m⟩, h2, h⟩ := except_bind_eq_ok.mp h
  obtain ⟨u, h3, h⟩ := except_bind_eq_ok.mp h
  obtain ⟨hD, -⟩ := writeReg_eq_ok h3
  obtain ⟨-, hm, -⟩ := memRead_eq_ok h2
  have htag : m.tag rB = (s.setTag rA .read).tag rB := tag_congr (by rw [hm]) rB
  refine ⟨?_, v, m, u, h2, h3, (Except.ok.inj h).symm⟩
  simp only [enabled_cons, enabled_nil, and_true]
  exact ⟨hA, fun e => hD (htag.trans ((setTag_read_tag_eq hA).mpr e))⟩

theorem storeForm_next {w : Width} {rB rA : Reg} {imm16 : Imm16} {s t : State}
    (h : storeForm w rB imm16 rA s = .next t) :
    Enabled s [rA, rB] ∧ ∃ m, memWrite ((s.setTag rA .read).setTag rB .read) (effectiveAddress (s.reg rA) imm16) w
      (s.reg rB) = .ok m ∧ t = advance m := by
  obtain ⟨p, h1, h⟩ := except_bind_eq_ok.mp (conclude_eq_next.mp h)
  obtain ⟨hA, rfl⟩ := readReg_eq_ok.mp h1
  obtain ⟨q, h2, h⟩ := except_bind_eq_ok.mp h
  obtain ⟨hB, rfl⟩ := readReg_eq_ok.mp h2
  obtain ⟨m, h3, h⟩ := except_bind_eq_ok.mp h
  refine ⟨?_, m, h3, (Except.ok.inj h).symm⟩
  simp only [enabled_cons, enabled_nil, and_true]
  exact ⟨hA, fun e => hB ((setTag_read_tag_eq hA).mpr e)⟩

theorem branchIf_next {c : Word → Word → Bool} {rA rB : Reg} {imm16 : Imm16} {s t : State}
    (h : branchIf c rA rB imm16 s = .next t) :
    Enabled s [rA, rB] ∧
      ((c (s.reg rA) (s.reg rB) = true ∧ (branchTarget s.pc imm16).toNat % 4 = 0 ∧
        t = { (s.setTag rA .read).setTag rB .read with pc := branchTarget s.pc imm16 }) ∨
      (c (s.reg rA) (s.reg rB) = false ∧ t = advance ((s.setTag rA .read).setTag rB .read))) := by
  obtain ⟨p, h1, h⟩ := except_bind_eq_ok.mp (conclude_eq_next.mp h)
  obtain ⟨hA, rfl⟩ := readReg_eq_ok.mp h1
  obtain ⟨q, h2, h⟩ := except_bind_eq_ok.mp h
  obtain ⟨hB, rfl⟩ := readReg_eq_ok.mp h2
  refine ⟨?_, ?_⟩
  · simp only [enabled_cons, enabled_nil, and_true]
    exact ⟨hA, fun e => hB ((setTag_read_tag_eq hA).mpr e)⟩
  · cases hc : c (s.reg rA) (s.reg rB) with
    | true =>
      simp only [setTag_reg, hc, if_true] at h
      obtain ⟨ha, e⟩ := transfer_eq_ok.mp h
      exact .inl ⟨rfl, ha, e⟩
    | false =>
      simp only [setTag_reg, hc, Bool.false_eq_true, if_false] at h
      exact .inr ⟨rfl, (Except.ok.inj h).symm⟩

theorem jumpRegister_next {r : Reg} {s t : State} (h : jumpRegister r s = .next t) :
    Enabled s [r] ∧ (s.reg r).toNat % 4 = 0 ∧ t = { s.setTag r .read with pc := s.reg r } := by
  obtain ⟨p, h1, h⟩ := except_bind_eq_ok.mp (conclude_eq_next.mp h)
  obtain ⟨hA, rfl⟩ := readReg_eq_ok.mp h1
  obtain ⟨ha, e⟩ := transfer_eq_ok.mp h
  exact ⟨by simpa only [enabled_cons, enabled_nil, and_true] using hA, ha, e⟩

theorem linkAndTransfer_eq_ok {s t : State} {a : Word} (h : linkAndTransfer s a = .ok t) :
    a.toNat % 4 = 0 ∧ ∃ u, writeReg s linkReg (s.pc + 4#32) = .ok u ∧ t = { u with pc := a } := by
  obtain ⟨_, h1, h⟩ := except_bind_eq_ok.mp h
  obtain ⟨u, h2, h⟩ := except_bind_eq_ok.mp h
  refine ⟨?_, u, h2, (Except.ok.inj h).symm⟩
  by_contra ha
  rw [checkTarget_misaligned ha] at h1
  cases h1

/-! ## Faults -/

theorem twoSourceChecked_eq_fault {f : State → Word → Word → Except Fault Word} {d rA rB : Reg} {s : State} {e : Fault}
    (h : twoSourceChecked f d rA rB s = .fault e) :
    (s.tag rA = .disabled ∧ e = .registerError s.report rA) ∨
    (s.tag rA ≠ .disabled ∧ s.tag rB = .disabled ∧ e = .registerError (s.setTag rA .read).report rB) ∨
    (Enabled s [rA, rB] ∧ f ((s.setTag rA .read).setTag rB .read) (s.reg rA) (s.reg rB) = .error e) ∨
    (Enabled s [rA, rB] ∧ (∃ v, f ((s.setTag rA .read).setTag rB .read) (s.reg rA) (s.reg rB) = .ok v) ∧
      s.tag d = .disabled ∧ e = .registerError ((s.setTag rA .read).setTag rB .read).report d) := by
  rcases except_bind_eq_error.mp (conclude_eq_fault.mp h) with h | ⟨p, h1, h⟩
  · exact .inl (readReg_eq_error.mp h)
  obtain ⟨hA, rfl⟩ := readReg_eq_ok.mp h1
  rcases except_bind_eq_error.mp h with h | ⟨q, h2, h⟩
  · obtain ⟨hB, rfl⟩ := readReg_eq_error.mp h
    exact .inr (.inl ⟨hA, (setTag_read_tag_eq hA).mp hB, rfl⟩)
  obtain ⟨hB, rfl⟩ := readReg_eq_ok.mp h2
  have hE : Enabled s [rA, rB] := by
    simp only [enabled_cons, enabled_nil, and_true]
    exact ⟨hA, fun e => hB ((setTag_read_tag_eq hA).mpr e)⟩
  rcases except_bind_eq_error.mp h with h | ⟨v, h3, h⟩
  · exact .inr (.inr (.inl ⟨hE, h⟩))
  rcases except_bind_eq_error.mp h with h | ⟨u, -, h⟩
  · obtain ⟨hD, rfl⟩ := writeReg_eq_error.mp h
    exact .inr (.inr (.inr ⟨hE, ⟨v, h3⟩, (setTag_read_tag_eq hA).mp ((setTag_read_tag_eq hB).mp hD), rfl⟩))
  · cases h

theorem oneSourceChecked_eq_fault {f : State → Word → Except Fault Word} {d rA : Reg} {s : State} {e : Fault}
    (h : oneSourceChecked f d rA s = .fault e) :
    (s.tag rA = .disabled ∧ e = .registerError s.report rA) ∨
    (Enabled s [rA] ∧ f (s.setTag rA .read) (s.reg rA) = .error e) ∨
    (Enabled s [rA] ∧ (∃ v, f (s.setTag rA .read) (s.reg rA) = .ok v) ∧ s.tag d = .disabled ∧
      e = .registerError (s.setTag rA .read).report d) := by
  rcases except_bind_eq_error.mp (conclude_eq_fault.mp h) with h | ⟨p, h1, h⟩
  · exact .inl (readReg_eq_error.mp h)
  obtain ⟨hA, rfl⟩ := readReg_eq_ok.mp h1
  have hE : Enabled s [rA] := by simpa only [enabled_cons, enabled_nil, and_true] using hA
  rcases except_bind_eq_error.mp h with h | ⟨v, h2, h⟩
  · exact .inr (.inl ⟨hE, h⟩)
  rcases except_bind_eq_error.mp h with h | ⟨u, -, h⟩
  · obtain ⟨hD, rfl⟩ := writeReg_eq_error.mp h
    exact .inr (.inr ⟨hE, ⟨v, h2⟩, (setTag_read_tag_eq hA).mp hD, rfl⟩)
  · cases h

/-! ## No refusals -/

theorem twoSourceChecked_ne_refused {f : State → Word → Word → Except Fault Word} {d rA rB : Reg} {s : State}
    {r : Refusal} : twoSourceChecked f d rA rB s ≠ .refused r := conclude_ne_refused

theorem oneSourceChecked_ne_refused {f : State → Word → Except Fault Word} {d rA : Reg} {s : State} {r : Refusal} :
    oneSourceChecked f d rA s ≠ .refused r := conclude_ne_refused

theorem loadForm_ne_refused {w : Width} {ext : Width → Word → Word} {rB rA : Reg} {imm16 : Imm16} {s : State}
    {r : Refusal} : loadForm w ext rB imm16 rA s ≠ .refused r := conclude_ne_refused

theorem storeForm_ne_refused {w : Width} {rB rA : Reg} {imm16 : Imm16} {s : State} {r : Refusal} :
    storeForm w rB imm16 rA s ≠ .refused r := conclude_ne_refused

theorem branchIf_ne_refused {c : Word → Word → Bool} {rA rB : Reg} {imm16 : Imm16} {s : State} {r : Refusal} :
    branchIf c rA rB imm16 s ≠ .refused r := conclude_ne_refused

theorem jumpRegister_ne_refused {r : Reg} {s : State} {x : Refusal} : jumpRegister r s ≠ .refused x :=
  conclude_ne_refused

end Sys2Proof.Machine
end

