-- ==== Sys2Proof/Laws/Exec.lean ====
section
/-! SUPPORT. The meaning of each instruction as its shape over its operation: one equation per constructor, so that a proof
cites the lemma of the shape without unfolding `exec`. -/

namespace Sys2Proof.Machine

@[simp] theorem exec_add (rC rA rB : Reg) (s : State) :
    exec (.add rC rA rB) s = twoSource (fun a b => a + b) rC rA rB s := rfl
@[simp] theorem exec_addi (rB rA : Reg) (imm16 : Imm16) (s : State) :
    exec (.addi rB rA imm16) s = oneSource (fun a => a + signedImm imm16) rB rA s := rfl
@[simp] theorem exec_sub (rC rA rB : Reg) (s : State) :
    exec (.sub rC rA rB) s = twoSource (fun a b => a - b) rC rA rB s := rfl
@[simp] theorem exec_mul (rC rA rB : Reg) (s : State) :
    exec (.mul rC rA rB) s = twoSource (fun a b => a * b) rC rA rB s := rfl
@[simp] theorem exec_muli (rB rA : Reg) (imm16 : Imm16) (s : State) :
    exec (.muli rB rA imm16) s = oneSource (fun a => a * signedImm imm16) rB rA s := rfl
@[simp] theorem exec_mulxss (rC rA rB : Reg) (s : State) :
    exec (.mulxss rC rA rB) s = twoSource (fun a b => highProduct a.toInt b.toInt) rC rA rB s := rfl
@[simp] theorem exec_mulxsu (rC rA rB : Reg) (s : State) :
    exec (.mulxsu rC rA rB) s = twoSource (fun a b => highProduct a.toInt b.toNat) rC rA rB s := rfl
@[simp] theorem exec_mulxuu (rC rA rB : Reg) (s : State) :
    exec (.mulxuu rC rA rB) s = twoSource (fun a b => highProduct a.toNat b.toNat) rC rA rB s := rfl
@[simp] theorem exec_div (rC rA rB : Reg) (s : State) :
    exec (.div rC rA rB) s = twoSourceChecked signedQuotient rC rA rB s := rfl
@[simp] theorem exec_divu (rC rA rB : Reg) (s : State) :
    exec (.divu rC rA rB) s = twoSourceChecked unsignedQuotient rC rA rB s := rfl
@[simp] theorem exec_and (rC rA rB : Reg) (s : State) :
    exec (.and rC rA rB) s = twoSource (fun a b => a &&& b) rC rA rB s := rfl
@[simp] theorem exec_andi (rB rA : Reg) (imm16 : Imm16) (s : State) :
    exec (.andi rB rA imm16) s = oneSource (fun a => a &&& unsignedImm imm16) rB rA s := rfl
@[simp] theorem exec_andhi (rB rA : Reg) (imm16 : Imm16) (s : State) :
    exec (.andhi rB rA imm16) s = oneSource (fun a => a &&& highImm imm16) rB rA s := rfl
@[simp] theorem exec_or (rC rA rB : Reg) (s : State) :
    exec (.or rC rA rB) s = twoSource (fun a b => a ||| b) rC rA rB s := rfl
@[simp] theorem exec_ori (rB rA : Reg) (imm16 : Imm16) (s : State) :
    exec (.ori rB rA imm16) s = oneSource (fun a => a ||| unsignedImm imm16) rB rA s := rfl
@[simp] theorem exec_orhi (rB rA : Reg) (imm16 : Imm16) (s : State) :
    exec (.orhi rB rA imm16) s = oneSource (fun a => a ||| highImm imm16) rB rA s := rfl
@[simp] theorem exec_xor (rC rA rB : Reg) (s : State) :
    exec (.xor rC rA rB) s = twoSource (fun a b => a ^^^ b) rC rA rB s := rfl
@[simp] theorem exec_xori (rB rA : Reg) (imm16 : Imm16) (s : State) :
    exec (.xori rB rA imm16) s = oneSource (fun a => a ^^^ unsignedImm imm16) rB rA s := rfl
@[simp] theorem exec_xorhi (rB rA : Reg) (imm16 : Imm16) (s : State) :
    exec (.xorhi rB rA imm16) s = oneSource (fun a => a ^^^ highImm imm16) rB rA s := rfl
@[simp] theorem exec_nor (rC rA rB : Reg) (s : State) :
    exec (.nor rC rA rB) s = twoSource (fun a b => ~~~(a ||| b)) rC rA rB s := rfl
@[simp] theorem exec_cmpeq (rC rA rB : Reg) (s : State) :
    exec (.cmpeq rC rA rB) s = twoSource (fun a b => flagWord (eqWord a b)) rC rA rB s := rfl
@[simp] theorem exec_cmpne (rC rA rB : Reg) (s : State) :
    exec (.cmpne rC rA rB) s = twoSource (fun a b => flagWord (neWord a b)) rC rA rB s := rfl
@[simp] theorem exec_cmpge (rC rA rB : Reg) (s : State) :
    exec (.cmpge rC rA rB) s = twoSource (fun a b => flagWord (geSigned a b)) rC rA rB s := rfl
@[simp] theorem exec_cmpgeu (rC rA rB : Reg) (s : State) :
    exec (.cmpgeu rC rA rB) s = twoSource (fun a b => flagWord (geUnsigned a b)) rC rA rB s := rfl
@[simp] theorem exec_cmplt (rC rA rB : Reg) (s : State) :
    exec (.cmplt rC rA rB) s = twoSource (fun a b => flagWord (ltSigned a b)) rC rA rB s := rfl
@[simp] theorem exec_cmpltu (rC rA rB : Reg) (s : State) :
    exec (.cmpltu rC rA rB) s = twoSource (fun a b => flagWord (ltUnsigned a b)) rC rA rB s := rfl
@[simp] theorem exec_cmpeqi (rB rA : Reg) (imm16 : Imm16) (s : State) :
    exec (.cmpeqi rB rA imm16) s = oneSource (fun a => flagWord (eqWord a (signedImm imm16))) rB rA s := rfl
@[simp] theorem exec_cmpnei (rB rA : Reg) (imm16 : Imm16) (s : State) :
    exec (.cmpnei rB rA imm16) s = oneSource (fun a => flagWord (neWord a (signedImm imm16))) rB rA s := rfl
@[simp] theorem exec_cmpgei (rB rA : Reg) (imm16 : Imm16) (s : State) :
    exec (.cmpgei rB rA imm16) s = oneSource (fun a => flagWord (geSigned a (signedImm imm16))) rB rA s := rfl
@[simp] theorem exec_cmpgeui (rB rA : Reg) (imm16 : Imm16) (s : State) :
    exec (.cmpgeui rB rA imm16) s = oneSource (fun a => flagWord (geUnsigned a (unsignedImm imm16))) rB rA s := rfl
@[simp] theorem exec_cmplti (rB rA : Reg) (imm16 : Imm16) (s : State) :
    exec (.cmplti rB rA imm16) s = oneSource (fun a => flagWord (ltSigned a (signedImm imm16))) rB rA s := rfl
@[simp] theorem exec_cmpltui (rB rA : Reg) (imm16 : Imm16) (s : State) :
    exec (.cmpltui rB rA imm16) s = oneSource (fun a => flagWord (ltUnsigned a (unsignedImm imm16))) rB rA s := rfl
@[simp] theorem exec_sll (rC rA rB : Reg) (s : State) :
    exec (.sll rC rA rB) s = twoSource (fun a b => shiftLeft a (registerCount b)) rC rA rB s := rfl
@[simp] theorem exec_slli (rC rA : Reg) (imm5 : Imm5) (s : State) :
    exec (.slli rC rA imm5) s = oneSource (fun a => shiftLeft a (immediateCount imm5)) rC rA s := rfl
@[simp] theorem exec_srl (rC rA rB : Reg) (s : State) :
    exec (.srl rC rA rB) s = twoSource (fun a b => shiftRightLogical a (registerCount b)) rC rA rB s := rfl
@[simp] theorem exec_srli (rC rA : Reg) (imm5 : Imm5) (s : State) :
    exec (.srli rC rA imm5) s = oneSource (fun a => shiftRightLogical a (immediateCount imm5)) rC rA s := rfl
@[simp] theorem exec_sra (rC rA rB : Reg) (s : State) :
    exec (.sra rC rA rB) s = twoSource (fun a b => shiftRightArith a (registerCount b)) rC rA rB s := rfl
@[simp] theorem exec_srai (rC rA : Reg) (imm5 : Imm5) (s : State) :
    exec (.srai rC rA imm5) s = oneSource (fun a => shiftRightArith a (immediateCount imm5)) rC rA s := rfl
@[simp] theorem exec_rol (rC rA rB : Reg) (s : State) :
    exec (.rol rC rA rB) s = twoSource (fun a b => rotateLeft a (registerCount b)) rC rA rB s := rfl
@[simp] theorem exec_roli (rC rA : Reg) (imm5 : Imm5) (s : State) :
    exec (.roli rC rA imm5) s = oneSource (fun a => rotateLeft a (immediateCount imm5)) rC rA s := rfl
@[simp] theorem exec_ror (rC rA rB : Reg) (s : State) :
    exec (.ror rC rA rB) s = twoSource (fun a b => rotateRight a (registerCount b)) rC rA rB s := rfl
@[simp] theorem exec_ldw (rB : Reg) (imm16 : Imm16) (rA : Reg) (s : State) :
    exec (.ldw rB imm16 rA) s = loadForm .word zeroExtendFrom rB imm16 rA s := rfl
@[simp] theorem exec_ldh (rB : Reg) (imm16 : Imm16) (rA : Reg) (s : State) :
    exec (.ldh rB imm16 rA) s = loadForm .half signExtendFrom rB imm16 rA s := rfl
@[simp] theorem exec_ldhu (rB : Reg) (imm16 : Imm16) (rA : Reg) (s : State) :
    exec (.ldhu rB imm16 rA) s = loadForm .half zeroExtendFrom rB imm16 rA s := rfl
@[simp] theorem exec_ldb (rB : Reg) (imm16 : Imm16) (rA : Reg) (s : State) :
    exec (.ldb rB imm16 rA) s = loadForm .byte signExtendFrom rB imm16 rA s := rfl
@[simp] theorem exec_ldbu (rB : Reg) (imm16 : Imm16) (rA : Reg) (s : State) :
    exec (.ldbu rB imm16 rA) s = loadForm .byte zeroExtendFrom rB imm16 rA s := rfl
@[simp] theorem exec_stw (rB : Reg) (imm16 : Imm16) (rA : Reg) (s : State) :
    exec (.stw rB imm16 rA) s = storeForm .word rB imm16 rA s := rfl
@[simp] theorem exec_sth (rB : Reg) (imm16 : Imm16) (rA : Reg) (s : State) :
    exec (.sth rB imm16 rA) s = storeForm .half rB imm16 rA s := rfl
@[simp] theorem exec_stb (rB : Reg) (imm16 : Imm16) (rA : Reg) (s : State) :
    exec (.stb rB imm16 rA) s = storeForm .byte rB imm16 rA s := rfl
@[simp] theorem exec_ldwio (rB : Reg) (imm16 : Imm16) (rA : Reg) (s : State) :
    exec (.ldwio rB imm16 rA) s = loadForm .word zeroExtendFrom rB imm16 rA s := rfl
@[simp] theorem exec_ldhio (rB : Reg) (imm16 : Imm16) (rA : Reg) (s : State) :
    exec (.ldhio rB imm16 rA) s = loadForm .half signExtendFrom rB imm16 rA s := rfl
@[simp] theorem exec_ldhuio (rB : Reg) (imm16 : Imm16) (rA : Reg) (s : State) :
    exec (.ldhuio rB imm16 rA) s = loadForm .half zeroExtendFrom rB imm16 rA s := rfl
@[simp] theorem exec_ldbio (rB : Reg) (imm16 : Imm16) (rA : Reg) (s : State) :
    exec (.ldbio rB imm16 rA) s = loadForm .byte signExtendFrom rB imm16 rA s := rfl
@[simp] theorem exec_ldbuio (rB : Reg) (imm16 : Imm16) (rA : Reg) (s : State) :
    exec (.ldbuio rB imm16 rA) s = loadForm .byte zeroExtendFrom rB imm16 rA s := rfl
@[simp] theorem exec_stwio (rB : Reg) (imm16 : Imm16) (rA : Reg) (s : State) :
    exec (.stwio rB imm16 rA) s = storeForm .word rB imm16 rA s := rfl
@[simp] theorem exec_sthio (rB : Reg) (imm16 : Imm16) (rA : Reg) (s : State) :
    exec (.sthio rB imm16 rA) s = storeForm .half rB imm16 rA s := rfl
@[simp] theorem exec_stbio (rB : Reg) (imm16 : Imm16) (rA : Reg) (s : State) :
    exec (.stbio rB imm16 rA) s = storeForm .byte rB imm16 rA s := rfl
@[simp] theorem exec_br (imm16 : Imm16) (s : State) :
    exec (.br imm16) s = conclude (transfer s (branchTarget s.pc imm16)) := rfl
@[simp] theorem exec_beq (rA rB : Reg) (imm16 : Imm16) (s : State) :
    exec (.beq rA rB imm16) s = branchIf eqWord rA rB imm16 s := rfl
@[simp] theorem exec_bne (rA rB : Reg) (imm16 : Imm16) (s : State) :
    exec (.bne rA rB imm16) s = branchIf neWord rA rB imm16 s := rfl
@[simp] theorem exec_bge (rA rB : Reg) (imm16 : Imm16) (s : State) :
    exec (.bge rA rB imm16) s = branchIf geSigned rA rB imm16 s := rfl
@[simp] theorem exec_bgeu (rA rB : Reg) (imm16 : Imm16) (s : State) :
    exec (.bgeu rA rB imm16) s = branchIf geUnsigned rA rB imm16 s := rfl
@[simp] theorem exec_blt (rA rB : Reg) (imm16 : Imm16) (s : State) :
    exec (.blt rA rB imm16) s = branchIf ltSigned rA rB imm16 s := rfl
@[simp] theorem exec_bltu (rA rB : Reg) (imm16 : Imm16) (s : State) :
    exec (.bltu rA rB imm16) s = branchIf ltUnsigned rA rB imm16 s := rfl
@[simp] theorem exec_call (imm26 : Imm26) (s : State) :
    exec (.call imm26) s = conclude (linkAndTransfer s (jumpTarget s.cfg s.pc imm26)) := rfl
@[simp] theorem exec_jmpi (imm26 : Imm26) (s : State) :
    exec (.jmpi imm26) s = conclude (transfer s (jumpTarget s.cfg s.pc imm26)) := rfl
@[simp] theorem exec_callr (rA : Reg) (s : State) :
    exec (.callr rA) s = Sys2Proof.Machine.execCallr rA s := rfl
@[simp] theorem exec_jmp (rA : Reg) (s : State) :
    exec (.jmp rA) s = jumpRegister rA s := rfl
@[simp] theorem exec_ret (s : State) :
    exec .ret s = jumpRegister linkReg s := rfl

end Sys2Proof.Machine
end

