-- ==== Sys2Proof/Laws/Effect.lean ====
section
/-! SUPPORT. What an instruction can do to the state, said once: `Effect`, its lemma for each shape, and for `exec`; and the
little-endian words of RAM, the fetch among them. -/

namespace Sys2Proof.Machine

/-! ## Words in RAM -/

/-- One more byte below a little-endian value. -/
theorem littleEndian_cons {b : Byte} {bs : List Byte} {n : Nat} {x : BitVec n} (h : littleEndian bs = x.setWidth 32) :
    littleEndian (b :: bs) = (x ++ b).setWidth 32 := by
  rw [littleEndian, h]
  ext i hi
  simp only [← BitVec.getLsbD_eq_getElem, BitVec.getLsbD_append, BitVec.getLsbD_or, BitVec.getLsbD_shiftLeft,
    BitVec.getLsbD_setWidth, hi]
  by_cases h1 : i < 8
  · simp [h1]
  · simp [h1, BitVec.getLsbD_of_ge b i (by omega)]
    intro _; omega

theorem littleEndian_one (b0 : Byte) : littleEndian [b0] = b0.setWidth 32 := by simp [littleEndian]

theorem littleEndian_two (b0 b1 : Byte) : littleEndian [b0, b1] = (b1 ++ b0).setWidth 32 :=
  littleEndian_cons (littleEndian_one b1)

theorem littleEndian_four (b0 b1 b2 b3 : Byte) : littleEndian [b0, b1, b2, b3] = b3 ++ b2 ++ b1 ++ b0 :=
  (littleEndian_cons (littleEndian_cons (littleEndian_cons (littleEndian_one b3)))).trans (BitVec.setWidth_eq _)

theorem addresses_one (a : Word) : addresses a 1 = [a] := by simp [addresses, List.range_succ]

theorem addresses_two (a : Word) : addresses a 2 = [a, a + 1#32] := by simp [addresses, List.range_succ]

theorem addresses_four (a : Word) : addresses a 4 = [a, a + 1#32, a + 2#32, a + 3#32] := by
  simp [addresses, List.range_succ]

theorem littleEndian_ramWord (s : State) (a : Word) :
    littleEndian ((addresses a 4).map (fun x => s.mem.read x.toNat)) = ramWord s a := by
  rw [addresses_four]; exact littleEndian_four _ _ _ _

theorem littleEndian_ramHalf (s : State) (a : Word) :
    littleEndian ((addresses a 2).map (fun x => s.mem.read x.toNat)) = (ramHalf s a).setWidth 32 := by
  rw [addresses_two]; exact littleEndian_two _ _

theorem littleEndian_ramByte (s : State) (a : Word) :
    littleEndian ((addresses a 1).map (fun x => s.mem.read x.toNat)) = (ramByte s a).setWidth 32 := by
  rw [addresses_one]; exact littleEndian_one _

/-- The bytes of a word, put together again. -/
theorem littleEndian_wordBytes (v : Word) : littleEndian (wordBytes v) = v := by
  rw [wordBytes, littleEndian_four]
  ext i hi
  simp only [byteOf, ← BitVec.getLsbD_eq_getElem, BitVec.getLsbD_append, BitVec.getLsbD_extractLsb']
  split_ifs <;> rw [decide_eq_true (by omega), Bool.true_and] <;> congr 1 <;> omega

/-- A fetch from RAM. -/
theorem fetch_ram {s : State} (h : InRam s.cfg s.pc 4) : fetch s = .ok (ramWord s s.pc, s) := by
  unfold fetch
  rw [memRead_ram (w := .word) h]
  exact congrArg (fun w => Except.ok (w, s)) (littleEndian_ramWord s s.pc)

/-! ## The effect of an instruction -/

/-- What an instruction that reads `rs`, writes `d` and stores to the bytes `st` may do to the state. -/
structure Effect (rs : List Reg) (d : Option Reg) (st : List Word) (s t : State) : Prop where
  cfg : t.cfg = s.cfg
  snapshot : t.snapshot = s.snapshot
  sw : t.sw = s.sw
  btn : t.btn = s.btn
  run : t.run = s.run
  inq : t.inq <:+ s.inq
  trace : s.trace <+: t.trace
  zero : t.regs[0] = s.regs[0]
  reg : ∀ r, d ≠ some r → t.reg r = s.reg r
  tags : TagsMarked rs d s t
  dis : ∀ r, t.tag r = .disabled ↔ s.tag r = .disabled
  wf : Memory.WF s.mem → Memory.WF t.mem
  cells : ∀ c ∈ t.mem, c ∈ s.mem ∨ ∃ p ∈ st, c.1 = p.toNat ∧ ∃ k, resolve s.cfg p = some k ∧ k.kind = .ram
  ram : ∀ x, (∀ p ∈ st, x ≠ p.toNat) → t.mem.read x = s.mem.read x
  pc : s.pc.toNat % 4 = 0 → t.pc.toNat % 4 = 0

/-- A register that is neither read nor written keeps its tag. -/
theorem Effect.tag {rs d st} {s t : State} (h : Effect rs d st s t) (r) (hr : r ∉ rs) (hd : d ≠ some r) :
    t.tag r = s.tag r := by
  have := h.tags r
  rwa [if_neg hd, if_neg hr] at this

theorem add_four_aligned {p : Word} (h : p.toNat % 4 = 0) : (p + 4#32).toNat % 4 = 0 := by
  simp [BitVec.toNat_add]; omega

/-- A register write, then the PC moved, from a state `m` that reading registers and memory made of `s`. -/
theorem Effect.of_write {rs d v} {s m u : State}
    (hm : m = { s with tags := m.tags, rx := m.rx, rrdy := m.rrdy, inq := m.inq }) (hq : m.inq <:+ s.inq)
    (ht : ∀ r, m.tag r = if r ∈ rs then .read else s.tag r) (hd : ∀ r, m.tag r = .disabled ↔ s.tag r = .disabled)
    (hw : writeReg m d v = .ok u) (p : Word) (hp : s.pc.toNat % 4 = 0 → p.toNat % 4 = 0) :
    Effect rs (some d) [] s { u with pc := p } := by
  obtain ⟨h1, e, hr, htn, htd, hz⟩ := writeReg_eq_ok hw
  have hreg : ∀ r, m.reg r = s.reg r := fun r => reg_congr (by rw [hm]) r
  refine ⟨?_,?_,?_,?_,?_,?_,?_,?_,?_,?_,?_,?_,?_,?_,?_⟩
  · show u.cfg = _; rw [e, hm]
  · show u.snapshot = _; rw [e, hm]
  · show u.sw = _; rw [e, hm]
  · show u.btn = _; rw [e, hm]
  · show u.run = _; rw [e, hm]
  · show u.inq <:+ s.inq
    rw [e]; exact hq
  · show s.trace <+: u.trace
    rw [e, hm]
  · show u.regs[0] = _
    rw [hz, congrArg State.regs hm]
  · intro r h
    have h' : r ≠ d := fun e => h (by rw [e])
    show u.reg r = _
    rw [hr, if_neg h', hreg]
  · intro r
    show if _ then u.tag r = _ ∨ _ ∧ u.tag r = _ else u.tag r = _
    rw [← ht r]
    by_cases h : r = d
    · rw [if_pos (congrArg some h.symm), h]
      exact htd
    · rw [if_neg (fun e => h (Option.some.inj e).symm)]
      exact htn r h
  · intro r
    show u.tag r = _ ↔ _
    by_cases h : r = d
    · subst h
      rw [← hd]
      rcases htd with h | ⟨-, h⟩
      · rw [h]; simp [h1]
      · rw [h]
    · rw [htn r h, hd]
  · show Memory.WF s.mem → Memory.WF u.mem
    rw [e, hm]; exact id
  · intro c hc
    left; change c ∈ u.mem at hc; rw [e, hm] at hc; exact hc
  · intro x _
    show u.mem.read x = _
    rw [e, hm]
  · exact hp

/-- The PC moved, from a state `m` that reading registers made of `s`. -/
theorem Effect.of_tags {rs} {s m : State} (hm : m = { s with tags := m.tags })
    (ht : ∀ r, m.tag r = if r ∈ rs then .read else s.tag r) (hd : ∀ r, m.tag r = .disabled ↔ s.tag r = .disabled)
    (p : Word) (hp : s.pc.toNat % 4 = 0 → p.toNat % 4 = 0) : Effect rs none [] s { m with pc := p } := by
  have hreg : ∀ r, m.reg r = s.reg r := fun r => reg_congr (by rw [hm]) r
  refine ⟨?_,?_,?_,?_,?_,?_,?_,?_,?_,?_,?_,?_,?_,?_,?_⟩
  · show m.cfg = _; rw [hm]
  · show m.snapshot = _; rw [hm]
  · show m.sw = _; rw [hm]
  · show m.btn = _; rw [hm]
  · show m.run = _; rw [hm]
  · show m.inq <:+ s.inq; rw [hm]
  · show s.trace <+: m.trace; rw [hm]
  · show m.regs[0] = _; rw [congrArg State.regs hm]
  · intro r _; show m.reg r = _; exact hreg r
  · intro r
    exact ht r
  · exact hd
  · show Memory.WF s.mem → Memory.WF m.mem
    rw [hm]; exact id
  · intro c hc
    left; change c ∈ m.mem at hc; rw [hm] at hc; exact hc
  · intro x _
    show m.mem.read x = _
    rw [hm]
  · exact hp

theorem tag_disabled_one {s : State} {rA : Reg} (h : s.tag rA ≠ .disabled) (r) :
    (s.setTag rA .read).tag r = .disabled ↔ s.tag r = .disabled := setTag_read_tag_eq h

theorem tag_disabled_two {s : State} {rA rB : Reg} (h : s.tag rA ≠ .disabled) (h2 : s.tag rB ≠ .disabled)
    (r) : ((s.setTag rA .read).setTag rB .read).tag r = .disabled ↔ s.tag r = .disabled :=
  (setTag_read_tag_eq (setTag_read_tag_ne h2)).trans (setTag_read_tag_eq h)

theorem twoSourceChecked_effect {f d rA rB s t} (h : twoSourceChecked f d rA rB s = .next t) :
    Effect [rA, rB] (some d) [] s t := by
  obtain ⟨hE, v, u, -, hw, rfl⟩ := twoSourceChecked_next h
  have hA := hE rA (by simp); have hB := hE rB (by simp)
  have := Effect.of_write (s := s) (rs := [rA, rB]) (m := (s.setTag rA .read).setTag rB .read) rfl
    (List.suffix_refl _) (tag_after_reads s rA rB) (tag_disabled_two hA hB) hw (u.pc + 4#32) (by
    obtain ⟨-, e, -⟩ := writeReg_eq_ok hw
    intro h; rw [e]; exact add_four_aligned h)
  exact this

theorem oneSourceChecked_effect {f d rA s t} (h : oneSourceChecked f d rA s = .next t) : Effect [rA] (some d) [] s t := by
  obtain ⟨hE, v, u, -, hw, rfl⟩ := oneSourceChecked_next h
  have hA := hE rA (by simp)
  have := Effect.of_write (s := s) (rs := [rA]) (m := s.setTag rA .read) rfl (List.suffix_refl _)
    (tag_after_read s rA) (tag_disabled_one hA) hw (u.pc + 4#32) (by
    obtain ⟨-, e, -⟩ := writeReg_eq_ok hw
    intro h; rw [e]; exact add_four_aligned h)
  exact this

theorem loadForm_effect {w ext d i rA s t} (h : loadForm w ext d i rA s = .next t) : Effect [rA] (some d) [] s t := by
  obtain ⟨hE, v, m, u, hm, hw, rfl⟩ := loadForm_next h
  obtain ⟨-, hm, hq, -⟩ := memRead_eq_ok hm
  have hA := hE rA (by simp)
  have htag : ∀ r, m.tag r = (s.setTag rA .read).tag r := fun r => tag_congr (by rw [hm]) r
  have := Effect.of_write (s := s) (rs := [rA]) (by rw [hm]; rfl) hq
    (fun r => (htag r).trans (tag_after_read s rA r)) (fun r => by rw [htag]; exact tag_disabled_one hA r) hw
    (u.pc + 4#32) (by
    obtain ⟨-, e, -⟩ := writeReg_eq_ok hw
    intro h; rw [e, hm]; exact add_four_aligned h)
  exact this

theorem branchIf_effect {c rA rB i s t} (h : branchIf c rA rB i s = .next t) : Effect [rA, rB] none [] s t := by
  obtain ⟨hE, h⟩ := branchIf_next h
  have hA := hE rA (by simp); have hB := hE rB (by simp)
  rcases h with ⟨-, ha, rfl⟩ | ⟨-, rfl⟩
  · exact Effect.of_tags (s := s) (m := (s.setTag rA .read).setTag rB .read) rfl (tag_after_reads s rA rB)
      (tag_disabled_two hA hB) _ (fun _ => ha)
  · exact Effect.of_tags (s := s) (m := (s.setTag rA .read).setTag rB .read) rfl (tag_after_reads s rA rB)
      (tag_disabled_two hA hB) _ (fun h => add_four_aligned h)

theorem jumpRegister_effect {rA s t} (h : jumpRegister rA s = .next t) : Effect [rA] none [] s t := by
  obtain ⟨hE, ha, rfl⟩ := jumpRegister_next h
  have hA := hE rA (by simp)
  exact Effect.of_tags (s := s) (m := s.setTag rA .read) rfl (tag_after_read s rA) (tag_disabled_one hA) _ (fun _ => ha)

theorem transfer_effect {s t a} (h : conclude (transfer s a) = .next t) : Effect [] none [] s t := by
  obtain ⟨ha, rfl⟩ := transfer_eq_ok.mp (conclude_eq_next.mp h)
  exact Effect.of_tags (s := s) (m := s) rfl (fun r => by simp) (fun _ => Iff.rfl) _ (fun _ => ha)

theorem linkAndTransfer_effect {s t a} (h : conclude (linkAndTransfer s a) = .next t) : Effect [] (some 31#5) [] s t := by
  obtain ⟨ha, u, hw, rfl⟩ := linkAndTransfer_eq_ok (conclude_eq_next.mp h)
  exact Effect.of_write (s := s) (m := s) rfl (List.suffix_refl _) (fun r => by simp) (fun _ => Iff.rfl) hw _ (fun _ => ha)

theorem execCallr_effect {s t rA} (h : execCallr rA s = .next t) : Effect [rA] (some 31#5) [] s t := by
  obtain ⟨p, h1, h⟩ := except_bind_eq_ok.mp (conclude_eq_next.mp h)
  obtain ⟨hA, rfl⟩ := readReg_eq_ok.mp h1
  obtain ⟨ha, u, hw, rfl⟩ := linkAndTransfer_eq_ok h
  exact Effect.of_write (s := s) (m := s.setTag rA .read) rfl (List.suffix_refl _) (tag_after_read s rA)
    (tag_disabled_one hA) hw _ (fun _ => ha)

theorem storeForm_effect {w rB i rA s t} (h : storeForm w rB i rA s = .next t) :
    Effect [rA, rB] none (addresses (s.reg rA + i.signExtend 32) w.bytes) s t := by
  obtain ⟨hE, m, hm, rfl⟩ := storeForm_next h
  have hA := hE rA (by simp); have hB := hE rB (by simp)
  obtain ⟨-, hm⟩ := memWrite_eq_ok.mp hm
  obtain ⟨e, hq, htr, hwf, hc, hr⟩ := writeBytes_eq_ok hm
  have hmap := map_fst_storeList (effectiveAddress (s.reg rA) i) w (s.reg rB)
  refine ⟨?_,?_,?_,?_,?_,?_,?_,?_,?_,?_,?_,?_,?_,?_,?_⟩
  · show m.cfg = _; rw [e]; rfl
  · show m.snapshot = _; rw [e]; rfl
  · show m.sw = _; rw [e]; rfl
  · show m.btn = _; rw [e]; rfl
  · show m.run = _; rw [e]; rfl
  · exact hq
  · exact htr
  · show m.regs[0] = _; rw [congrArg State.regs e]; rfl
  · intro r _; show m.reg r = _; exact reg_congr (by rw [e]; rfl) r
  · intro r; show m.tag r = _; rw [← tag_after_reads]; exact tag_congr (by rw [e]) r
  · intro r; show m.tag r = _ ↔ _
    rw [← tag_disabled_two hA hB r, tag_congr (t := m) (s := (s.setTag rA .read).setTag rB .read) (by rw [e]) r]
  · exact hwf
  · intro c h
    rcases hc c h with h | ⟨p, hp, h1, h2⟩
    · exact .inl h
    · refine .inr ⟨p.1, ?_, h1, h2⟩
      have := List.mem_map_of_mem (f := Prod.fst) hp
      rw [hmap] at this; exact this
  · intro x hx
    show m.mem.read x = _
    refine hr x (fun p hp => ?_)
    have := List.mem_map_of_mem (f := Prod.fst) hp
    rw [hmap] at this
    exact hx _ this
  · intro h; show (m.pc + 4#32).toNat % 4 = 0
    rw [e]; exact add_four_aligned h

/-- The bytes an instruction stores to. -/
def storeAt (s : State) : Instr → List Word
  | .add _ _ _ => []
  | .addi _ _ _ => []
  | .sub _ _ _ => []
  | .mul _ _ _ => []
  | .muli _ _ _ => []
  | .mulxss _ _ _ => []
  | .mulxsu _ _ _ => []
  | .mulxuu _ _ _ => []
  | .div _ _ _ => []
  | .divu _ _ _ => []
  | .and _ _ _ => []
  | .andi _ _ _ => []
  | .andhi _ _ _ => []
  | .or _ _ _ => []
  | .ori _ _ _ => []
  | .orhi _ _ _ => []
  | .xor _ _ _ => []
  | .xori _ _ _ => []
  | .xorhi _ _ _ => []
  | .nor _ _ _ => []
  | .cmpeq _ _ _ => []
  | .cmpne _ _ _ => []
  | .cmpge _ _ _ => []
  | .cmpgeu _ _ _ => []
  | .cmplt _ _ _ => []
  | .cmpltu _ _ _ => []
  | .cmpeqi _ _ _ => []
  | .cmpnei _ _ _ => []
  | .cmpgei _ _ _ => []
  | .cmpgeui _ _ _ => []
  | .cmplti _ _ _ => []
  | .cmpltui _ _ _ => []
  | .sll _ _ _ => []
  | .slli _ _ _ => []
  | .srl _ _ _ => []
  | .srli _ _ _ => []
  | .sra _ _ _ => []
  | .srai _ _ _ => []
  | .rol _ _ _ => []
  | .roli _ _ _ => []
  | .ror _ _ _ => []
  | .ldw _ _ _ => []
  | .ldh _ _ _ => []
  | .ldhu _ _ _ => []
  | .ldb _ _ _ => []
  | .ldbu _ _ _ => []
  | .stw _ i rA => addresses (s.reg rA + i.signExtend 32) 4
  | .sth _ i rA => addresses (s.reg rA + i.signExtend 32) 2
  | .stb _ i rA => addresses (s.reg rA + i.signExtend 32) 1
  | .ldwio _ _ _ => []
  | .ldhio _ _ _ => []
  | .ldhuio _ _ _ => []
  | .ldbio _ _ _ => []
  | .ldbuio _ _ _ => []
  | .stwio _ i rA => addresses (s.reg rA + i.signExtend 32) 4
  | .sthio _ i rA => addresses (s.reg rA + i.signExtend 32) 2
  | .stbio _ i rA => addresses (s.reg rA + i.signExtend 32) 1
  | .br _ => []
  | .beq _ _ _ => []
  | .bne _ _ _ => []
  | .bge _ _ _ => []
  | .bgeu _ _ _ => []
  | .blt _ _ _ => []
  | .bltu _ _ _ => []
  | .call _ => []
  | .jmpi _ => []
  | .callr _ => []
  | .jmp _ => []
  | .ret => []

theorem exec_effect {i : Instr} {s t : State} (h : exec i s = .next t) : Effect (reads i) (dest i) (storeAt s i) s t := by
  cases i with
  | add rC rA rB => exact twoSourceChecked_effect ((exec_add rC rA rB s).symm.trans h)
  | addi rB rA imm16 => exact oneSourceChecked_effect ((exec_addi rB rA imm16 s).symm.trans h)
  | sub rC rA rB => exact twoSourceChecked_effect ((exec_sub rC rA rB s).symm.trans h)
  | mul rC rA rB => exact twoSourceChecked_effect ((exec_mul rC rA rB s).symm.trans h)
  | muli rB rA imm16 => exact oneSourceChecked_effect ((exec_muli rB rA imm16 s).symm.trans h)
  | mulxss rC rA rB => exact twoSourceChecked_effect ((exec_mulxss rC rA rB s).symm.trans h)
  | mulxsu rC rA rB => exact twoSourceChecked_effect ((exec_mulxsu rC rA rB s).symm.trans h)
  | mulxuu rC rA rB => exact twoSourceChecked_effect ((exec_mulxuu rC rA rB s).symm.trans h)
  | div rC rA rB => exact twoSourceChecked_effect ((exec_div rC rA rB s).symm.trans h)
  | divu rC rA rB => exact twoSourceChecked_effect ((exec_divu rC rA rB s).symm.trans h)
  | and rC rA rB => exact twoSourceChecked_effect ((exec_and rC rA rB s).symm.trans h)
  | andi rB rA imm16 => exact oneSourceChecked_effect ((exec_andi rB rA imm16 s).symm.trans h)
  | andhi rB rA imm16 => exact oneSourceChecked_effect ((exec_andhi rB rA imm16 s).symm.trans h)
  | or rC rA rB => exact twoSourceChecked_effect ((exec_or rC rA rB s).symm.trans h)
  | ori rB rA imm16 => exact oneSourceChecked_effect ((exec_ori rB rA imm16 s).symm.trans h)
  | orhi rB rA imm16 => exact oneSourceChecked_effect ((exec_orhi rB rA imm16 s).symm.trans h)
  | xor rC rA rB => exact twoSourceChecked_effect ((exec_xor rC rA rB s).symm.trans h)
  | xori rB rA imm16 => exact oneSourceChecked_effect ((exec_xori rB rA imm16 s).symm.trans h)
  | xorhi rB rA imm16 => exact oneSourceChecked_effect ((exec_xorhi rB rA imm16 s).symm.trans h)
  | nor rC rA rB => exact twoSourceChecked_effect ((exec_nor rC rA rB s).symm.trans h)
  | cmpeq rC rA rB => exact twoSourceChecked_effect ((exec_cmpeq rC rA rB s).symm.trans h)
  | cmpne rC rA rB => exact twoSourceChecked_effect ((exec_cmpne rC rA rB s).symm.trans h)
  | cmpge rC rA rB => exact twoSourceChecked_effect ((exec_cmpge rC rA rB s).symm.trans h)
  | cmpgeu rC rA rB => exact twoSourceChecked_effect ((exec_cmpgeu rC rA rB s).symm.trans h)
  | cmplt rC rA rB => exact twoSourceChecked_effect ((exec_cmplt rC rA rB s).symm.trans h)
  | cmpltu rC rA rB => exact twoSourceChecked_effect ((exec_cmpltu rC rA rB s).symm.trans h)
  | cmpeqi rB rA imm16 => exact oneSourceChecked_effect ((exec_cmpeqi rB rA imm16 s).symm.trans h)
  | cmpnei rB rA imm16 => exact oneSourceChecked_effect ((exec_cmpnei rB rA imm16 s).symm.trans h)
  | cmpgei rB rA imm16 => exact oneSourceChecked_effect ((exec_cmpgei rB rA imm16 s).symm.trans h)
  | cmpgeui rB rA imm16 => exact oneSourceChecked_effect ((exec_cmpgeui rB rA imm16 s).symm.trans h)
  | cmplti rB rA imm16 => exact oneSourceChecked_effect ((exec_cmplti rB rA imm16 s).symm.trans h)
  | cmpltui rB rA imm16 => exact oneSourceChecked_effect ((exec_cmpltui rB rA imm16 s).symm.trans h)
  | sll rC rA rB => exact twoSourceChecked_effect ((exec_sll rC rA rB s).symm.trans h)
  | slli rC rA imm5 => exact oneSourceChecked_effect ((exec_slli rC rA imm5 s).symm.trans h)
  | srl rC rA rB => exact twoSourceChecked_effect ((exec_srl rC rA rB s).symm.trans h)
  | srli rC rA imm5 => exact oneSourceChecked_effect ((exec_srli rC rA imm5 s).symm.trans h)
  | sra rC rA rB => exact twoSourceChecked_effect ((exec_sra rC rA rB s).symm.trans h)
  | srai rC rA imm5 => exact oneSourceChecked_effect ((exec_srai rC rA imm5 s).symm.trans h)
  | rol rC rA rB => exact twoSourceChecked_effect ((exec_rol rC rA rB s).symm.trans h)
  | roli rC rA imm5 => exact oneSourceChecked_effect ((exec_roli rC rA imm5 s).symm.trans h)
  | ror rC rA rB => exact twoSourceChecked_effect ((exec_ror rC rA rB s).symm.trans h)
  | ldw rB imm16 rA => exact loadForm_effect ((exec_ldw rB imm16 rA s).symm.trans h)
  | ldh rB imm16 rA => exact loadForm_effect ((exec_ldh rB imm16 rA s).symm.trans h)
  | ldhu rB imm16 rA => exact loadForm_effect ((exec_ldhu rB imm16 rA s).symm.trans h)
  | ldb rB imm16 rA => exact loadForm_effect ((exec_ldb rB imm16 rA s).symm.trans h)
  | ldbu rB imm16 rA => exact loadForm_effect ((exec_ldbu rB imm16 rA s).symm.trans h)
  | stw rB imm16 rA => exact storeForm_effect ((exec_stw rB imm16 rA s).symm.trans h)
  | sth rB imm16 rA => exact storeForm_effect ((exec_sth rB imm16 rA s).symm.trans h)
  | stb rB imm16 rA => exact storeForm_effect ((exec_stb rB imm16 rA s).symm.trans h)
  | ldwio rB imm16 rA => exact loadForm_effect ((exec_ldwio rB imm16 rA s).symm.trans h)
  | ldhio rB imm16 rA => exact loadForm_effect ((exec_ldhio rB imm16 rA s).symm.trans h)
  | ldhuio rB imm16 rA => exact loadForm_effect ((exec_ldhuio rB imm16 rA s).symm.trans h)
  | ldbio rB imm16 rA => exact loadForm_effect ((exec_ldbio rB imm16 rA s).symm.trans h)
  | ldbuio rB imm16 rA => exact loadForm_effect ((exec_ldbuio rB imm16 rA s).symm.trans h)
  | stwio rB imm16 rA => exact storeForm_effect ((exec_stwio rB imm16 rA s).symm.trans h)
  | sthio rB imm16 rA => exact storeForm_effect ((exec_sthio rB imm16 rA s).symm.trans h)
  | stbio rB imm16 rA => exact storeForm_effect ((exec_stbio rB imm16 rA s).symm.trans h)
  | br imm16 => exact transfer_effect ((exec_br imm16 s).symm.trans h)
  | beq rA rB imm16 => exact branchIf_effect ((exec_beq rA rB imm16 s).symm.trans h)
  | bne rA rB imm16 => exact branchIf_effect ((exec_bne rA rB imm16 s).symm.trans h)
  | bge rA rB imm16 => exact branchIf_effect ((exec_bge rA rB imm16 s).symm.trans h)
  | bgeu rA rB imm16 => exact branchIf_effect ((exec_bgeu rA rB imm16 s).symm.trans h)
  | blt rA rB imm16 => exact branchIf_effect ((exec_blt rA rB imm16 s).symm.trans h)
  | bltu rA rB imm16 => exact branchIf_effect ((exec_bltu rA rB imm16 s).symm.trans h)
  | call imm26 => exact linkAndTransfer_effect ((exec_call imm26 s).symm.trans h)
  | jmpi imm26 => exact transfer_effect ((exec_jmpi imm26 s).symm.trans h)
  | callr rA => exact execCallr_effect ((exec_callr rA s).symm.trans h)
  | jmp rA => exact jumpRegister_effect ((exec_jmp rA s).symm.trans h)
  | ret => exact jumpRegister_effect ((exec_ret s).symm.trans h)

end Sys2Proof.Machine
end

