-- ==== Sys2Proof/Laws/Encoding.lean ====
section
/-! SUPPORT. The fields of an encoded word, one lemma per field and format, and its bits under the opcode table's masks. -/

namespace Sys2Proof

theorem append_low {m n : Nat} (x : BitVec m) (y : BitVec n) : (x ++ y).extractLsb' 0 n = y := by
  ext i hi; simp [BitVec.getLsbD_append, hi]

theorem extract_of_append {m n : Nat} (x : BitVec m) (y : BitVec n) (k len : Nat) :
    (x ++ y).extractLsb' (n + k) len = x.extractLsb' k len := by
  ext i hi
  simp only [BitVec.getElem_extractLsb', BitVec.getLsbD_append]
  rw [if_neg (by simp; omega)]
  congr 1; omega

theorem extract_all {n : Nat} (x : BitVec n) : x.extractLsb' 0 n = x := by
  ext i hi; simp

/-- The field that ends an append, at its own place. -/
theorem append_field {m n k : Nat} (x : BitVec m) (y : BitVec k) (z : BitVec n) :
    (x ++ y ++ z).extractLsb' n k = y := by
  have := extract_of_append (x ++ y) z 0 k
  rw [Nat.add_zero] at this
  rw [this, append_low]

/-! ## I-format -/

@[simp] theorem fieldOp_encI (op : Op6) (rA rB : Reg) (imm16 : Imm16) : fieldOp (encI op rA rB imm16) = op :=
  append_low (rA ++ rB ++ imm16) op

@[simp] theorem fieldImm16_encI (op : Op6) (rA rB : Reg) (imm16 : Imm16) : fieldImm16 (encI op rA rB imm16) = imm16 :=
  append_field (rA ++ rB) imm16 op

@[simp] theorem fieldB_encI (op : Op6) (rA rB : Reg) (imm16 : Imm16) : fieldB (encI op rA rB imm16) = rB := by
  have h := extract_of_append (rA ++ rB ++ imm16) op 16 5
  rw [append_field] at h
  exact h

@[simp] theorem fieldA_encI (op : Op6) (rA rB : Reg) (imm16 : Imm16) : fieldA (encI op rA rB imm16) = rA := by
  have h := extract_of_append (rA ++ rB ++ imm16) op 21 5
  have h2 := extract_of_append (rA ++ rB) imm16 5 5
  have h3 := extract_of_append rA rB 0 5
  rw [extract_all] at h3
  exact h.trans (h2.trans h3)

/-! ## J-format -/

@[simp] theorem fieldOp_encJ (op : Op6) (imm26 : Imm26) : fieldOp (encJ op imm26) = op := append_low imm26 op

@[simp] theorem fieldImm26_encJ (op : Op6) (imm26 : Imm26) : fieldImm26 (encJ op imm26) = imm26 := by
  have h := extract_of_append imm26 op 0 26
  rw [extract_all] at h
  exact h

/-! ## R-format -/

@[simp] theorem fieldOp_encR (opx : Op6) (rA rB rC : Reg) (imm5 : Imm5) : fieldOp (encR opx rA rB rC imm5) = opRType :=
  append_low (rA ++ rB ++ rC ++ opx ++ imm5) opRType

@[simp] theorem fieldImm5_encR (opx : Op6) (rA rB rC : Reg) (imm5 : Imm5) : fieldImm5 (encR opx rA rB rC imm5) = imm5 :=
  append_field (rA ++ rB ++ rC ++ opx) imm5 opRType

@[simp] theorem fieldOpx_encR (opx : Op6) (rA rB rC : Reg) (imm5 : Imm5) : fieldOpx (encR opx rA rB rC imm5) = opx := by
  have h := extract_of_append (rA ++ rB ++ rC ++ opx ++ imm5) opRType 5 6
  rw [append_field] at h
  exact h

@[simp] theorem fieldC_encR (opx : Op6) (rA rB rC : Reg) (imm5 : Imm5) : fieldC (encR opx rA rB rC imm5) = rC := by
  have h := extract_of_append (rA ++ rB ++ rC ++ opx ++ imm5) opRType 11 5
  have h2 := extract_of_append (rA ++ rB ++ rC ++ opx) imm5 6 5
  rw [append_field] at h2
  exact h.trans h2

@[simp] theorem fieldB_encR (opx : Op6) (rA rB rC : Reg) (imm5 : Imm5) : fieldB (encR opx rA rB rC imm5) = rB := by
  have h := extract_of_append (rA ++ rB ++ rC ++ opx ++ imm5) opRType 16 5
  have h2 := extract_of_append (rA ++ rB ++ rC ++ opx) imm5 11 5
  have h3 := extract_of_append (rA ++ rB ++ rC) opx 5 5
  rw [append_field] at h3
  exact h.trans (h2.trans h3)

@[simp] theorem fieldA_encR (opx : Op6) (rA rB rC : Reg) (imm5 : Imm5) : fieldA (encR opx rA rB rC imm5) = rA := by
  have h := extract_of_append (rA ++ rB ++ rC ++ opx ++ imm5) opRType 21 5
  have h2 := extract_of_append (rA ++ rB ++ rC ++ opx) imm5 16 5
  have h3 := extract_of_append (rA ++ rB ++ rC) opx 10 5
  have h4 := extract_of_append (rA ++ rB) rC 5 5
  have h5 := extract_of_append rA rB 0 5
  rw [extract_all] at h5
  exact h.trans (h2.trans (h3.trans (h4.trans h5)))

/-! ## Masks (30_encoding.md R104) -/

/-- A mask of low ones keeps the low bits. -/
theorem and_low_ones (w : Word) (n : Nat) (hn : n ≤ 32) :
    w &&& BitVec.ofNat 32 (2 ^ n - 1) = (w.extractLsb' 0 n).setWidth 32 := by
  apply BitVec.eq_of_toNat_eq
  have h1 : 2 ^ n ≤ 2 ^ 32 := Nat.pow_le_pow_right (by decide) hn
  have h2 : 0 < 2 ^ n := Nat.two_pow_pos n
  have h3 : w.toNat % 2 ^ n < 2 ^ n := Nat.mod_lt _ h2
  rw [BitVec.toNat_and, BitVec.toNat_ofNat, BitVec.toNat_setWidth, BitVec.extractLsb'_toNat, Nat.shiftRight_zero,
    Nat.mod_eq_of_lt (a := 2 ^ n - 1) (by omega), Nat.and_two_pow_sub_one_eq_mod, Nat.mod_eq_of_lt (b := 2 ^ 32) (by omega)]

/-- `OP` alone: the mask of I- and J-format rows. -/
theorem and_mask_op (w : Word) : w &&& 0x0000003F#32 = (fieldOp w).setWidth 32 := and_low_ones w 6 (by decide)

/-- `OP` and the 11-bit extension field: the mask of R-format rows without an `IMM5` operand. -/
theorem and_mask_ext (w : Word) : w &&& 0x0001FFFF#32 = (w.extractLsb' 0 17).setWidth 32 :=
  and_low_ones w 17 (by decide)

/-- The word of an I-format instruction under its row's mask. -/
theorem encI_mask (op : Op6) (rA rB : Reg) (imm16 : Imm16) : encI op rA rB imm16 &&& 0x0000003F#32 = op.setWidth 32 := by
  rw [and_mask_op, fieldOp_encI]

/-- The word of a J-format instruction under its row's mask. -/
theorem encJ_mask (op : Op6) (imm26 : Imm26) : encJ op imm26 &&& 0x0000003F#32 = op.setWidth 32 := by
  rw [and_mask_op, fieldOp_encJ]

/-- The word of an R-format instruction under the mask of rows without an `IMM5` operand. -/
theorem encR_mask (opx : Op6) (rA rB rC : Reg) (imm5 : Imm5) : encR opx rA rB rC imm5 &&& 0x0001FFFF#32 = (opx ++ imm5 ++ opRType : BitVec 17).setWidth 32 := by
  rw [and_mask_ext]
  congr 1
  ext i hi
  rw [← BitVec.getLsbD_eq_getElem, ← BitVec.getLsbD_eq_getElem]
  simp only [encR, BitVec.getLsbD_extractLsb', BitVec.getLsbD_append, Nat.zero_add, hi, decide_true, Bool.true_and]
  split_ifs <;> first | rfl | omega

/-- The word of a shift-immediate instruction under its row's mask. -/
theorem encR_mask_imm (opx : Op6) (rA rB rC : Reg) (imm5 : Imm5) : encR opx rA rB rC imm5 &&& 0x0001F83F#32 = (opx ++ 0#5 ++ opRType : BitVec 17).setWidth 32 := by
  have h : (0x0001F83F#32 : Word) = 0x0001FFFF#32 &&& 0x0001F83F#32 := by decide
  rw [h, ← BitVec.and_assoc, encR_mask]
  revert opx imm5
  decide +kernel

end Sys2Proof
end

