-- ==== Sys2Proof/Laws/Image.lean ====
section
/-! SUPPORT. What building an image can do, said once: when it gives an image, and where each of its bytes stands. -/

namespace Sys2Proof.Machine

theorem encodeAll_cons_eq_some {cfg : Config} {d : Decoded} {ds : List Decoded} {ws : List Word} :
    encodeAll cfg (d :: ds) = some ws ↔ ∃ w vs, cfg.encode d = some w ∧ encodeAll cfg ds = some vs ∧ ws = w :: vs := by
  simp only [encodeAll, Option.bind_eq_bind, Option.bind_eq_some_iff, Option.pure_def, Option.some.injEq]
  constructor
  · rintro ⟨w, h, vs, h2, rfl⟩; exact ⟨w, vs, h, h2, rfl⟩
  · rintro ⟨w, vs, h, h2, rfl⟩; exact ⟨w, h, vs, h2, rfl⟩

/-- The words of a program are those of its instructions, in order. -/
theorem encodeAll_eq_some {cfg : Config} {ds : List Decoded} {ws : List Word} (h : encodeAll cfg ds = some ws) :
    ws.length = ds.length ∧ ∀ (k : Nat) d, ds[k]? = some d → ∃ w, cfg.encode d = some w ∧ ws[k]? = some w := by
  induction ds generalizing ws with
  | nil => cases h; simp
  | cons d ds ih =>
    obtain ⟨w, vs, h1, h2, rfl⟩ := encodeAll_cons_eq_some.mp h
    obtain ⟨hl, hk⟩ := ih h2
    refine ⟨by simp [hl], fun k e he => ?_⟩
    cases k with
    | zero => cases he; exact ⟨w, h1, rfl⟩
    | succ k => exact hk k e he

/-- A program has words exactly when each of its instructions has one. -/
theorem encodeAll_exists {cfg : Config} {ds : List Decoded} :
    (∃ ws, encodeAll cfg ds = some ws) ↔ ∀ d ∈ ds, ∃ w, cfg.encode d = some w := by
  induction ds with
  | nil => simp [encodeAll]
  | cons d ds ih =>
    simp only [encodeAll_cons_eq_some, List.mem_cons, forall_eq_or_imp, ← ih]
    constructor
    · rintro ⟨_, w, vs, h1, h2, -⟩; exact ⟨⟨w, h1⟩, vs, h2⟩
    · rintro ⟨⟨w, h1⟩, vs, h2⟩; exact ⟨_, w, vs, h1, h2, rfl⟩

theorem encode_row_exists {cfg : Config} {i : Instr} : (∃ w, cfg.encode (.row i) = some w) ↔ i.row ∈ cfg.catalog := by
  simp [Config.encode]

theorem encode_divi_exists {cfg : Config} {rB rA : Reg} {imm16 : Imm16} :
    (∃ w, cfg.encode (.divi rB rA imm16) = some w) ↔ ∃ op, cfg.divi = some op := by
  cases h : cfg.divi <;> simp [Config.encode, h]

theorem buildImage_eq_some {cfg : Config} {start : Word} {code : List Decoded} {data : List Variable} {img : Image} :
    buildImage cfg start code data = some img ↔
      ∃ ws, encodeAll cfg code = some ws ∧ img = { bytes := imageBytes ws data, start := start } := by
  simp only [buildImage, Option.map_eq_some_iff, eq_comm (a := img)]

/-! ## Where the bytes of an image stand -/

theorem length_flatMap_wordBytes (ws : List Word) : (ws.flatMap wordBytes).length = 4 * ws.length := by
  induction ws with
  | nil => rfl
  | cons w ws ih => simp [ih, wordBytes]; omega

theorem getElem_wordBytes (w : Word) {j : Nat} (hj : j < 4) : (wordBytes w)[j]? = some (byteOf w j) := by
  match j, hj with
  | 0, _ => rfl
  | 1, _ => rfl
  | 2, _ => rfl
  | 3, _ => rfl

theorem getElem_flatMap_wordBytes {ws : List Word} {k : Nat} {w : Word} (h : ws[k]? = some w) {j : Nat} (hj : j < 4) :
    (ws.flatMap wordBytes)[4 * k + j]? = some (byteOf w j) := by
  induction ws generalizing k with
  | nil => simp at h
  | cons v ws ih =>
    rw [List.flatMap_cons]
    cases k with
    | zero =>
      cases h
      rw [List.getElem?_append_left (by simp [wordBytes]; omega), Nat.mul_zero, Nat.zero_add]
      exact getElem_wordBytes _ hj
    | succ k =>
      rw [List.getElem?_append_right (by simp [wordBytes]; omega)]
      have : 4 * (k + 1) + j - (wordBytes v).length = 4 * k + j := by simp [wordBytes]; omega
      rw [this]
      exact ih h

/-- The bytes of an image: the code words, the reserved word, then the data (R260). -/
theorem imageBytes_parts (ws : List Word) (data : List Variable) :
    (imageBytes ws data).length = 4 * ws.length + 4 + (data.flatMap Variable.bytes).length ∧
    (∀ (k : Nat) w j, ws[k]? = some w → j < 4 → (imageBytes ws data)[4 * k + j]? = some (byteOf w j)) ∧
    (∀ j, j < 4 → (imageBytes ws data)[4 * ws.length + j]? = some 0#8) ∧
    ∀ j, (imageBytes ws data)[4 * ws.length + 4 + j]? = (data.flatMap Variable.bytes)[j]? := by
  have hl := length_flatMap_wordBytes ws
  have h4 : (wordBytes 0#32).length = 4 := rfl
  refine ⟨by simp only [imageBytes, List.length_append, hl, h4], fun k w j h hj => ?_, fun j hj => ?_, fun j => ?_⟩
  · have hk := (List.getElem?_eq_some_iff.mp h).1
    rw [imageBytes, List.append_assoc, List.getElem?_append_left (by omega)]
    exact getElem_flatMap_wordBytes h hj
  · rw [imageBytes, List.append_assoc, List.getElem?_append_right (by omega),
      List.getElem?_append_left (by rw [h4, hl]; omega), hl, Nat.add_sub_cancel_left, getElem_wordBytes _ hj]
    simp [byteOf]
  · rw [imageBytes, List.getElem?_append_right (by simp only [List.length_append, hl, h4]; omega)]
    congr 1
    simp only [List.length_append, hl, h4]; omega

end Sys2Proof.Machine
end

