-- ==== Sys2Proof/Laws/PerInstr.lean ====
section
/-! SUPPORT. The families of statements over all instructions, one lemma per constructor. `EncodeMatchesRow`: the word the
encoder writes has, under the mask of the instruction's row of the opcode table, the row's pattern (30_encoding.md R104,
R116). -/

namespace Sys2Proof.Laws.EncodeMatchesRow

/-- The encoded word selects the instruction's own row of the opcode table. -/
def Statement (i : Instr) : Prop := encode i &&& i.row.mask = i.row.pattern

theorem add (rC rA rB : Reg) : Statement (.add rC rA rB) := encR_mask _ _ _ _ _
theorem addi (rB rA : Reg) (imm16 : Imm16) : Statement (.addi rB rA imm16) := encI_mask _ _ _ _
theorem sub (rC rA rB : Reg) : Statement (.sub rC rA rB) := encR_mask _ _ _ _ _
theorem mul (rC rA rB : Reg) : Statement (.mul rC rA rB) := encR_mask _ _ _ _ _
theorem muli (rB rA : Reg) (imm16 : Imm16) : Statement (.muli rB rA imm16) := encI_mask _ _ _ _
theorem mulxss (rC rA rB : Reg) : Statement (.mulxss rC rA rB) := encR_mask _ _ _ _ _
theorem mulxsu (rC rA rB : Reg) : Statement (.mulxsu rC rA rB) := encR_mask _ _ _ _ _
theorem mulxuu (rC rA rB : Reg) : Statement (.mulxuu rC rA rB) := encR_mask _ _ _ _ _
theorem div (rC rA rB : Reg) : Statement (.div rC rA rB) := encR_mask _ _ _ _ _
theorem divu (rC rA rB : Reg) : Statement (.divu rC rA rB) := encR_mask _ _ _ _ _
theorem and (rC rA rB : Reg) : Statement (.and rC rA rB) := encR_mask _ _ _ _ _
theorem andi (rB rA : Reg) (imm16 : Imm16) : Statement (.andi rB rA imm16) := encI_mask _ _ _ _
theorem andhi (rB rA : Reg) (imm16 : Imm16) : Statement (.andhi rB rA imm16) := encI_mask _ _ _ _
theorem or (rC rA rB : Reg) : Statement (.or rC rA rB) := encR_mask _ _ _ _ _
theorem ori (rB rA : Reg) (imm16 : Imm16) : Statement (.ori rB rA imm16) := encI_mask _ _ _ _
theorem orhi (rB rA : Reg) (imm16 : Imm16) : Statement (.orhi rB rA imm16) := encI_mask _ _ _ _
theorem xor (rC rA rB : Reg) : Statement (.xor rC rA rB) := encR_mask _ _ _ _ _
theorem xori (rB rA : Reg) (imm16 : Imm16) : Statement (.xori rB rA imm16) := encI_mask _ _ _ _
theorem xorhi (rB rA : Reg) (imm16 : Imm16) : Statement (.xorhi rB rA imm16) := encI_mask _ _ _ _
theorem nor (rC rA rB : Reg) : Statement (.nor rC rA rB) := encR_mask _ _ _ _ _
theorem cmpeq (rC rA rB : Reg) : Statement (.cmpeq rC rA rB) := encR_mask _ _ _ _ _
theorem cmpne (rC rA rB : Reg) : Statement (.cmpne rC rA rB) := encR_mask _ _ _ _ _
theorem cmpge (rC rA rB : Reg) : Statement (.cmpge rC rA rB) := encR_mask _ _ _ _ _
theorem cmpgeu (rC rA rB : Reg) : Statement (.cmpgeu rC rA rB) := encR_mask _ _ _ _ _
theorem cmplt (rC rA rB : Reg) : Statement (.cmplt rC rA rB) := encR_mask _ _ _ _ _
theorem cmpltu (rC rA rB : Reg) : Statement (.cmpltu rC rA rB) := encR_mask _ _ _ _ _
theorem cmpeqi (rB rA : Reg) (imm16 : Imm16) : Statement (.cmpeqi rB rA imm16) := encI_mask _ _ _ _
theorem cmpnei (rB rA : Reg) (imm16 : Imm16) : Statement (.cmpnei rB rA imm16) := encI_mask _ _ _ _
theorem cmpgei (rB rA : Reg) (imm16 : Imm16) : Statement (.cmpgei rB rA imm16) := encI_mask _ _ _ _
theorem cmpgeui (rB rA : Reg) (imm16 : Imm16) : Statement (.cmpgeui rB rA imm16) := encI_mask _ _ _ _
theorem cmplti (rB rA : Reg) (imm16 : Imm16) : Statement (.cmplti rB rA imm16) := encI_mask _ _ _ _
theorem cmpltui (rB rA : Reg) (imm16 : Imm16) : Statement (.cmpltui rB rA imm16) := encI_mask _ _ _ _
theorem sll (rC rA rB : Reg) : Statement (.sll rC rA rB) := encR_mask _ _ _ _ _
theorem slli (rC rA : Reg) (imm5 : Imm5) : Statement (.slli rC rA imm5) := encR_mask_imm _ _ _ _ _
theorem srl (rC rA rB : Reg) : Statement (.srl rC rA rB) := encR_mask _ _ _ _ _
theorem srli (rC rA : Reg) (imm5 : Imm5) : Statement (.srli rC rA imm5) := encR_mask_imm _ _ _ _ _
theorem sra (rC rA rB : Reg) : Statement (.sra rC rA rB) := encR_mask _ _ _ _ _
theorem srai (rC rA : Reg) (imm5 : Imm5) : Statement (.srai rC rA imm5) := encR_mask_imm _ _ _ _ _
theorem rol (rC rA rB : Reg) : Statement (.rol rC rA rB) := encR_mask _ _ _ _ _
theorem roli (rC rA : Reg) (imm5 : Imm5) : Statement (.roli rC rA imm5) := encR_mask_imm _ _ _ _ _
theorem ror (rC rA rB : Reg) : Statement (.ror rC rA rB) := encR_mask _ _ _ _ _
theorem ldw (rB : Reg) (imm16 : Imm16) (rA : Reg) : Statement (.ldw rB imm16 rA) := encI_mask _ _ _ _
theorem ldh (rB : Reg) (imm16 : Imm16) (rA : Reg) : Statement (.ldh rB imm16 rA) := encI_mask _ _ _ _
theorem ldhu (rB : Reg) (imm16 : Imm16) (rA : Reg) : Statement (.ldhu rB imm16 rA) := encI_mask _ _ _ _
theorem ldb (rB : Reg) (imm16 : Imm16) (rA : Reg) : Statement (.ldb rB imm16 rA) := encI_mask _ _ _ _
theorem ldbu (rB : Reg) (imm16 : Imm16) (rA : Reg) : Statement (.ldbu rB imm16 rA) := encI_mask _ _ _ _
theorem stw (rB : Reg) (imm16 : Imm16) (rA : Reg) : Statement (.stw rB imm16 rA) := encI_mask _ _ _ _
theorem sth (rB : Reg) (imm16 : Imm16) (rA : Reg) : Statement (.sth rB imm16 rA) := encI_mask _ _ _ _
theorem stb (rB : Reg) (imm16 : Imm16) (rA : Reg) : Statement (.stb rB imm16 rA) := encI_mask _ _ _ _
theorem ldwio (rB : Reg) (imm16 : Imm16) (rA : Reg) : Statement (.ldwio rB imm16 rA) := encI_mask _ _ _ _
theorem ldhio (rB : Reg) (imm16 : Imm16) (rA : Reg) : Statement (.ldhio rB imm16 rA) := encI_mask _ _ _ _
theorem ldhuio (rB : Reg) (imm16 : Imm16) (rA : Reg) : Statement (.ldhuio rB imm16 rA) := encI_mask _ _ _ _
theorem ldbio (rB : Reg) (imm16 : Imm16) (rA : Reg) : Statement (.ldbio rB imm16 rA) := encI_mask _ _ _ _
theorem ldbuio (rB : Reg) (imm16 : Imm16) (rA : Reg) : Statement (.ldbuio rB imm16 rA) := encI_mask _ _ _ _
theorem stwio (rB : Reg) (imm16 : Imm16) (rA : Reg) : Statement (.stwio rB imm16 rA) := encI_mask _ _ _ _
theorem sthio (rB : Reg) (imm16 : Imm16) (rA : Reg) : Statement (.sthio rB imm16 rA) := encI_mask _ _ _ _
theorem stbio (rB : Reg) (imm16 : Imm16) (rA : Reg) : Statement (.stbio rB imm16 rA) := encI_mask _ _ _ _
theorem br (imm16 : Imm16) : Statement (.br imm16) := encI_mask _ _ _ _
theorem beq (rA rB : Reg) (imm16 : Imm16) : Statement (.beq rA rB imm16) := encI_mask _ _ _ _
theorem bne (rA rB : Reg) (imm16 : Imm16) : Statement (.bne rA rB imm16) := encI_mask _ _ _ _
theorem bge (rA rB : Reg) (imm16 : Imm16) : Statement (.bge rA rB imm16) := encI_mask _ _ _ _
theorem bgeu (rA rB : Reg) (imm16 : Imm16) : Statement (.bgeu rA rB imm16) := encI_mask _ _ _ _
theorem blt (rA rB : Reg) (imm16 : Imm16) : Statement (.blt rA rB imm16) := encI_mask _ _ _ _
theorem bltu (rA rB : Reg) (imm16 : Imm16) : Statement (.bltu rA rB imm16) := encI_mask _ _ _ _
theorem call (imm26 : Imm26) : Statement (.call imm26) := encJ_mask _ _
theorem jmpi (imm26 : Imm26) : Statement (.jmpi imm26) := encJ_mask _ _
theorem callr (rA : Reg) : Statement (.callr rA) := encR_mask _ _ _ _ _
theorem jmp (rA : Reg) : Statement (.jmp rA) := encR_mask _ _ _ _ _
theorem ret : Statement (.ret) := encR_mask _ _ _ _ _

end Sys2Proof.Laws.EncodeMatchesRow
end

