-- ==== Sys2Proof/Laws/Step.lean ====
section
/-! SUPPORT. What a step can do, said once: its inversion, and the effect of a decoded instruction, `divi` included. -/

namespace Sys2Proof.Machine

/-- A fetch changes nothing but the serial receive registers and the input queue. -/
theorem fetch_eq_ok {s u : State} {w : Word} (h : fetch s = .ok (w, u)) :
    u = { s with rx := u.rx, rrdy := u.rrdy, inq := u.inq } ∧ u.inq <:+ s.inq :=
  let ⟨_, e, hq, _⟩ := memRead_eq_ok h
  ⟨e, hq⟩

/-- If a step answers a next state, the core was not in `Idle` and the fetch succeeded; then the word was 0 and the core
halted, or it decoded and the instruction completed. -/
theorem step_eq_next {s t : State} (h : step s = .next t) : s.run ≠ .idle ∧ ∃ w u, fetch s.resetTags = .ok (w, u) ∧
    ((w = 0#32 ∧ t = { u with run := .halted }) ∨
      (w ≠ 0#32 ∧ ∃ d, s.cfg.decode w = .ok d ∧ ∃ v, execDecoded d u = .next v ∧ t = { v with run := .running })) := by
  unfold step cycle at h
  split at h
  · cases h
  rename_i hi
  split at h
  · cases h
  rename_i w u hf
  refine ⟨hi, w, u, hf, ?_⟩
  have hc : u.cfg = s.cfg := by rw [(fetch_eq_ok hf).1]; rfl
  unfold afterFetch at h
  split at h
  · exact .inl ⟨‹_›, by cases h; rfl⟩
  refine .inr ⟨‹_›, ?_⟩
  rw [hc] at h
  split at h
  · cases h
  rename_i d hd
  refine ⟨d, hd, ?_⟩
  unfold retire at h
  split at h
  · exact ⟨_, ‹_›, by cases h; rfl⟩
  · cases h
  · cases h

/-- The registers a decoded instruction reads. -/
def readsDecoded : Decoded → List Reg
  | .row i => reads i
  | .divi _ rA _ => [rA]

/-- The bytes a decoded instruction stores to. -/
def storeAtDecoded (s : State) : Decoded → List Word
  | .row i => storeAt s i
  | .divi _ _ _ => []

theorem execDecoded_effect {d : Decoded} {s t : State} (h : execDecoded d s = .next t) :
    Effect (readsDecoded d) (destDecoded d) (storeAtDecoded s d) s t := by
  cases d with
  | row i => exact exec_effect h
  | divi rB rA imm16 =>
    exact oneSourceChecked_effect (f := fun s a => signedQuotient s a (signedImm imm16)) (d := rB) (rA := rA) h

end Sys2Proof.Machine
end

