-- ==== Sys2Proof/Tests/Slice0.lean ====
section
/-! SUPPORT. Tests of the model on fixed values. Every expected value stands in the spec: the vectors V1 to V150 and the
scenarios of 95_test_vectors.md, or a word put together by hand from the tables of 30_encoding.md. The last part shows, for each
statement of Certificates/Slice0/Obligations.lean that has hypotheses, a state and operands that meet them. -/

open Sys2Proof Sys2Proof.Machine

namespace Sys2Proof.Tests

/-! ## Helpers -/

/-- The data bytes of 95_test_vectors.md section 2.7. -/
def dataBytes : List Byte := [0x78#8, 0x56#8, 0x34#8, 0x12#8, 0x80#8, 0xFF#8, 0x7F#8, 0x00#8]

/-- `CFG0` for the image of section 2.7: the word at 0x20000, a zero word, the data bytes; r2, r3 and r4 as given. -/
def bench (w x2 x3 x4 : Word) : State :=
  ((((loaded { bytes := wordBytes w ++ wordBytes 0#32 ++ dataBytes, start := 0x20000#32 }
    { State.reset with cfg := Config.cfg0 16 }).setReg 2#5 x2).setReg 3#5 x3).setReg 4#5 x4)

/-- The word at `pc = 0x20010` of an image of nine words (section 2.3), r2 and r3 as given. -/
def benchAt (w x2 x3 : Word) : State :=
  ((placeInstruction { State.reset with cfg := Config.cfg0 36, pc := 0x20010#32 } w).setReg 2#5 x2).setReg 3#5 x3

/-- The host state "H1" of section 2.8. -/
def h1 (s : State) : State :=
  feedSerialInput 0x42#8 (feedSerialInput 0x41#8 (pressButton 3 (toggleSwitch 2 (toggleSwitch 0 s))))

/-- A view of the next state, where there is one. -/
def after {α : Type} (f : State → α) : Result → Option α
  | .next s => some (f s)
  | _ => none

/-- Register 4 and the PC after a step. -/
def r4 (s : State) : Option (Word × Word) := after (fun t => (t.reg 4#5, t.pc)) (step s)

/-- The code, payload and failing PC of a step that faults. -/
def faultOf (s : State) : Option (Nat × Nat × Word) :=
  match step s with
  | .fault (.decodeError r w) => some (1, w.toNat, r.pc)
  | .fault (.registerError r i) => some (2, i.toNat, r.pc)
  | .fault (.memoryError r a) => some (3, a.toNat, r.pc)
  | .fault (.misalignedPC r t) => some (4, t.toNat, r.pc)
  | .fault (.divideByZero r) => some (5, 0, r.pc)
  | _ => none

/-- The eight data bytes of section 2.7. -/
def dataOf (s : State) : List Byte := (List.range 8).map (fun i => s.mem.read (0x20008 + i))

/-! ## Well-formed terms: the one ill-formed instruction is the one whose word is the halt sentinel (30_encoding.md R113) -/

theorem test_wellFormed_refuses_call_0 : (Instr.call 0#26).wellFormed = false := by decide
theorem test_wellFormed_call_1 : (Instr.call 1#26).wellFormed = true := by decide
theorem test_wellFormed_add : (Instr.add 0#5 0#5 0#5).wellFormed = true := by decide

/-! ## Decoding: one word for each row of the opcode table

The vector that gives the word is named after it; a word without a vector is put together by hand. -/

/-- V2. -/
theorem test_decode_add : decode 0x2007883A#32 = .ok (.add 3#5 4#5 0#5) := by decide
/-- V1. -/
theorem test_decode_addi : decode 0x00800144#32 = .ok (.addi 2#5 0#5 5#16) := by decide
/-- V19. -/
theorem test_decode_sub : decode 0x10C9C83A#32 = .ok (.sub 4#5 2#5 3#5) := by decide
/-- V21. -/
theorem test_decode_mul : decode 0x10C9383A#32 = .ok (.mul 4#5 2#5 3#5) := by decide
/-- V23. -/
theorem test_decode_muli : decode 0x113FFFA4#32 = .ok (.muli 4#5 2#5 0xFFFE#16) := by decide
/-- V24. -/
theorem test_decode_mulxss : decode 0x10C8F83A#32 = .ok (.mulxss 4#5 2#5 3#5) := by decide
/-- V26. -/
theorem test_decode_mulxsu : decode 0x10C8B83A#32 = .ok (.mulxsu 4#5 2#5 3#5) := by decide
/-- V27. -/
theorem test_decode_mulxuu : decode 0x10C8383A#32 = .ok (.mulxuu 4#5 2#5 3#5) := by decide
/-- V28. -/
theorem test_decode_div : decode 0x10C9283A#32 = .ok (.div 4#5 2#5 3#5) := by decide
/-- V33. -/
theorem test_decode_divu : decode 0x10C9203A#32 = .ok (.divu 4#5 2#5 3#5) := by decide
/-- V35. -/
theorem test_decode_and : decode 0x10C8703A#32 = .ok (.and 4#5 2#5 3#5) := by decide
/-- V39. -/
theorem test_decode_andi : decode 0x113FFFCC#32 = .ok (.andi 4#5 2#5 0xFFFF#16) := by decide
/-- V42. -/
theorem test_decode_andhi : decode 0x113FFFEC#32 = .ok (.andhi 4#5 2#5 0xFFFF#16) := by decide
/-- V36. -/
theorem test_decode_or : decode 0x10C8B03A#32 = .ok (.or 4#5 2#5 3#5) := by decide
/-- V40. -/
theorem test_decode_ori : decode 0x11200014#32 = .ok (.ori 4#5 2#5 0x8000#16) := by decide
/-- V43. -/
theorem test_decode_orhi : decode 0x01048D74#32 = .ok (.orhi 4#5 0#5 0x1235#16) := by decide
/-- V37. -/
theorem test_decode_xor : decode 0x10C8F03A#32 = .ok (.xor 4#5 2#5 3#5) := by decide
/-- V41. -/
theorem test_decode_xori : decode 0x113FFFDC#32 = .ok (.xori 4#5 2#5 0xFFFF#16) := by decide
/-- V44. -/
theorem test_decode_xorhi : decode 0x1120003C#32 = .ok (.xorhi 4#5 2#5 0x8000#16) := by decide
/-- V38. -/
theorem test_decode_nor : decode 0x10C8303A#32 = .ok (.nor 4#5 2#5 3#5) := by decide
/-- V69. -/
theorem test_decode_cmpeq : decode 0x10C9003A#32 = .ok (.cmpeq 4#5 2#5 3#5) := by decide
/-- V70. -/
theorem test_decode_cmpne : decode 0x10C8C03A#32 = .ok (.cmpne 4#5 2#5 3#5) := by decide
/-- V71. -/
theorem test_decode_cmpge : decode 0x10C8403A#32 = .ok (.cmpge 4#5 2#5 3#5) := by decide
/-- V72. -/
theorem test_decode_cmpgeu : decode 0x10C9403A#32 = .ok (.cmpgeu 4#5 2#5 3#5) := by decide
/-- V73. -/
theorem test_decode_cmplt : decode 0x10C8803A#32 = .ok (.cmplt 4#5 2#5 3#5) := by decide
/-- V74. -/
theorem test_decode_cmpltu : decode 0x10C9803A#32 = .ok (.cmpltu 4#5 2#5 3#5) := by decide
/-- V76. -/
theorem test_decode_cmpeqi : decode 0x11200020#32 = .ok (.cmpeqi 4#5 2#5 0x8000#16) := by decide
/-- V77. -/
theorem test_decode_cmpnei : decode 0x11000018#32 = .ok (.cmpnei 4#5 2#5 0#16) := by decide
/-- V78. -/
theorem test_decode_cmpgei : decode 0x111FFFC8#32 = .ok (.cmpgei 4#5 2#5 0x7FFF#16) := by decide
/-- V79. -/
theorem test_decode_cmpgeui : decode 0x11200028#32 = .ok (.cmpgeui 4#5 2#5 0x8000#16) := by decide
/-- V80. -/
theorem test_decode_cmplti : decode 0x11000010#32 = .ok (.cmplti 4#5 2#5 0#16) := by decide
/-- V81. -/
theorem test_decode_cmpltui : decode 0x113FFFF0#32 = .ok (.cmpltui 4#5 2#5 0xFFFF#16) := by decide
/-- V84. -/
theorem test_decode_sll : decode 0x10C8983A#32 = .ok (.sll 4#5 2#5 3#5) := by decide
/-- V4. -/
theorem test_decode_slli : decode 0x1008913A#32 = .ok (.slli 4#5 2#5 4#5) := by decide
/-- V88. -/
theorem test_decode_srl : decode 0x10C8D83A#32 = .ok (.srl 4#5 2#5 3#5) := by decide
/-- V89. -/
theorem test_decode_srli : decode 0x1008D7FA#32 = .ok (.srli 4#5 2#5 31#5) := by decide
/-- V90. -/
theorem test_decode_sra : decode 0x10C9D83A#32 = .ok (.sra 4#5 2#5 3#5) := by decide
/-- V91. -/
theorem test_decode_srai : decode 0x1009D07A#32 = .ok (.srai 4#5 2#5 1#5) := by decide
/-- V93. -/
theorem test_decode_rol : decode 0x10C8183A#32 = .ok (.rol 4#5 2#5 3#5) := by decide
/-- V95. -/
theorem test_decode_roli : decode 0x1008173A#32 = .ok (.roli 4#5 2#5 28#5) := by decide
/-- V96. -/
theorem test_decode_ror : decode 0x10C8583A#32 = .ok (.ror 4#5 2#5 3#5) := by decide
/-- V100. -/
theorem test_decode_ldw : decode 0x113FFE17#32 = .ok (.ldw 4#5 0xFFF8#16 2#5) := by decide
/-- V101. -/
theorem test_decode_ldh : decode 0x1100010F#32 = .ok (.ldh 4#5 4#16 2#5) := by decide
/-- V102. -/
theorem test_decode_ldhu : decode 0x1100010B#32 = .ok (.ldhu 4#5 4#16 2#5) := by decide
/-- V104. -/
theorem test_decode_ldb : decode 0x11000107#32 = .ok (.ldb 4#5 4#16 2#5) := by decide
/-- V105. -/
theorem test_decode_ldbu : decode 0x11000103#32 = .ok (.ldbu 4#5 4#16 2#5) := by decide
/-- V116. -/
theorem test_decode_stw : decode 0x11000195#32 = .ok (.stw 4#5 6#16 2#5) := by decide
/-- V114. -/
theorem test_decode_sth : decode 0x1100004D#32 = .ok (.sth 4#5 1#16 2#5) := by decide
/-- V115. -/
theorem test_decode_stb : decode 0x110001C5#32 = .ok (.stb 4#5 7#16 2#5) := by decide
/-- V118. -/
theorem test_decode_ldwio : decode 0x11000037#32 = .ok (.ldwio 4#5 0#16 2#5) := by decide
/-- OP 0x2F. -/
theorem test_decode_ldhio : decode 0x1100012F#32 = .ok (.ldhio 4#5 4#16 2#5) := by decide
/-- OP 0x2B. -/
theorem test_decode_ldhuio : decode 0x1100012B#32 = .ok (.ldhuio 4#5 4#16 2#5) := by decide
/-- OP 0x27. -/
theorem test_decode_ldbio : decode 0x11000127#32 = .ok (.ldbio 4#5 4#16 2#5) := by decide
/-- OP 0x23. -/
theorem test_decode_ldbuio : decode 0x11000123#32 = .ok (.ldbuio 4#5 4#16 2#5) := by decide
/-- OP 0x35. -/
theorem test_decode_stwio : decode 0x11000035#32 = .ok (.stwio 4#5 0#16 2#5) := by decide
/-- OP 0x2D. -/
theorem test_decode_sthio : decode 0x1100006D#32 = .ok (.sthio 4#5 1#16 2#5) := by decide
/-- V119. -/
theorem test_decode_stbio : decode 0x110001E5#32 = .ok (.stbio 4#5 7#16 2#5) := by decide
/-- V46. -/
theorem test_decode_br : decode 0x003FFF06#32 = .ok (.br 0xFFFC#16) := by decide
/-- V48. -/
theorem test_decode_beq : decode 0x10C00226#32 = .ok (.beq 2#5 3#5 8#16) := by decide
/-- V50. -/
theorem test_decode_bne : decode 0x10FFFB1E#32 = .ok (.bne 2#5 3#5 0xFFEC#16) := by decide
/-- V53. -/
theorem test_decode_bge : decode 0x10C0020E#32 = .ok (.bge 2#5 3#5 8#16) := by decide
/-- V54. -/
theorem test_decode_bgeu : decode 0x10C0022E#32 = .ok (.bgeu 2#5 3#5 8#16) := by decide
/-- V51. -/
theorem test_decode_blt : decode 0x10C00216#32 = .ok (.blt 2#5 3#5 8#16) := by decide
/-- V52. -/
theorem test_decode_bltu : decode 0x10C00236#32 = .ok (.bltu 2#5 3#5 8#16) := by decide
/-- V3. -/
theorem test_decode_call : decode 0x00200200#32 = .ok (.call 0x8008#26) := by decide
/-- V59. -/
theorem test_decode_jmpi : decode 0x002001C1#32 = .ok (.jmpi 0x8007#26) := by decide
/-- V60. -/
theorem test_decode_callr : decode 0x103EE83A#32 = .ok (.callr 2#5) := by decide
/-- V63. -/
theorem test_decode_jmp : decode 0x1000683A#32 = .ok (.jmp 2#5) := by decide
/-- V66. -/
theorem test_decode_ret : decode 0xF800283A#32 = .ok .ret := by decide

/-- V6: an R-format row with `IMM5` not 0. -/
theorem test_decode_imm5 : decode 0x2007887A#32 = .error (.imm5NotZero 1#5) := by decide
/-- V7, V9: an `OPX` of no row. -/
theorem test_decode_opx : decode 0x0000003A#32 = .error (.unassignedOpx 0#6) ∧
    decode 0x003B683A#32 = .error (.unassignedOpx 0x2D#6) := by decide
/-- V8, V10: an `OP` of no row. -/
theorem test_decode_op : decode 0x00000002#32 = .error (.unassignedOp 2#6) ∧
    decode 0xFFFFFFFF#32 = .error (.unassignedOp 0x3F#6) := by decide
/-- V67: `ret` with `rA = 0`. -/
theorem test_decode_ret_field : decode 0x0000283A#32 = .ok .ret := by decide
/-- V1, V2, V12: the encoder, on an I-, an R- and a J-format instruction. -/
theorem test_encode : encode (.addi 2#5 0#5 5#16) = 0x00800144#32 ∧ encode (.add 3#5 4#5 0#5) = 0x2007883A#32 ∧
    encode (.call 1#26) = 0x00000040#32 := by decide
/-- The host's question, on the row `add` of opcode_table.json. -/
theorem test_decodeTableWord : decodeTableWord 32 0x2007883A = some (.add 3#5 4#5 0#5) := by decide

/-! ## Arithmetic, logic, comparisons, shifts: x4 and the PC after one step (95_test_vectors.md 2.2, 2.5, 2.6) -/

theorem test_V13_add : r4 (bench 0x10C9883A#32 0x7FFFFFFF#32 0x1#32 0#32) = some (0x80000000#32, 0x20004#32) := by decide
theorem test_V17_addi : r4 (bench 0x113FFFC4#32 0#32 0#32 0#32) = some (0xFFFFFFFF#32, 0x20004#32) := by decide
theorem test_V18_addi : r4 (bench 0x111FFFC4#32 0x7FFFFFFF#32 0#32 0#32) = some (0x80007FFE#32, 0x20004#32) := by decide
theorem test_V19_sub : r4 (bench 0x10C9C83A#32 0#32 0x1#32 0#32) = some (0xFFFFFFFF#32, 0x20004#32) := by decide
theorem test_V20_sub : r4 (bench 0x10C9C83A#32 0x80000000#32 0x1#32 0#32) = some (0x7FFFFFFF#32, 0x20004#32) := by decide
theorem test_V21_mul : r4 (bench 0x10C9383A#32 0x00010000#32 0x00010000#32 0#32) = some (0#32, 0x20004#32) := by decide
theorem test_V22_mul : r4 (bench 0x10C9383A#32 0xFFFFFFFF#32 0xFFFFFFFF#32 0#32) = some (0x1#32, 0x20004#32) := by decide
theorem test_V23_muli : r4 (bench 0x113FFFA4#32 0x3#32 0#32 0#32) = some (0xFFFFFFFA#32, 0x20004#32) := by decide
theorem test_V24_mulxss : r4 (bench 0x10C8F83A#32 0xFFFFFFFF#32 0xFFFFFFFF#32 0#32) = some (0#32, 0x20004#32) := by decide
theorem test_V25_mulxss : r4 (bench 0x10C8F83A#32 0x80000000#32 0x80000000#32 0#32) = some (0x40000000#32, 0x20004#32) := by decide
theorem test_V26_mulxsu : r4 (bench 0x10C8B83A#32 0xFFFFFFFF#32 0xFFFFFFFF#32 0#32) = some (0xFFFFFFFF#32, 0x20004#32) := by decide
theorem test_V27_mulxuu : r4 (bench 0x10C8383A#32 0xFFFFFFFF#32 0xFFFFFFFF#32 0#32) = some (0xFFFFFFFE#32, 0x20004#32) := by decide
theorem test_V31_div : r4 (bench 0x10C9283A#32 0x80000000#32 0xFFFFFFFF#32 0#32) = some (0x80000000#32, 0x20004#32) := by decide
theorem test_V33_divu : r4 (bench 0x10C9203A#32 0xFFFFFFF9#32 0x2#32 0#32) = some (0x7FFFFFFC#32, 0x20004#32) := by decide
theorem test_V35_and : r4 (bench 0x10C8703A#32 0xFF00FF00#32 0x0FF00FF0#32 0#32) = some (0x0F000F00#32, 0x20004#32) := by decide
theorem test_V36_or : r4 (bench 0x10C8B03A#32 0xFF00FF00#32 0x0FF00FF0#32 0#32) = some (0xFFF0FFF0#32, 0x20004#32) := by decide
theorem test_V37_xor : r4 (bench 0x10C8F03A#32 0xFF00FF00#32 0x0FF00FF0#32 0#32) = some (0xF0F0F0F0#32, 0x20004#32) := by decide
theorem test_V38_nor : r4 (bench 0x10C8303A#32 0xFF00FF00#32 0x0FF00FF0#32 0#32) = some (0x000F000F#32, 0x20004#32) := by decide
theorem test_V39_andi : r4 (bench 0x113FFFCC#32 0x12345678#32 0#32 0#32) = some (0x00005678#32, 0x20004#32) := by decide
theorem test_V40_ori : r4 (bench 0x11200014#32 0x12340000#32 0#32 0#32) = some (0x12348000#32, 0x20004#32) := by decide
theorem test_V41_xori : r4 (bench 0x113FFFDC#32 0x12345678#32 0#32 0#32) = some (0x1234A987#32, 0x20004#32) := by decide
theorem test_V42_andhi : r4 (bench 0x113FFFEC#32 0x12345678#32 0#32 0#32) = some (0x12340000#32, 0x20004#32) := by decide
theorem test_V43_orhi : r4 (bench 0x01048D74#32 0#32 0#32 0#32) = some (0x12350000#32, 0x20004#32) := by decide
theorem test_V44_xorhi : r4 (bench 0x1120003C#32 0x12345678#32 0#32 0#32) = some (0x92345678#32, 0x20004#32) := by decide
theorem test_V69_cmpeq : r4 (bench 0x10C9003A#32 0x80000000#32 0x80000000#32 0#32) = some (0x1#32, 0x20004#32) := by decide
theorem test_V70_cmpne : r4 (bench 0x10C8C03A#32 0#32 0x80000000#32 0#32) = some (0x1#32, 0x20004#32) := by decide
theorem test_V71_cmpge : r4 (bench 0x10C8403A#32 0x80000000#32 0x7FFFFFFF#32 0#32) = some (0#32, 0x20004#32) := by decide
theorem test_V72_cmpgeu : r4 (bench 0x10C9403A#32 0x80000000#32 0x7FFFFFFF#32 0#32) = some (0x1#32, 0x20004#32) := by decide
theorem test_V73_cmplt : r4 (bench 0x10C8803A#32 0x80000000#32 0#32 0#32) = some (0x1#32, 0x20004#32) := by decide
theorem test_V74_cmpltu : r4 (bench 0x10C9803A#32 0x80000000#32 0#32 0#32) = some (0#32, 0x20004#32) := by decide
theorem test_V76_cmpeqi : r4 (bench 0x11200020#32 0xFFFF8000#32 0#32 0#32) = some (0x1#32, 0x20004#32) := by decide
theorem test_V77_cmpnei : r4 (bench 0x11000018#32 0#32 0#32 0#32) = some (0#32, 0x20004#32) := by decide
theorem test_V78_cmpgei : r4 (bench 0x111FFFC8#32 0x00007FFF#32 0#32 0#32) = some (0x1#32, 0x20004#32) := by decide
theorem test_V79_cmpgeui : r4 (bench 0x11200028#32 0x00007FFF#32 0#32 0#32) = some (0#32, 0x20004#32) := by decide
theorem test_V80_cmplti : r4 (bench 0x11000010#32 0x80000000#32 0#32 0#32) = some (0x1#32, 0x20004#32) := by decide
theorem test_V81_cmpltui : r4 (bench 0x113FFFF0#32 0x80000000#32 0#32 0#32) = some (0#32, 0x20004#32) := by decide
theorem test_V84_sll : r4 (bench 0x10C8983A#32 0x1#32 0x1F#32 0#32) = some (0x80000000#32, 0x20004#32) := by decide
theorem test_V85_sll : r4 (bench 0x10C8983A#32 0x1#32 0x20#32 0#32) = some (0x1#32, 0x20004#32) := by decide
theorem test_V4_slli : r4 (bench 0x1008913A#32 0x3#32 0#32 0#32) = some (0x30#32, 0x20004#32) := by decide
theorem test_V88_srl : r4 (bench 0x10C8D83A#32 0x80000000#32 0x1F#32 0#32) = some (0x1#32, 0x20004#32) := by decide
theorem test_V89_srli : r4 (bench 0x1008D7FA#32 0xFFFFFFFF#32 0#32 0#32) = some (0x1#32, 0x20004#32) := by decide
theorem test_V90_sra : r4 (bench 0x10C9D83A#32 0x80000000#32 0x1F#32 0#32) = some (0xFFFFFFFF#32, 0x20004#32) := by decide
theorem test_V91_srai : r4 (bench 0x1009D07A#32 0xFFFFFFF9#32 0#32 0#32) = some (0xFFFFFFFC#32, 0x20004#32) := by decide
theorem test_V93_rol : r4 (bench 0x10C8183A#32 0x80000001#32 0x1#32 0#32) = some (0x3#32, 0x20004#32) := by decide
theorem test_V94_rol : r4 (bench 0x10C8183A#32 0x12345678#32 0x20#32 0#32) = some (0x12345678#32, 0x20004#32) := by decide
theorem test_V95_roli : r4 (bench 0x1008173A#32 0x12345678#32 0#32 0#32) = some (0x81234567#32, 0x20004#32) := by decide
theorem test_V96_ror : r4 (bench 0x10C8583A#32 0x80000001#32 0x1#32 0#32) = some (0xC0000000#32, 0x20004#32) := by decide
theorem test_V97_ror : r4 (bench 0x10C8583A#32 0x12345678#32 0#32 0#32) = some (0x12345678#32, 0x20004#32) := by decide
/-- V15: a discarded write. -/
theorem test_V15_add_r0 : after (fun t => (t.reg 0#5, t.pc)) (step (bench 0x10C1883A#32 5#32 6#32 0#32)) =
    some (0#32, 0x20004#32) := by decide
/-- V32: nothing is written, the PC stays. -/
theorem test_V32_div : faultOf (bench 0x10C9283A#32 7#32 0#32 0xAAAAAAAA#32) = some (5, 0, 0x20000#32) := by decide
theorem test_V34_divu : faultOf (bench 0x10C9203A#32 1#32 0#32 0#32) = some (5, 0, 0x20000#32) := by decide
/-- `divi r4, r2, -2` (7 / -2 = -3) on a machine with `HAS_DIVI` and `OP_DIVI = 0x3E`; without it the word is illegal. -/
theorem test_divi : r4 { bench 0x113FFFBE#32 7#32 0#32 0#32 with cfg := { Config.cfg0 16 with divi := some 0x3E#6 } } =
    some (0xFFFFFFFD#32, 0x20004#32) := by decide
theorem test_no_divi : faultOf (bench 0x113FFFBE#32 7#32 0#32 0#32) = some (1, 0x113FFFBE, 0x20000#32) := by decide

/-! ## Loads and stores to RAM (95_test_vectors.md 2.7) -/

theorem test_V98_ldw : r4 (bench 0x11000017#32 0x20008#32 0#32 0#32) = some (0x12345678#32, 0x20004#32) := by decide
theorem test_V99_ldw_misaligned : r4 (bench 0x11000057#32 0x20008#32 0#32 0#32) = some (0x80123456#32, 0x20004#32) := by decide
theorem test_V101_ldh : r4 (bench 0x1100010F#32 0x20008#32 0#32 0#32) = some (0xFFFFFF80#32, 0x20004#32) := by decide
theorem test_V103_ldh_misaligned : r4 (bench 0x110000CF#32 0x20008#32 0#32 0#32) = some (0xFFFF8012#32, 0x20004#32) := by decide
theorem test_V102_ldhu : r4 (bench 0x1100010B#32 0x20008#32 0#32 0#32) = some (0x0000FF80#32, 0x20004#32) := by decide
theorem test_V104_ldb : r4 (bench 0x11000107#32 0x20008#32 0#32 0#32) = some (0xFFFFFF80#32, 0x20004#32) := by decide
theorem test_V105_ldbu : r4 (bench 0x11000103#32 0x20008#32 0#32 0#32) = some (0x80#32, 0x20004#32) := by decide
theorem test_V118_ldwio : r4 (bench 0x11000037#32 0x20008#32 0#32 0#32) = some (0x12345678#32, 0x20004#32) := by decide
theorem test_ldhio : r4 (bench 0x1100012F#32 0x20008#32 0#32 0#32) = some (0xFFFFFF80#32, 0x20004#32) := by decide
theorem test_ldhuio : r4 (bench 0x1100012B#32 0x20008#32 0#32 0#32) = some (0x0000FF80#32, 0x20004#32) := by decide
theorem test_ldbio : r4 (bench 0x11000127#32 0x20008#32 0#32 0#32) = some (0xFFFFFF80#32, 0x20004#32) := by decide
theorem test_ldbuio : r4 (bench 0x11000123#32 0x20008#32 0#32 0#32) = some (0x80#32, 0x20004#32) := by decide
theorem test_V113_stw : after dataOf (step (bench 0x11000015#32 0x20008#32 0#32 0xA1B2C3D4#32)) =
    some [0xD4#8, 0xC3#8, 0xB2#8, 0xA1#8, 0x80#8, 0xFF#8, 0x7F#8, 0x00#8] := by decide
theorem test_V114_sth : after dataOf (step (bench 0x1100004D#32 0x20008#32 0#32 0xA1B2C3D4#32)) =
    some [0x78#8, 0xD4#8, 0xC3#8, 0x12#8, 0x80#8, 0xFF#8, 0x7F#8, 0x00#8] := by decide
theorem test_V115_stb : after dataOf (step (bench 0x110001C5#32 0x20008#32 0#32 0xA1B2C3D4#32)) =
    some [0x78#8, 0x56#8, 0x34#8, 0x12#8, 0x80#8, 0xFF#8, 0x7F#8, 0xD4#8] := by decide
theorem test_stwio : after dataOf (step (bench 0x11000035#32 0x20008#32 0#32 0xA1B2C3D4#32)) =
    some [0xD4#8, 0xC3#8, 0xB2#8, 0xA1#8, 0x80#8, 0xFF#8, 0x7F#8, 0x00#8] := by decide
theorem test_sthio : after dataOf (step (bench 0x1100006D#32 0x20008#32 0#32 0xA1B2C3D4#32)) =
    some [0x78#8, 0xD4#8, 0xC3#8, 0x12#8, 0x80#8, 0xFF#8, 0x7F#8, 0x00#8] := by decide
theorem test_V119_stbio : after dataOf (step (bench 0x110001E5#32 0x20008#32 0#32 0xA1B2C3D4#32)) =
    some [0x78#8, 0x56#8, 0x34#8, 0x12#8, 0x80#8, 0xFF#8, 0x7F#8, 0xD4#8] := by decide
/-- V108, V111, V116: the lowest byte that no block holds. -/
theorem test_V108_ldw : faultOf (bench 0x11000157#32 0x20008#32 0#32 0x55555555#32) = some (3, 0x20010, 0x20000#32) := by
  decide
theorem test_V111_ldbu : faultOf (bench 0x113FFFC3#32 0#32 0#32 0#32) = some (3, 0xFFFFFFFF, 0x20000#32) := by decide
theorem test_V116_stw : faultOf (bench 0x11000195#32 0x20008#32 0#32 0xA1B2C3D4#32) = some (3, 0x20010, 0x20000#32) := by
  decide

/-! ## Control transfer (95_test_vectors.md 2.3, 2.4): the PC and r31 after one step -/

theorem test_V46_br : after (fun t => (t.pc, t.reg 31#5)) (step (benchAt 0x003FFF06#32 0#32 0#32)) =
    some (0x20010#32, 0#32) := by decide
theorem test_V48_beq : after (fun t => (t.pc, t.reg 31#5)) (step (benchAt 0x10C00226#32 0x7#32 0x7#32)) =
    some (0x2001C#32, 0#32) := by decide
theorem test_V50_bne : after (fun t => (t.pc, t.reg 31#5)) (step (benchAt 0x10FFFB1E#32 0x1#32 0#32)) =
    some (0x20000#32, 0#32) := by decide
theorem test_V51_blt : after (fun t => (t.pc, t.reg 31#5)) (step (benchAt 0x10C00216#32 0xFFFFFFFF#32 0#32)) =
    some (0x2001C#32, 0#32) := by decide
theorem test_V52_bltu : after (fun t => (t.pc, t.reg 31#5)) (step (benchAt 0x10C00236#32 0xFFFFFFFF#32 0#32)) =
    some (0x20014#32, 0#32) := by decide
theorem test_V53_bge : after (fun t => (t.pc, t.reg 31#5)) (step (benchAt 0x10C0020E#32 0#32 0xFFFFFFFF#32)) =
    some (0x2001C#32, 0#32) := by decide
theorem test_V54_bgeu : after (fun t => (t.pc, t.reg 31#5)) (step (benchAt 0x10C0022E#32 0xFFFFFFFF#32 0#32)) =
    some (0x2001C#32, 0#32) := by decide
theorem test_V56_beq_misaligned_not_taken : after (fun t => (t.pc, t.reg 31#5)) (step (benchAt 0x10C001A6#32 0x1#32 0x2#32)) =
    some (0x20014#32, 0#32) := by decide
theorem test_V58_call : after (fun t => (t.pc, t.reg 31#5)) (step (benchAt 0x00200000#32 0#32 0#32)) =
    some (0x20000#32, 0x20014#32) := by decide
theorem test_V12_call : after (fun t => (t.pc, t.reg 31#5)) (step (benchAt 0x00000040#32 0#32 0#32)) =
    some (0x4#32, 0x20014#32) := by decide
theorem test_V59_jmpi : after (fun t => (t.pc, t.reg 31#5)) (step (benchAt 0x002001C1#32 0#32 0#32)) =
    some (0x2001C#32, 0#32) := by decide
theorem test_V63_jmp : after (fun t => (t.pc, t.reg 31#5)) (step (benchAt 0x1000683A#32 0x2001C#32 0#32)) =
    some (0x2001C#32, 0#32) := by decide
theorem test_V65_jmp : after (fun t => (t.pc, t.reg 31#5)) (step (benchAt 0x1000683A#32 0x100#32 0#32)) =
    some (0x100#32, 0#32) := by decide
theorem test_V55_br : faultOf (benchAt 0x00000186#32 0#32 0#32) = some (4, 0x2001A, 0x20010#32) := by decide
theorem test_V61_callr : faultOf (benchAt 0x103EE83A#32 0x20002#32 0#32) = some (4, 0x20002, 0x20010#32) := by decide
/-- V62: the old value of r31 is the target. -/
theorem test_V62_callr : after (fun t => (t.pc, t.reg 31#5)) (step ((benchAt 0xF83EE83A#32 0#32 0#32).setReg 31#5 0x20000#32)) =
    some (0x20000#32, 0x20014#32) := by decide
theorem test_V66_ret : after (fun t => t.pc) (step ((benchAt 0xF800283A#32 0#32 0#32).setReg 31#5 0x20008#32)) =
    some 0x20008#32 := by decide
theorem test_V68_ret : faultOf ((benchAt 0xF800283A#32 0#32 0#32).setReg 31#5 0x20003#32) =
    some (4, 0x20003, 0x20010#32) := by decide

/-! ## Devices (95_test_vectors.md 2.8) -/

theorem test_V120_led : after (fun t => (t.led, t.trace)) (step (bench 0x11000015#32 0x810#32 0#32 0x1F#32)) =
    some (0xF#4, [.ledUpdate 0xF#4]) := by decide
theorem test_V122_led : after (fun t => (t.led, t.trace)) (step (bench 0x11000005#32 0x810#32 0#32 0xF0#32)) =
    some (0#4, [.ledUpdate 0#4]) := by decide
theorem test_V123_led : after (fun t => (t.led, t.trace)) (step (bench 0x11000045#32 0x810#32 0#32 0xFF#32)) =
    some (0#4, []) := by decide
theorem test_V125_led : faultOf (bench 0x110000CD#32 0x810#32 0#32 0xFFFF#32) = some (3, 0x814, 0x20000#32) := by decide
theorem test_V126_dip : r4 (h1 (bench 0x11000003#32 0x850#32 0#32 0#32)) = some (5#32, 0x20004#32) := by decide
theorem test_V129_dip : faultOf (bench 0x113FFF95#32 0x850#32 0#32 0#32) = some (3, 0x84E, 0x20000#32) := by decide
theorem test_V130_btn : r4 (h1 (bench 0x11000003#32 0x840#32 0#32 0#32)) = some (8#32, 0x20004#32) := by decide
theorem test_V131_btn : faultOf (bench 0x110000C5#32 0x840#32 0#32 0#32) = some (3, 0x843, 0x20000#32) := by decide

/-- What a step leaves of the serial block, and x4. -/
structure SerialView where
  x4 : Word
  rx : Byte
  tx : Byte
  rrdy : Bool
  inq : List Byte
  trace : List OutputEvent
  deriving DecidableEq, Repr

def serialOf (t : State) : SerialView := ⟨t.reg 4#5, t.rx, t.tx, t.rrdy, t.inq, t.trace⟩

theorem test_V132_status : after serialOf (step (bench 0x11000203#32 0x860#32 0#32 0#32)) =
    some ⟨0x40#32, 0#8, 0#8, false, [], []⟩ := by decide
theorem test_V133_status : after serialOf (step (h1 (bench 0x11000203#32 0x860#32 0#32 0#32))) =
    some ⟨0xC0#32, 0x41#8, 0#8, true, [0x42#8], []⟩ := by decide
theorem test_V134_receive : after serialOf (step (h1 (bench 0x11000003#32 0x860#32 0#32 0#32))) =
    some ⟨0x41#32, 0x41#8, 0#8, false, [0x42#8], []⟩ := by decide
theorem test_V135_receive : after serialOf (step (h1 (bench 0x11000017#32 0x860#32 0#32 0#32))) =
    some ⟨0x41#32, 0x42#8, 0#8, true, [], []⟩ := by decide
theorem test_V137_transmit : after serialOf (step (h1 (bench 0x11000105#32 0x860#32 0#32 0x141#32))) =
    some ⟨0x141#32, 0x41#8, 0x41#8, true, [0x42#8], [.serialOut 0x41#8]⟩ := by decide
theorem test_V138_transmit : after serialOf (step (bench 0x11000115#32 0x860#32 0#32 0x11223344#32)) =
    some ⟨0x11223344#32, 0#8, 0x44#8, false, [], [.serialOut 0x44#8]⟩ := by decide
theorem test_V139_receive : after serialOf (step (h1 (bench 0x11000005#32 0x860#32 0#32 0xEE#32))) =
    some ⟨0xEE#32, 0x41#8, 0#8, true, [0x42#8], []⟩ := by decide
theorem test_V142_serial : faultOf (h1 (bench 0x11000297#32 0x860#32 0#32 0#32)) = some (3, 0x86C, 0x20000#32) := by decide

/-! ## The step, tags, the host's commands (95_test_vectors.md 2.9) -/

/-- V5: the halt sentinel. -/
theorem test_V5_halt : after (fun t => (t.run, t.pc)) (step (bench 0#32 0#32 0#32 0#32)) =
    some (.halted, 0x20000#32) := by decide
/-- V6: the fault carries the whole word. -/
theorem test_V6_illegal : faultOf (bench 0x2007887A#32 0#32 0#32 0#32) = some (1, 0x2007887A, 0x20000#32) := by decide
/-- V11: `nop`. -/
theorem test_V11_nop : after (fun t => (t.pc, t.run, t.regs)) (step (bench 0x0001883A#32 1#32 2#32 3#32)) =
    some (0x20004#32, .running, (bench 0x0001883A#32 1#32 2#32 3#32).regs) := by decide
/-- V143: the fetch behind a foreign image. -/
theorem test_V143_fetch : faultOf { State.reset with pc := 0x20004#32 } = some (3, 0x20004, 0x20004#32) := by decide
/-- V144: an `ENTRY` that is not a multiple of 4. -/
theorem test_V144_load : hostLoad { bytes := [0#8], start := 0x20000#32 }
    { State.reset with cfg := { Config.cfg0 4 with entry := 0x20002#32 } } = .refused .entryMisaligned := by rfl
/-- In `Idle` a run is refused, under a bound of 0 too (10_state.md R30). -/
theorem test_run_in_idle_refused : hostRun { State.reset with run := .idle, cfg := { Config.cfg0 4 with runLimit := some 0 } }
    { State.reset with run := .idle, cfg := { Config.cfg0 4 with runLimit := some 0 } } (.refused .noImageLoaded) :=
  (if_pos rfl).mpr ⟨rfl, rfl⟩
/-- V145: the tags of `add r4, r2, r3`. -/
theorem test_V145_tags : after (fun t => (t.tag 1#5, t.tag 2#5, t.tag 3#5, t.tag 4#5))
    (step (bench 0x10C9883A#32 0#32 0#32 0#32)) = some (.untouched, .read, .read, .write) := by decide
/-- V146, V147: disabled registers. -/
theorem test_V146_disabled : faultOf ((bench 0x10C9883A#32 1#32 2#32 0#32).setTag 4#5 .disabled) =
    some (2, 4, 0x20000#32) := by decide
theorem test_V147_disabled : faultOf ((bench 0x10C9283A#32 1#32 0#32 0#32).setTag 3#5 .disabled) =
    some (2, 3, 0x20000#32) := by decide
/-- V149: a step before any load. -/
theorem test_V149_idle : step { State.reset with run := .idle } = .refused .noImageLoaded := by rfl
/-- `State.reset` is what `load` of the empty program's image leaves (10_state.md R41, notes/assumptions/2.md). -/
theorem test_reset_is_loaded : hostLoad { bytes := [0#8, 0#8, 0#8, 0#8], start := 0x20000#32 } State.reset =
    .next State.reset := by rfl
/-- 10_state.md R42: `reset` undoes a store. -/
theorem test_reset_restores :
    hostReset { bench 0#32 9#32 9#32 9#32 with mem := [], pc := 0#32, led := 3#4, run := .halted } =
      .next (bench 0#32 0#32 0#32 0#32) := by rfl
/-- Scenario A: the first `step()` executes. -/
theorem test_scenarioA : (hostStep (bench 0x00800144#32 0#32 0#32 0#32)).2 = .executed ∧
    (hostStep (bench 0x00800144#32 0#32 0#32 0#32)).1.reg 2#5 = 5#32 := by decide
/-- The host reads memory without side effects (20_memory.md R89), and is refused at an unmapped byte. -/
theorem test_inspect : inspectMemory (h1 (bench 0#32 0#32 0#32 0#32)) 0x860#32 .byte = .value 0#32 ∧
    inspectMemory (bench 0#32 0#32 0#32 0#32) 0x2000E#32 .word = .unmapped 0x20010#32 := by decide
/-- The instruction at the PC runs as the first one after reset. -/
theorem test_withFetchWord : after (fun t => (t.reg 2#5, t.pc)) (step (State.reset.withFetchWord 32 0x00800144)) =
    some (5#32, 0x20004#32) := by decide

/-! ## The assembler (95_test_vectors.md S1, S4, scenarios B and C, program P1) -/

/-- S1: `1+2*3` and `6&3*2` under the source's tiers. -/
theorem test_S1_tiers : (Expr.chain (.lit 1#64) .add (.chain (.lit 2#64) .mul (.lit 3#64))).eval = .ok 7#64 ∧
    (Expr.chain (.lit 6#64) .and (.chain (.lit 3#64) .mul (.lit 2#64))).eval = .ok 4#64 := by decide
/-- S1: `8-2-1` and `1+1<<2`. -/
theorem test_S1_left : (Expr.chain (.lit 8#64) .sub (.chain (.lit 2#64) .sub (.lit 1#64))).eval = .ok 5#64 ∧
    (Expr.chain (.lit 1#64) .add (.chain (.lit 1#64) .shl (.lit 2#64))).eval = .ok 5#64 := by decide
/-- S1: the relocation operators. -/
theorem test_S1_reloc : relocLo 0x12348000#64 = 0x8000#64 ∧ relocHi 0x12348000#64 = 0x1234#64 ∧
    relocHiadj 0x12348000#64 = 0x1235#64 := by decide
/-- S4: a field keeps the low bits of its value. -/
theorem test_S4_mask : encode (.addi 2#5 0#5 (linkImm16 0x12345#64)) = 0x0088D144#32 := by decide
/-- Scenario B: `br end` at 0x20000 to 0x20008. -/
theorem test_scenarioB : encode (.br (linkBranch 0x20000#32 0x20008#64)) = 0x00000106#32 := by decide
/-- Scenario C: `mov r3, r4`. -/
theorem test_scenarioC : (Pseudo.expand 0#32 (.mov 3#5 4#5)).map encode = [0x2007883A#32] := by decide
/-- V58: `call 0x20000`. -/
theorem test_linkJump : encode (.call (linkJump 0x20000#64)) = 0x00200000#32 := by decide
/-- Program P1: its image. -/
theorem test_P1_image : (buildImage (Config.cfg0 24) 0x20000#32 [.row (.addi 2#5 0#5 5#16), .row (.addi 3#5 0#5 0#16),
      .row (.add 3#5 3#5 2#5), .row (.addi 2#5 2#5 0xFFFF#16),
      .row (.bne 2#5 0#5 (linkBranch 0x20010#32 0x20008#64))] []).map (fun img => img.bytes) = some
    [0x44#8, 0x01#8, 0x80#8, 0x00#8, 0x04#8, 0x00#8, 0xC0#8, 0x00#8, 0x3A#8, 0x88#8, 0x87#8, 0x18#8, 0xC4#8, 0xFF#8, 0xBF#8,
      0x10#8, 0x1E#8, 0xFD#8, 0x3F#8, 0x10#8, 0#8, 0#8, 0#8, 0#8] := by decide
/-- `divi r4, r2, -2` in an image: its word where the machine has it, no image where it does not. -/
theorem test_image_divi : (buildImage { Config.cfg0 8 with divi := some 0x3E#6 } 0x20000#32 [.divi 4#5 2#5 0xFFFE#16] []).map
      (fun img => img.bytes) = some [0xBE#8, 0xFF#8, 0x3F#8, 0x11#8, 0#8, 0#8, 0#8, 0#8] ∧
    buildImage (Config.cfg0 8) 0x20000#32 [.divi 4#5 2#5 0xFFFE#16] [] = none := by decide

/-! ## Witnesses: for each statement with hypotheses, a state and operands that meet them

`rig` is `bench` with some word of RAM listed; every register of it is enabled. -/

/-- A bench whose instruction is `add r4, r2, r3`. -/
def rig (x2 x3 : Word) : State := bench 0x10C9883A#32 x2 x3 0xA1B2C3D4#32

theorem rig_enabled (x2 x3 : Word) (rs : List Reg) : Enabled (rig x2 x3) rs := by
  intro r _
  have h : (rig x2 x3).tags = Vector.replicate 32 Tag.untouched := rfl
  simp [State.tag, h]

theorem inRam_of {cfg : Config} {a : Word} {n : Nat}
    (h : ∀ i, i < n → (resolve cfg (a + BitVec.ofNat 32 i)).map (fun b => b.kind) = some .ram) : InRam cfg a n := by
  intro i hi
  obtain ⟨b, hb, hk⟩ := Option.map_eq_some_iff.mp (h i hi)
  exact ⟨b, hb, hk⟩

theorem rig_inv (x2 x3 : Word) : MachineInv (rig x2 x3) := by
  refine ⟨?_, ?_, rfl, show (0x20000#32 : Word).toNat % 4 = 0 by decide, ?_⟩
  · show Memory.WF (rig 0#32 0#32).mem; decide
  · show ∀ c ∈ (rig 0#32 0#32).mem, c.1 < 2 ^ 32 ∧ InRam (Config.cfg0 16) (BitVec.ofNat 32 c.1) 1
    have h : ∀ c ∈ (rig 0#32 0#32).mem, c.1 < 2 ^ 32 ∧ ∀ i, i < 1 →
        (resolve (Config.cfg0 16) (BitVec.ofNat 32 c.1 + BitVec.ofNat 32 i)).map (fun b => b.kind) = some .ram := by decide
    exact fun c hc => ⟨(h c hc).1, inRam_of (h c hc).2⟩
  · intro r
    have h : (rig x2 x3).tags = Vector.replicate 32 Tag.untouched := rfl
    have h' : (rig x2 x3).cfg.disabled = [] := rfl
    simp [State.tag, h, h']

theorem rig_fetch (x2 x3 : Word) : InRam (rig x2 x3).cfg (rig x2 x3).pc 4 := by
  show InRam (Config.cfg0 16) 0x20000#32 4
  exact inRam_of (by decide)

/-- The device block of `CFG0` at `start`. -/
theorem inDevice_of {cfg : Config} {a : Word} {k : BlockKind} {off : Nat} (b : Block) (h : resolve cfg a = some b)
    (hk : b.kind = k) (ho : a.toNat = b.start + off) : InDevice cfg a k off := ⟨b, h, hk, ho⟩

/-! ### Encoding -/

theorem test_witness_DecodeInvertsEncode : (Instr.call 0x3FFFFFF#26).wellFormed = true := by decide
theorem test_witness_RowsAreDisjoint : 0x2007883A#32 &&& Row.add.mask = Row.add.pattern := by decide
theorem test_witness_DecoderFollowsTable : decode 0x2007883A#32 = .ok (.add 3#5 4#5 0#5) ∧
    0x2007883A#32 &&& Row.add.mask = Row.add.pattern := by decide

/-! ### Arithmetic, logic, comparisons, shifts: the registers are enabled, the destination r0 among them -/

theorem test_witness_SumsAndDifferences : Enabled (rig 0#32 1#32) [2#5, 3#5, 0#5] := rig_enabled _ _ _
theorem test_witness_LowProducts : Enabled (rig 0#32 1#32) [2#5, 3#5, 4#5] := rig_enabled _ _ _
theorem test_witness_HighProducts : Enabled (rig 0x80000000#32 1#32) [2#5, 3#5, 4#5] := rig_enabled _ _ _
theorem test_witness_BitwiseResults : Enabled (rig 0#32 1#32) [2#5, 3#5, 4#5] := rig_enabled _ _ _
theorem test_witness_RegisterComparisons : Enabled (rig 0x80000000#32 1#32) [2#5, 3#5, 4#5] := rig_enabled _ _ _
theorem test_witness_ImmediateComparisons : Enabled (rig 0x80000000#32 1#32) [2#5, 4#5] := rig_enabled _ _ _
theorem test_witness_ShiftResults : Enabled (rig 0#32 31#32) [2#5, 3#5, 4#5] := rig_enabled _ _ _
theorem test_witness_RotateResults : Enabled (rig 0#32 32#32) [2#5, 3#5, 4#5] := rig_enabled _ _ _

theorem test_witness_SignedDivide_zero : Enabled (rig 7#32 0#32) [2#5, 3#5] ∧ (rig 7#32 0#32).reg 3#5 = 0#32 :=
  ⟨rig_enabled _ _ _, rfl⟩
theorem test_witness_SignedDivide_overflow : Enabled (rig 0x80000000#32 0xFFFFFFFF#32) [2#5, 3#5] ∧
    (rig 0x80000000#32 0xFFFFFFFF#32).reg 3#5 ≠ 0#32 ∧ (rig 0x80000000#32 0xFFFFFFFF#32).tag 4#5 ≠ .disabled ∧
    ((rig 0x80000000#32 0xFFFFFFFF#32).reg 2#5).toInt = -2147483648 ∧
    ((rig 0x80000000#32 0xFFFFFFFF#32).reg 3#5).toInt = -1 := ⟨rig_enabled _ _ _, by decide⟩
theorem test_witness_SignedDivide_quotient : Enabled (rig 0x80000001#32 0xFFFFFFFF#32) [2#5, 3#5] ∧
    (rig 0x80000001#32 0xFFFFFFFF#32).reg 3#5 ≠ 0#32 ∧ (rig 0x80000001#32 0xFFFFFFFF#32).tag 4#5 ≠ .disabled ∧
    ((rig 0x80000001#32 0xFFFFFFFF#32).reg 2#5).toInt ≠ -2147483648 := ⟨rig_enabled _ _ _, by decide⟩
theorem test_witness_UnsignedDivide_zero : Enabled (rig 7#32 0#32) [2#5, 3#5] ∧ (rig 7#32 0#32).reg 3#5 = 0#32 :=
  ⟨rig_enabled _ _ _, rfl⟩
theorem test_witness_UnsignedDivide_quotient : Enabled (rig 7#32 1#32) [2#5, 3#5] ∧ (rig 7#32 1#32).reg 3#5 ≠ 0#32 ∧
    (rig 7#32 1#32).tag 4#5 ≠ .disabled := ⟨rig_enabled _ _ _, by decide⟩
theorem test_witness_OptionalImmediateDivide_present : opUnused 0x3E#6 = true ∧
    ({ Config.cfg0 16 with divi := some 0x3E#6 } : Config).divi = some 0x3E#6 := by decide
theorem test_witness_OptionalImmediateDivide_absent : opUnused 0x3E#6 = true ∧ (Config.cfg0 16).divi = none := by decide
theorem test_witness_OptionalImmediateDivide_zero : Enabled (rig 7#32 0#32) [2#5] ∧ BitVec.ofInt 32 (0#16).toInt = 0#32 :=
  ⟨rig_enabled _ _ _, rfl⟩
theorem test_witness_OptionalImmediateDivide_overflow : Enabled (rig 0x80000000#32 0#32) [2#5] ∧
    BitVec.ofInt 32 (0xFFFF#16).toInt ≠ 0#32 ∧ (rig 0x80000000#32 0#32).tag 4#5 ≠ .disabled ∧
    ((rig 0x80000000#32 0#32).reg 2#5).toInt = -2147483648 ∧ (BitVec.ofInt 32 (0xFFFF#16).toInt).toInt = -1 :=
  ⟨rig_enabled _ _ _, by decide⟩

/-! ### Loads and stores: the last places of the program block, and the devices -/

theorem test_witness_RamLoads : Enabled (rig 0x20008#32 0#32) [2#5, 4#5] ∧
    InRam (rig 0x20008#32 0#32).cfg ((rig 0x20008#32 0#32).reg 2#5 + (4#16).signExtend 32) 4 ∧
    InRam (rig 0x20008#32 0#32).cfg ((rig 0x20008#32 0#32).reg 2#5 + (6#16).signExtend 32) 2 ∧
    InRam (rig 0x20008#32 0#32).cfg ((rig 0x20008#32 0#32).reg 2#5 + (7#16).signExtend 32) 1 := by
  refine ⟨rig_enabled _ _ _, ?_, ?_, ?_⟩ <;> exact inRam_of (by decide)

theorem test_witness_LoadsFromAnyBlock : Enabled (rig 0x868#32 0#32) [2#5, 4#5] ∧
    accessFault (rig 0x868#32 0#32) ((rig 0x868#32 0#32).reg 2#5 + (0#16).signExtend 32) 4 .read = none ∧
    accessFault (rig 0x868#32 0#32) ((rig 0x868#32 0#32).reg 2#5 + (2#16).signExtend 32) 2 .read = none ∧
    accessFault (rig 0x868#32 0#32) ((rig 0x868#32 0#32).reg 2#5 + (3#16).signExtend 32) 1 .read = none :=
  ⟨rig_enabled _ _ _, rfl, rfl, rfl⟩

theorem test_witness_LoadsFromAnyBlock_refused : Enabled (rig 0x2000D#32 0#32) [2#5] ∧
    (accessFault (rig 0x2000D#32 0#32) ((rig 0x2000D#32 0#32).reg 2#5 + (0#16).signExtend 32) 4 .read).isSome = true ∧
    (accessFault (rig 0x2000D#32 0#32) ((rig 0x2000D#32 0#32).reg 2#5 + (2#16).signExtend 32) 2 .read).isSome = true ∧
    (accessFault (rig 0x2000D#32 0#32) ((rig 0x2000D#32 0#32).reg 2#5 + (3#16).signExtend 32) 1 .read).isSome = true :=
  ⟨rig_enabled _ _ _, rfl, rfl, rfl⟩

theorem test_witness_RamStores : MachineInv (rig 0x20008#32 0#32) ∧ Enabled (rig 0x20008#32 0#32) [2#5, 4#5] ∧
    InRam (rig 0x20008#32 0#32).cfg ((rig 0x20008#32 0#32).reg 2#5 + (4#16).signExtend 32) 4 ∧
    InRam (rig 0x20008#32 0#32).cfg ((rig 0x20008#32 0#32).reg 2#5 + (6#16).signExtend 32) 2 ∧
    InRam (rig 0x20008#32 0#32).cfg ((rig 0x20008#32 0#32).reg 2#5 + (7#16).signExtend 32) 1 := by
  refine ⟨rig_inv _ _, rig_enabled _ _ _, ?_, ?_, ?_⟩ <;> exact inRam_of (by decide)

theorem test_witness_StoresToAnyBlock : Enabled (rig 0x868#32 0#32) [2#5, 4#5] ∧
    accessFault (rig 0x868#32 0#32) ((rig 0x868#32 0#32).reg 2#5 + (0#16).signExtend 32) 4 .write = none ∧
    accessFault (rig 0x868#32 0#32) ((rig 0x868#32 0#32).reg 2#5 + (2#16).signExtend 32) 2 .write = none ∧
    accessFault (rig 0x868#32 0#32) ((rig 0x868#32 0#32).reg 2#5 + (3#16).signExtend 32) 1 .write = none :=
  ⟨rig_enabled _ _ _, rfl, rfl, rfl⟩

theorem test_witness_StoresToAnyBlock_refused : Enabled (rig 0x850#32 0#32) [2#5, 4#5] ∧
    (accessFault (rig 0x850#32 0#32) ((rig 0x850#32 0#32).reg 2#5 + (0#16).signExtend 32) 4 .write).isSome = true ∧
    (accessFault (rig 0x850#32 0#32) ((rig 0x850#32 0#32).reg 2#5 + (2#16).signExtend 32) 2 .write).isSome = true ∧
    (accessFault (rig 0x850#32 0#32) ((rig 0x850#32 0#32).reg 2#5 + (3#16).signExtend 32) 1 .write).isSome = true :=
  ⟨rig_enabled _ _ _, rfl, rfl, rfl⟩

theorem test_witness_NarrowReadsOfAWord : MachineInv (rig 0#32 0#32) ∧ InRam (rig 0#32 0#32).cfg 0x2000C#32 4 :=
  ⟨rig_inv _ _, inRam_of (by decide)⟩

theorem test_witness_ReadOnlyWindowsRejectStores_dip : Enabled (rig 0x84F#32 0#32) [2#5, 4#5] ∧
    ∃ b, resolve (rig 0x84F#32 0#32).cfg ((rig 0x84F#32 0#32).reg 2#5 + (0#16).signExtend 32 + BitVec.ofNat 32 3) = some b ∧
      b.kind = .dip := ⟨rig_enabled _ _ _, _, rfl, rfl⟩
theorem test_witness_ReadOnlyWindowsRejectStores_btn : Enabled (rig 0x840#32 0#32) [2#5, 4#5] ∧
    ∃ b, resolve (rig 0x840#32 0#32).cfg ((rig 0x840#32 0#32).reg 2#5 + (0#16).signExtend 32 + BitVec.ofNat 32 0) = some b ∧
      b.kind = .btn := ⟨rig_enabled _ _ _, _, rfl, rfl⟩

theorem test_witness_StoreSeenByFetch : MachineInv (rig 0x20000#32 0#32) ∧ Enabled (rig 0x20000#32 0#32) [2#5, 4#5] ∧
    InRam (rig 0x20000#32 0#32).cfg ((rig 0x20000#32 0#32).reg 2#5 + (0#16).signExtend 32) 4 :=
  ⟨rig_inv _ _, rig_enabled _ _ _, inRam_of (by decide)⟩

/-! ### Devices: each clause at an offset of its own -/

theorem test_witness_LedStore : Enabled (rig 0x810#32 0#32) [2#5, 4#5] ∧ ∀ k, k < 4 →
    InDevice (rig 0x810#32 0#32).cfg ((rig 0x810#32 0#32).reg 2#5 + (0#16).signExtend 32 + BitVec.ofNat 32 k) .led k := by
  refine ⟨rig_enabled _ _ _, fun k hk => ?_⟩
  rcases k with _ | _ | _ | _ | k
  · exact inDevice_of _ rfl rfl rfl
  · exact inDevice_of _ rfl rfl rfl
  · exact inDevice_of _ rfl rfl rfl
  · exact inDevice_of _ rfl rfl rfl
  · omega

theorem test_witness_NibbleDeviceLoads_led : Enabled (rig 0x810#32 0#32) [2#5, 4#5] ∧
    InDevice (rig 0x810#32 0#32).cfg ((rig 0x810#32 0#32).reg 2#5 + (0#16).signExtend 32) .led 0 ∧
    InDevice (rig 0x810#32 0#32).cfg ((rig 0x810#32 0#32).reg 2#5 + (3#16).signExtend 32) .led 3 :=
  ⟨rig_enabled _ _ _, inDevice_of _ rfl rfl rfl, inDevice_of _ rfl rfl rfl⟩
theorem test_witness_NibbleDeviceLoads_dip : Enabled (rig 0x850#32 0#32) [2#5, 4#5] ∧
    InDevice (rig 0x850#32 0#32).cfg ((rig 0x850#32 0#32).reg 2#5 + (0#16).signExtend 32) .dip 0 ∧
    InDevice (rig 0x850#32 0#32).cfg ((rig 0x850#32 0#32).reg 2#5 + (1#16).signExtend 32) .dip 1 :=
  ⟨rig_enabled _ _ _, inDevice_of _ rfl rfl rfl, inDevice_of _ rfl rfl rfl⟩
theorem test_witness_NibbleDeviceLoads_btn : Enabled (rig 0x840#32 0#32) [2#5, 4#5] ∧
    InDevice (rig 0x840#32 0#32).cfg ((rig 0x840#32 0#32).reg 2#5 + (0#16).signExtend 32) .btn 0 ∧
    InDevice (rig 0x840#32 0#32).cfg ((rig 0x840#32 0#32).reg 2#5 + (3#16).signExtend 32) .btn 3 :=
  ⟨rig_enabled _ _ _, inDevice_of _ rfl rfl rfl, inDevice_of _ rfl rfl rfl⟩

theorem test_witness_SerialAccesses_takes : (h1 (rig 0#32 0#32)).rrdy = false ∧ (h1 (rig 0#32 0#32)).inq = [0x41#8, 0x42#8] := by
  decide
theorem test_witness_SerialAccesses_ready : ({ rig 0#32 0#32 with rrdy := true, inq := [0x41#8] } : State).rrdy = true := rfl
theorem test_witness_SerialAccesses_empty : (rig 0#32 0#32).inq = [] := rfl

theorem test_witness_SerialAccesses_read : InDevice (rig 0#32 0#32).cfg 0x860#32 .serial 0 ∧
    InDevice (rig 0#32 0#32).cfg 0x864#32 .serial 4 ∧ InDevice (rig 0#32 0#32).cfg 0x868#32 .serial 8 ∧
    InDevice (rig 0#32 0#32).cfg 0x86B#32 .serial 11 ∧ (rig 0#32 0#32).cfg.uartRxOff = 0 ∧
    (rig 0#32 0#32).cfg.uartTxOff = 4 ∧ (rig 0#32 0#32).cfg.uartStOff = 8 :=
  ⟨inDevice_of _ rfl rfl rfl, inDevice_of _ rfl rfl rfl, inDevice_of _ rfl rfl rfl, inDevice_of _ rfl rfl rfl, rfl, rfl, rfl⟩
theorem test_witness_SerialAccesses_write : InDevice (rig 0#32 0#32).cfg 0x864#32 .serial 4 ∧
    InDevice (rig 0#32 0#32).cfg 0x860#32 .serial 0 ∧ (rig 0#32 0#32).cfg.uartRxOff ≠ (rig 0#32 0#32).cfg.uartTxOff :=
  ⟨inDevice_of _ rfl rfl rfl, inDevice_of _ rfl rfl rfl, by decide⟩
theorem test_witness_SerialWordLoad : Enabled (h1 (rig 0x860#32 0#32)) [2#5, 4#5] ∧
    (h1 (rig 0x860#32 0#32)).cfg = Config.cfg0 (h1 (rig 0x860#32 0#32)).cfg.progLen ∧
    (h1 (rig 0x860#32 0#32)).reg 2#5 + (0#16).signExtend 32 = 0x860#32 ∧ (h1 (rig 0x860#32 0#32)).rrdy = false ∧
    (h1 (rig 0x860#32 0#32)).inq = [0x41#8, 0x42#8] :=
  ⟨rig_enabled 0x860#32 0#32 _, rfl, rfl, rfl, rfl⟩
theorem test_witness_ReadsWithoutSideEffect : ∃ b v t, resolve (rig 0#32 0#32).cfg 0x813#32 = some b ∧ b.kind ≠ .serial ∧
    readByte (rig 0#32 0#32) 0x813#32 = .ok (v, t) := ⟨_, _, _, rfl, by decide, rfl⟩

/-! ### Control transfer -/

theorem test_witness_UnconditionalBranch : (branchTo (rig 0#32 0#32).pc 0xFFFC#16).toNat % 4 = 0 ∧
    (branchTo (rig 0#32 0#32).pc 6#16).toNat % 4 ≠ 0 := by decide
/-- Equal values: `beq`, `bge` and `bgeu` are taken, `bne`, `blt` and `bltu` are not. -/
theorem test_witness_ConditionalBranches_equal : Enabled (rig 5#32 5#32) [2#5, 3#5] ∧
    (rig 5#32 5#32).reg 2#5 = (rig 5#32 5#32).reg 3#5 ∧ (branchTo (rig 5#32 5#32).pc 8#16).toNat % 4 = 0 ∧
    (branchTo (rig 5#32 5#32).pc 6#16).toNat % 4 ≠ 0 := ⟨rig_enabled _ _ _, by decide⟩
/-- -1 and 0: `bne`, `blt` and `bgeu` are taken, `beq`, `bge` and `bltu` are not. -/
theorem test_witness_ConditionalBranches_negative : Enabled (rig 0xFFFFFFFF#32 0#32) [2#5, 3#5] ∧
    ((rig 0xFFFFFFFF#32 0#32).reg 2#5).toInt < ((rig 0xFFFFFFFF#32 0#32).reg 3#5).toInt ∧
    ¬ ((rig 0xFFFFFFFF#32 0#32).reg 2#5).toNat < ((rig 0xFFFFFFFF#32 0#32).reg 3#5).toNat :=
  ⟨rig_enabled _ _ _, by decide⟩
/-- 0 and -1: `bltu` is taken, `bgeu` is not. -/
theorem test_witness_ConditionalBranches_unsigned : Enabled (rig 0#32 0xFFFFFFFF#32) [2#5, 3#5] ∧
    ((rig 0#32 0xFFFFFFFF#32).reg 2#5).toNat < ((rig 0#32 0xFFFFFFFF#32).reg 3#5).toNat := ⟨rig_enabled _ _ _, by decide⟩
theorem test_witness_AbsoluteCallAndJump_enabled : (rig 0#32 0#32).tag 31#5 ≠ .disabled := by decide
theorem test_witness_AbsoluteCallAndJump_disabled : ((rig 0#32 0#32).setTag 31#5 .disabled).tag 31#5 = .disabled := by decide
theorem test_witness_IndirectCall_aligned : Enabled (rig 0x20008#32 0#32) [2#5] ∧
    ((rig 0x20008#32 0#32).reg 2#5).toNat % 4 = 0 ∧ (rig 0x20008#32 0#32).tag 31#5 ≠ .disabled :=
  ⟨rig_enabled _ _ _, by decide⟩
theorem test_witness_IndirectCall_misaligned : Enabled (rig 0x20003#32 0#32) [2#5] ∧
    ((rig 0x20003#32 0#32).reg 2#5).toNat % 4 ≠ 0 := ⟨rig_enabled _ _ _, by decide⟩
theorem test_witness_IndirectJumpAndReturn_jmp : Enabled (rig 0x20008#32 0x20001#32) [2#5, 3#5] ∧
    ((rig 0x20008#32 0x20001#32).reg 2#5).toNat % 4 = 0 ∧ ((rig 0x20008#32 0x20001#32).reg 3#5).toNat % 4 ≠ 0 :=
  ⟨rig_enabled _ _ _, by decide⟩
theorem test_witness_IndirectJumpAndReturn_ret : Enabled (rig 0#32 0#32) [31#5] ∧
    ((rig 0#32 0#32).reg 31#5).toNat % 4 = 0 ∧ (((rig 0#32 0#32).setReg 31#5 2#32).reg 31#5).toNat % 4 ≠ 0 :=
  ⟨rig_enabled _ _ _, by decide⟩

/-! ### Faults -/

theorem test_witness_FaultOrder_source : (reads (.div 4#5 2#5 3#5)).find?
    (fun r => decide (((rig 1#32 0#32).setTag 3#5 .disabled).tag r = .disabled)) = some 3#5 := by decide
theorem test_witness_FaultOrder_own : Enabled (rig 1#32 0#32) (reads (.div 4#5 2#5 3#5)) ∧
    (ownFault (rig 1#32 0#32) (.div 4#5 2#5 3#5)).isSome = true := ⟨rig_enabled _ _ _, by decide⟩
theorem test_witness_FaultOrder_destination : Enabled ((rig 1#32 1#32).setTag 4#5 .disabled) (reads (.div 4#5 2#5 3#5)) ∧
    (ownFault ((rig 1#32 1#32).setTag 4#5 .disabled) (.div 4#5 2#5 3#5)).isNone = true ∧
    ((rig 1#32 1#32).setTag 4#5 .disabled).tag 4#5 = .disabled := by
  refine ⟨?_, by decide, by decide⟩
  intro r hr
  simp only [reads, List.mem_cons, List.not_mem_nil, or_false] at hr
  rcases hr with rfl | rfl <;> decide
theorem test_witness_EveryInstructionCompletes : Enabled (rig 1#32 1#32) (reads (.div 4#5 2#5 3#5)) ∧
    (ownFault (rig 1#32 1#32) (.div 4#5 2#5 3#5)).isNone = true ∧ (rig 1#32 1#32).tag 4#5 ≠ .disabled :=
  ⟨rig_enabled _ _ _, by decide⟩
theorem test_witness_FaultRepeats : ∃ t f, hostStep (bench 0xFFFFFFFF#32 0#32 0#32 0#32) = (t, .fault f) := ⟨_, _, rfl⟩
theorem test_witness_StimuliNeverChangeAFault : InRam (rig 0#32 0#32).cfg (rig 0#32 0#32).pc 4 ∧
    ∀ m ∈ [HostMove.toggleSwitch 3, .pressButton 0, .feedSerialInput 0x41#8], isStimulus m = true :=
  ⟨rig_fetch _ _, by decide⟩

/-! ### The step -/

theorem test_witness_StepRunsDecodedInstruction : (rig 0#32 0#32).run ≠ .idle ∧ InRam (rig 0#32 0#32).cfg (rig 0#32 0#32).pc 4 ∧
    decode (ramWord (rig 0#32 0#32) (rig 0#32 0#32).pc) = .ok (.add 4#5 2#5 3#5) ∧
    (Instr.add 4#5 2#5 3#5).wellFormed = true ∧ (Instr.add 4#5 2#5 3#5).row ∈ (rig 0#32 0#32).cfg.catalog :=
  ⟨by decide, rig_fetch _ _, by decide, by decide, by decide⟩
theorem test_witness_HaltSentinel : (rig 0#32 0#32).run ≠ .idle ∧
    InRam ({ rig 0#32 0#32 with pc := 0x20004#32 } : State).cfg 0x20004#32 4 ∧
    ramWord { rig 0#32 0#32 with pc := 0x20004#32 } 0x20004#32 = 0#32 := ⟨by decide, inRam_of (by decide), by decide⟩
theorem test_witness_FetchAndDecodeFaults_fetch : (rig 0#32 0#32).run ≠ .idle ∧
    (addresses 0x2000E#32 4).find? (fun a => (resolve (rig 0#32 0#32).cfg a).isNone) = some 0x20010#32 := by decide
theorem test_witness_FetchAndDecodeFaults_decode :
    InRam (bench 0x2007887A#32 0#32 0#32 0#32).cfg (bench 0x2007887A#32 0#32 0#32 0#32).pc 4 ∧
    ramWord (bench 0x2007887A#32 0#32 0#32 0#32) 0x20000#32 = 0x2007887A#32 ∧
    (Config.cfg0 16).decode 0x2007887A#32 = .error (.imm5NotZero 1#5) := ⟨rig_fetch 0#32 0#32, by decide, by decide⟩
theorem test_witness_IdleRefuses : ({ State.reset with run := .idle } : State).run = .idle := rfl

/-! ### Invariants, whole-machine rules, the host's commands -/

theorem test_witness_LoadEstablishesInvariant : ∃ t, hostLoad { bytes := [], start := 0x20000#32 } State.reset = .next t :=
  ⟨_, rfl⟩
theorem test_witness_StepKeepsInvariant : MachineInv (rig 0#32 0#32) ∧ ∃ t, step (rig 0#32 0#32) = .next t :=
  ⟨rig_inv _ _, _, rfl⟩
theorem test_witness_StepKeepsHostState : ∃ t, step (h1 (rig 0#32 0#32)) = .next t := ⟨_, rfl⟩
theorem test_witness_StepChangesOneRegister : (∃ t, step (rig 1#32 2#32) = .next t) ∧
    ∃ u, fetch (rig 1#32 2#32).resetTags = .ok (0x10C9883A#32, u) := ⟨⟨_, rfl⟩, _, rfl⟩
theorem test_witness_StepChangesOneRegister_halt : (∃ t, step (bench 0#32 0#32 0#32 0#32) = .next t) ∧
    ∃ u, fetch (bench 0#32 0#32 0#32 0#32).resetTags = .ok (0#32, u) := ⟨⟨_, rfl⟩, _, rfl⟩
theorem test_witness_DiscardedWriteChangesNoRegister : dest (.add 0#5 2#5 3#5) = some 0#5 ∧
    ∃ t, exec (.add 0#5 2#5 3#5) (rig 1#32 2#32) = .next t := ⟨rfl, _, rfl⟩
theorem test_witness_OnlyStoresChangeRam :
    after (fun t => decide (t.mem.read 0x2000F ≠ (bench 0x110001C5#32 0x20008#32 0#32 0xD4#32).mem.read 0x2000F))
      (step (bench 0x110001C5#32 0x20008#32 0#32 0xD4#32)) = some true := by decide
theorem test_witness_TagsShowTheStep : decode (ramWord (rig 0#32 0#32) (rig 0#32 0#32).pc) = .ok (.add 4#5 2#5 3#5) ∧
    (∃ t, step (rig 0#32 0#32) = .next t) ∧ 5#5 ∉ reads (.add 4#5 2#5 3#5) ∧ dest (.add 4#5 2#5 3#5) ≠ some 5#5 ∧
    (rig 0#32 0#32).tag 5#5 ≠ .disabled := ⟨by decide, ⟨_, rfl⟩, by decide, by decide, by decide⟩
theorem test_witness_LoadRule_effect : ∃ t, hostLoad { bytes := [1#8, 2#8, 3#8, 4#8], start := 0x20000#32 } State.reset = .next t :=
  ⟨_, rfl⟩
theorem test_witness_LoadRule_refused : hostLoad { bytes := [0#8, 0#8, 0#8, 0#8, 0#8], start := 0x20000#32 } State.reset =
    .refused .imageTooLong := by rfl
theorem test_witness_LoadRule_preconditions : validConfig (Config.cfg0 4) = true ∧ (0x20000#32 : Word) = (Config.cfg0 4).progBase ∧
    (0x20000#32 : Word).toNat % 4 = 0 ∧ ([1#8, 2#8, 3#8, 4#8] : List Byte).length ≤ (Config.cfg0 4).progLen ∧
    (Config.cfg0 4).entry.toNat % 4 = 0 := by decide
theorem test_witness_ResetRestoresLoadedState :
    (∃ t, hostLoad { bytes := [0x44#8, 0x01#8, 0x80#8, 0#8], start := 0x20000#32 } State.reset = .next t) ∧
    ∀ m ∈ [HostMove.step, .toggleSwitch 0, .reset, .step], isNotLoad m = true := ⟨⟨_, rfl⟩, by decide⟩
theorem test_witness_RunIsItsSteps_executed : ∃ t, hostStep (rig 1#32 2#32) = (t, .executed) := ⟨_, rfl⟩
theorem test_witness_RunIsItsSteps_halted : ∃ t, hostStep (bench 0#32 0#32 0#32 0#32) = (t, .halted) := ⟨_, rfl⟩
theorem test_witness_RunIsItsSteps_fault : ∃ t f, hostStep (bench 0xFFFFFFFF#32 0#32 0#32 0#32) = (t, .fault f) :=
  ⟨_, _, rfl⟩
theorem test_witness_RunIsItsSteps_refused :
    ∃ t r, hostStep { State.reset with run := .idle } = (t, .refused r) := ⟨_, _, rfl⟩
theorem test_witness_RunIsItsSteps_command : (rig 1#32 2#32).run ≠ .idle := by decide
theorem test_witness_RunEndsOneWay_command :
    ∃ t r, hostRun { rig 1#32 2#32 with cfg := { Config.cfg0 16 with runLimit := some 1 } } t r := ⟨_, _, rfl⟩
theorem test_witness_RunEndsOneWay : ∃ t, runEnds (bench 0#32 0#32 0#32 0#32) t .halted := ⟨_, 1, rfl, by decide⟩

/-! ### Assembler: both ends of the branch's reach -/

theorem test_witness_LinkedBranchReachesTarget_low : (-32768 : Int) ≤ (0x18004#32 - (0x20000#32 + 4#32)).toInt ∧
    (0x18004#32 - (0x20000#32 + 4#32)).toInt = -32768 := by decide
theorem test_witness_LinkedBranchReachesTarget_high : (0x28003#32 - (0x20000#32 + 4#32)).toInt ≤ 32767 ∧
    (0x28003#32 - (0x20000#32 + 4#32)).toInt = 32767 := by decide
theorem test_witness_MoviaLoadsTheValue : (2#5 : Reg) ≠ 0#5 ∧ Enabled (rig 0#32 0#32) [0#5, 2#5] :=
  ⟨by decide, rig_enabled _ _ _⟩
theorem test_witness_PseudoComparisons : Enabled (rig 3#32 2#32) [2#5, 3#5, 4#5] := rig_enabled _ _ _
theorem test_witness_LoadedImageIsFetched : ∃ img t, buildImage State.reset.cfg 0x20000#32 [] [] = some img ∧
    hostLoad img State.reset = .next t := ⟨_, _, rfl, rfl⟩
/-- A program with a `divi`, for a machine that has it. -/
theorem test_witness_LoadedImageIsFetched_code : ∃ img t,
    buildImage { Config.cfg0 13 with divi := some 0x3E#6 } 0x20000#32 [.row (.addi 2#5 0#5 5#16), .divi 4#5 2#5 0xFFFE#16]
      [.byte 7#64] = some img ∧
    hostLoad img { State.reset with cfg := { Config.cfg0 13 with divi := some 0x3E#6 } } = .next t := ⟨_, _, rfl, rfl⟩
theorem test_witness_ImageLayout : ∃ img, buildImage { Config.cfg0 13 with divi := some 0x3E#6 } 0x20000#32
    [.row (.addi 2#5 0#5 5#16), .divi 4#5 2#5 0xFFFE#16] [.byte 7#64, .asciz [0x41#8]] = some img := ⟨_, rfl⟩

end Sys2Proof.Tests
end

section
/-! The statements of 10_state.md: what a step keeps and changes, the invariant of the machine, the tags, `reset` and the run.
The first part adds to the laws what a whole step can do, in terms of `Effect`. -/

namespace Sys2Proof.Machine

/-! ## The effect of a whole step -/

theorem Effect.refl (s : State) : Effect [] none [] s s :=
  Effect.of_tags (m := s) rfl (fun r => by simp) (fun _ => Iff.rfl) s.pc id

/-- What happens after a change of the serial receive side has the same effect counted from before that change. -/
theorem Effect.of_receive {rs d st rx rrdy inq} {s t : State} (hq : inq <:+ s.inq)
    (h : Effect rs d st { s with rx := rx, rrdy := rrdy, inq := inq } t) : Effect rs d st s t :=
  { h with inq := h.inq.trans hq }

/-- A step has, but for the run state, the effect of what it fetched, counted from the state with tags reset: the halt
sentinel touches nothing, another word has the effect of the instruction it decodes to. -/
theorem step_effect {s t : State} (h : step s = .next t) :
    ∃ w u v r, fetch s.resetTags = .ok (w, u) ∧ t = { v with run := r } ∧
      (w = 0#32 ∧ Effect [] none [] s.resetTags v ∨
        w ≠ 0#32 ∧ ∃ d, s.cfg.decode w = .ok d ∧
          Effect (readsDecoded d) (destDecoded d) (storeAtDecoded u d) s.resetTags v) := by
  obtain ⟨-, w, u, hf, h⟩ := step_eq_next h
  obtain ⟨hu, hq⟩ := fetch_eq_ok hf
  have after_fetch {rs d st v} (hv : Effect rs d st u v) : Effect rs d st s.resetTags v :=
    .of_receive hq (hu ▸ hv)
  rcases h with ⟨hw, rfl⟩ | ⟨hw, d, hd, v, hv, rfl⟩
  · exact ⟨w, u, u, _, hf, rfl, .inl ⟨hw, after_fetch (.refl u)⟩⟩
  · exact ⟨w, u, v, _, hf, rfl, .inr ⟨hw, d, hd, after_fetch (execDecoded_effect hv)⟩⟩

theorem step_some_effect {s t : State} (h : step s = .next t) :
    ∃ rs d st v r, Effect rs d st s.resetTags v ∧ t = { v with run := r } := by
  obtain ⟨-, u, v, r, -, ht, ⟨-, hv⟩ | ⟨-, d, -, hv⟩⟩ := step_effect h
  · exact ⟨_, _, _, v, r, hv, ht⟩
  · exact ⟨_, _, _, v, r, hv, ht⟩

/-- A step leaves run state `Halted` or `Running` (10_state.md R30, R31). -/
theorem step_run_ne_idle {s t : State} (h : step s = .next t) : t.run ≠ .idle := by
  obtain ⟨-, w, u, -, ⟨-, rfl⟩ | ⟨-, d, -, v, -, rfl⟩⟩ := step_eq_next h
  · exact RunState.noConfusion
  · exact RunState.noConfusion

/-! ## The invariant -/

theorem MachineInv.setRun {s : State} (h : MachineInv s) (r : RunState) : MachineInv { s with run := r } :=
  ⟨h.canonical, h.onlyRam, h.zeroReg, h.pcAligned, h.disabledTags⟩

theorem MachineInv.resetTags {s : State} (h : MachineInv s) : MachineInv s.resetTags :=
  { h with disabledTags := fun r => (resetTags_tag_eq_disabled s r).trans (h.disabledTags r) }

/-- Every effect keeps the invariant: a byte newly listed stands at an address stored to, in a RAM block. -/
theorem Effect.keeps_inv {rs d st} {s t : State} (h : Effect rs d st s t) (hs : MachineInv s) : MachineInv t where
  canonical := h.wf hs.canonical
  onlyRam c hc := by
    rw [h.cfg]
    rcases h.cells c hc with hc | ⟨p, -, hp, k, hk, hram⟩
    · exact hs.onlyRam c hc
    · refine ⟨hp ▸ p.isLt, fun i hi => ⟨k, ?_, hram⟩⟩
      obtain rfl : i = 0 := by omega
      simpa [hp] using hk
  zeroReg := h.zero.trans hs.zeroReg
  pcAligned := h.pc hs.pcAligned
  disabledTags r := by rw [h.dis, h.cfg]; exact hs.disabledTags r

/-- Settles O44: the effect of a step keeps the invariant, and so do the tag reset before it and the run state after it. -/
theorem stepKeepsInvariant : Obligations.StepKeepsInvariant := by
  intro s t hs h
  obtain ⟨rs, d, st, v, r, hv, rfl⟩ := step_some_effect h
  exact (hv.keeps_inv hs.resetTags).setRun r

/-- Settles O42. -/
theorem resetSatisfiesInvariant : Obligations.ResetSatisfiesInvariant where
  canonical := reset_mem_wf
  onlyRam _ hc := absurd hc List.not_mem_nil
  zeroReg := rfl
  pcAligned := rfl
  disabledTags r := by simp [State.tag, State.reset, Config.cfg0]

/-! ## What a step keeps and changes -/

/-- Settles O45, from the effect of the step. -/
theorem stepKeepsHostState : Obligations.StepKeepsHostState := by
  intro s t h
  obtain ⟨rs, d, st, v, r, hv, rfl⟩ := step_some_effect h
  exact ⟨hv.cfg, hv.snapshot, hv.sw, hv.btn, hv.inq, hv.trace⟩

/-- Settles O46, from the effect of the step. -/
theorem stepChangesOneRegister : Obligations.StepChangesOneRegister := by
  intro s t h
  obtain ⟨w, u, v, r, hf, rfl, ⟨hw, hv⟩ | ⟨hw, d, hd, hv⟩⟩ := step_effect h
  · exact ⟨w, u, hf, fun _ i => hv.reg i nofun, fun hn => absurd hw hn⟩
  · exact ⟨w, u, hf, fun h0 => absurd h0 hw, fun _ => ⟨d, hd, hv.reg⟩⟩

/-! ### Writes to register 0 -/

theorem twoSourceChecked_pc {f d rA rB} {s t : State} (h : twoSourceChecked f d rA rB s = .next t) :
    t.pc = s.pc + 4#32 := by
  obtain ⟨-, v, u, -, hw, rfl⟩ := twoSourceChecked_next h
  obtain ⟨-, hu, -⟩ := writeReg_eq_ok hw
  rw [advance_pc, hu]; rfl

theorem oneSourceChecked_pc {f d rA} {s t : State} (h : oneSourceChecked f d rA s = .next t) : t.pc = s.pc + 4#32 := by
  obtain ⟨-, v, u, -, hw, rfl⟩ := oneSourceChecked_next h
  obtain ⟨-, hu, -⟩ := writeReg_eq_ok hw
  rw [advance_pc, hu]; rfl

theorem twoSource_pc {f d rA rB} {s t : State} (h : twoSource f d rA rB s = .next t) : t.pc = s.pc + 4#32 :=
  twoSourceChecked_pc h

theorem oneSource_pc {f d rA} {s t : State} (h : oneSource f d rA s = .next t) : t.pc = s.pc + 4#32 :=
  oneSourceChecked_pc h

theorem loadForm_pc {w ext d imm16 rA} {s t : State} (h : loadForm w ext d imm16 rA s = .next t) :
    t.pc = s.pc + 4#32 := by
  obtain ⟨-, v, m, u, hm, hw, rfl⟩ := loadForm_next h
  obtain ⟨-, hm, -⟩ := memRead_eq_ok hm
  obtain ⟨-, hu, -⟩ := writeReg_eq_ok hw
  rw [advance_pc, hu, hm]; rfl

/-- An instruction that writes a register other than the link register goes on to the next instruction. -/
theorem exec_pc_of_dest {i : Instr} {d : Reg} {s t : State} (hd : dest i = some d) (hl : d ≠ linkReg)
    (h : exec i s = .next t) : t.pc = s.pc + 4#32 := by
  cases i with
  | add | sub | mul | mulxss | mulxsu | mulxuu | and | or | xor | nor
  | cmpeq | cmpne | cmpge | cmpgeu | cmplt | cmpltu | sll | srl | sra | rol | ror =>
    simp only [exec_add, exec_sub, exec_mul, exec_mulxss, exec_mulxsu, exec_mulxuu, exec_and, exec_or, exec_xor,
      exec_nor, exec_cmpeq, exec_cmpne, exec_cmpge, exec_cmpgeu, exec_cmplt, exec_cmpltu, exec_sll, exec_srl, exec_sra,
      exec_rol, exec_ror] at h
    exact twoSource_pc h
  | div | divu => exact twoSourceChecked_pc h
  | addi | muli | andi | andhi | ori | orhi | xori | xorhi
  | cmpeqi | cmpnei | cmpgei | cmpgeui | cmplti | cmpltui | slli | srli | srai | roli =>
    simp only [exec_addi, exec_muli, exec_andi, exec_andhi, exec_ori, exec_orhi, exec_xori, exec_xorhi, exec_cmpeqi,
      exec_cmpnei, exec_cmpgei, exec_cmpgeui, exec_cmplti, exec_cmpltui, exec_slli, exec_srli, exec_srai,
      exec_roli] at h
    exact oneSource_pc h
  | ldw | ldh | ldhu | ldb | ldbu | ldwio | ldhio | ldhuio | ldbio | ldbuio => exact loadForm_pc h
  | call | callr => exact absurd (Option.some.inj hd).symm hl
  | stw | sth | stb | stwio | sthio | stbio | br | beq | bne | bge | bgeu | blt | bltu | jmpi | jmp | ret =>
    cases hd

/-- Settles O47: the effect leaves every register but register 0, which reads as zero before and after. -/
theorem discardedWriteChangesNoRegister : Obligations.DiscardedWriteChangesNoRegister := by
  refine ⟨reg_zero, fun i s t hd h => ⟨fun r => ?_, exec_pc_of_dest hd (by decide) h⟩⟩
  by_cases hr : r = 0#5
  · rw [hr, reg_zero, reg_zero]
  · exact (exec_effect h).reg r fun e => hr (Option.some.inj (hd.symm.trans e)).symm

/-! ### Stores -/

/-- An address that an instruction stores to is one of the bytes of a store. -/
theorem mem_storeAt {i : Instr} {s : State} {p : Word} (h : p ∈ storeAt s i) :
    ∃ rB imm16 rA n, (n = 4 ∧ i = .stw rB imm16 rA ∨ n = 4 ∧ i = .stwio rB imm16 rA ∨
        n = 2 ∧ i = .sth rB imm16 rA ∨ n = 2 ∧ i = .sthio rB imm16 rA ∨
        n = 1 ∧ i = .stb rB imm16 rA ∨ n = 1 ∧ i = .stbio rB imm16 rA) ∧
      ∃ k, k < n ∧ p = s.reg rA + imm16.signExtend 32 + BitVec.ofNat 32 k := by
  cases i with
  | stw rB imm16 rA => exact ⟨rB, imm16, rA, 4, by simp, mem_addresses.mp h⟩
  | stwio rB imm16 rA => exact ⟨rB, imm16, rA, 4, by simp, mem_addresses.mp h⟩
  | sth rB imm16 rA => exact ⟨rB, imm16, rA, 2, by simp, mem_addresses.mp h⟩
  | sthio rB imm16 rA => exact ⟨rB, imm16, rA, 2, by simp, mem_addresses.mp h⟩
  | stb rB imm16 rA => exact ⟨rB, imm16, rA, 1, by simp, mem_addresses.mp h⟩
  | stbio rB imm16 rA => exact ⟨rB, imm16, rA, 1, by simp, mem_addresses.mp h⟩
  | _ => exact absurd h List.not_mem_nil

/-- A machine decodes a word to a row of the opcode table exactly when the table does and the row is in its catalog. -/
theorem config_decode_eq_row {cfg : Config} {w : Word} {i : Instr} :
    cfg.decode w = .ok (.row i) ↔ decode w = .ok i ∧ i.row ∈ cfg.catalog := by
  unfold Config.decode
  cases hd : decode w with
  | ok j =>
    by_cases hj : j.row ∈ cfg.catalog
    · simp only [hj, if_true, Except.ok.injEq, Decoded.row.injEq]
      exact ⟨fun e => ⟨e, e ▸ hj⟩, And.left⟩
    · simp only [hj, if_false, reduceCtorEq, Except.ok.injEq, false_iff]
      rintro ⟨rfl, h⟩
      exact hj h
  | error r => by_cases h : cfg.divi = some (fieldOp w) <;> simp [h]

/-- Settles O48: a byte that changed is at an address the fetched instruction stores to. -/
theorem onlyStoresChangeRam : Obligations.OnlyStoresChangeRam := by
  intro s t x h hx
  obtain ⟨w, u, v, r, hf, rfl, ⟨-, hv⟩ | ⟨-, d, hd, hv⟩⟩ := step_effect h
  · exact absurd (hv.ram x (by simp)) hx
  obtain ⟨p, hp, hpx⟩ : ∃ p ∈ storeAtDecoded u d, x = p.toNat := by
    by_contra hn
    exact hx (hv.ram x fun p hp e => hn ⟨p, hp, e⟩)
  cases d with
  | divi rB rA imm16 => exact absurd hp List.not_mem_nil
  | row i =>
    obtain ⟨rB, imm16, rA, n, hi, k, hk, rfl⟩ := mem_storeAt hp
    have hreg : u.reg rA = s.reg rA := reg_congr (by rw [(fetch_eq_ok hf).1]; rfl) rA
    refine ⟨w, u, rB, imm16, rA, n, hf, ?_, k, hk, hreg ▸ hpx⟩
    simpa only [(config_decode_eq_row.mp hd).1, Except.ok.injEq] using hi

/-! ## The instruction cycle -/

theorem step_of_fetch {s u : State} {w : Word} (hr : s.run ≠ .idle) (hf : fetch s.resetTags = .ok (w, u)) :
    step s = afterFetch w u := by
  simp only [step, cycle, if_neg hr, hf]

/-- A step on an instruction in RAM goes on, with the tags reset, from the word at the PC. -/
theorem step_ram {s : State} (hr : s.run ≠ .idle) (hm : InRam s.cfg s.pc 4) :
    step s = afterFetch (ramWord s s.pc) s.resetTags :=
  step_of_fetch hr (fetch_ram (s := s.resetTags) hm)

theorem afterFetch_zero (s : State) : afterFetch 0#32 s = .next { s with run := .halted } := rfl

theorem afterFetch_decoded {s : State} {w : Word} {d : Decoded} (hw : w ≠ 0#32) (hd : s.cfg.decode w = .ok d) :
    afterFetch w s = retire (execDecoded d s) := by
  simp only [afterFetch, if_neg hw, hd]

/-- The word of a well-formed instruction is not the halt sentinel (30_encoding.md R113). -/
theorem ne_zero_of_wellFormed {w : Word} {i : Instr} (hd : decode w = .ok i) (hi : i.wellFormed = true) : w ≠ 0#32 := by
  rintro rfl
  obtain rfl : Instr.call 0#26 = i := Except.ok.inj hd
  exact absurd hi (by decide)

/-- A step on a well-formed instruction of the catalog in RAM executes it with the tags reset. -/
theorem step_instruction {s : State} {i : Instr} (hr : s.run ≠ .idle) (hm : InRam s.cfg s.pc 4)
    (hd : decode (ramWord s s.pc) = .ok i) (hi : i.wellFormed = true) (hc : i.row ∈ s.cfg.catalog) :
    step s = retire (exec i s.resetTags) :=
  (step_ram hr hm).trans (afterFetch_decoded (s := s.resetTags) (ne_zero_of_wellFormed hd hi)
    (config_decode_eq_row.mpr ⟨hd, hc⟩))

theorem retire_eq_next {x : Result} {t : State} :
    retire x = .next t ↔ ∃ v, x = .next v ∧ t = { v with run := .running } := by
  cases x <;> simp [retire, eq_comm]

/-- Settles O38. -/
theorem stepRunsDecodedInstruction : Obligations.StepRunsDecodedInstruction := by
  intro s i hr hm hd hi hc
  rw [step_instruction hr hm hd hi hc]
  cases exec i s.resetTags with
  | next t => rfl
  | fault f => rfl
  | refused r => rfl

/-- Settles O49: the tags are those of the instruction's effect on the state with tags reset. -/
theorem tagsShowTheStep : Obligations.TagsShowTheStep := by
  intro s i t hr hm hd hi hc h
  obtain ⟨v, hv, rfl⟩ := retire_eq_next.mp ((step_instruction hr hm hd hi hc).symm.trans h)
  have he := exec_effect hv
  refine ⟨he.tags, fun r => ⟨(he.dis r).trans (resetTags_tag_eq_disabled s r), fun hrd hds hen => ?_⟩⟩
  have hfresh : freshTag (s.tag r) = .untouched := by
    cases hs : s.tag r with
    | disabled => exact absurd hs hen
    | untouched | read | write => rfl
  exact (he.tag r hrd hds).trans ((resetTags_tag s r).trans hfresh)

/-- Settles O39: the halted state has its tags reset already, so the second step finds the first one's state. -/
theorem haltSentinel : Obligations.HaltSentinel := by
  have halts (s : State) (hr : s.run ≠ .idle) (hm : InRam s.cfg s.pc 4) (hw : ramWord s s.pc = 0#32) :
      step s = .next { s.resetTags with run := .halted } := by
    rw [step_ram hr hm, hw, afterFetch_zero]
  intro s hr hm hw
  refine ⟨halts s hr hm hw, (halts { s.resetTags with run := .halted } RunState.noConfusion hm hw).trans ?_⟩
  show Host.Outcome.next { s.resetTags.resetTags with run := .halted } = _
  rw [resetTags_idem]

/-! ## Idle -/

theorem step_idle {s : State} (h : s.run = .idle) : step s = .refused .noImageLoaded := by
  simp only [step, cycle, if_pos h]

theorem hostReset_idle {s : State} (h : s.run = .idle) : hostReset s = .refused .noImageLoaded := by
  simp only [hostReset, if_pos h]

theorem unlessIdle_idle {α : Type} {s : State} (h : s.run = .idle) (k : Inspection α) :
    unlessIdle s k = .refused .noImageLoaded := by
  simp only [unlessIdle, if_pos h]

/-- Settles O41. -/
theorem idleRefuses : Obligations.IdleRefuses := by
  intro s h
  refine ⟨step_idle h, ?_, fun t r => ?_, hostReset_idle h, ?_, fun r => unlessIdle_idle h _, unlessIdle_idle h _,
    fun a w => unlessIdle_idle h _, unlessIdle_idle h _⟩
  · simp only [hostStep, step_idle h]
  · simp only [hostRun, if_pos h]
  · simp only [hostMove, hostReset_idle h, afterCommand]

/-! ## Reset -/

/-- What `reset` needs of a state to restore the load of `img` in the configuration `cfg`. -/
structure HoldsImage (cfg : Config) (img : Image) (s : State) : Prop where
  cfg : s.cfg = cfg
  snapshot : s.snapshot = some img
  notIdle : s.run ≠ .idle

theorem hostReset_of_holdsImage {cfg : Config} {img : Image} {s : State} (h : HoldsImage cfg img s) :
    hostReset s = .next (loaded img s) := by
  simp only [hostReset, if_neg h.notIdle, h.snapshot]

theorem HoldsImage.after_hostStep {cfg : Config} {img : Image} {s : State} (h : HoldsImage cfg img s) :
    HoldsImage cfg img (hostStep s).1 := by
  unfold hostStep
  cases hs : step s with
  | next t =>
    obtain ⟨hc, hsn, -⟩ := stepKeepsHostState s t hs
    exact ⟨hc.trans h.cfg, hsn.trans h.snapshot, step_run_ne_idle hs⟩
  | fault f => exact ⟨h.cfg, h.snapshot, h.notIdle⟩
  | refused r => exact h

/-- Every move but `load` keeps the image. -/
theorem HoldsImage.after_hostMove {cfg : Config} {img : Image} {s : State} {m : HostMove} (h : HoldsImage cfg img s)
    (hm : isNotLoad m = true) : HoldsImage cfg img (hostMove m s) := by
  cases m with
  | load img' => exact absurd hm Bool.false_ne_true
  | reset =>
    simp only [hostMove, hostReset_of_holdsImage h, afterCommand]
    exact ⟨h.cfg, rfl, RunState.noConfusion⟩
  | step => exact h.after_hostStep
  | toggleSwitch _ | pressButton _ | releaseButton _ | feedSerialInput _ => exact ⟨h.cfg, h.snapshot, h.notIdle⟩

theorem HoldsImage.after_hostMoves {cfg : Config} {img : Image} {ms : List HostMove} {s : State} (h : HoldsImage cfg img s)
    (hms : ∀ m ∈ ms, isNotLoad m = true) : HoldsImage cfg img (hostMoves ms s) := by
  induction ms generalizing s with
  | nil => exact h
  | cons m ms ih =>
    obtain ⟨hm, hms⟩ := List.forall_mem_cons.mp hms
    exact ih (h.after_hostMove hm) hms

theorem hostLoad_eq_next {img : Image} {s t : State} (h : hostLoad img s = .next t) : t = loaded img s := by
  unfold hostLoad at h
  split_ifs at h
  exact (Host.Outcome.next.inj h).symm

/-- Settles O51: the moves keep what `reset` needs, and the state a load leaves depends, but for the host's own part, on the
image and the configuration alone. -/
theorem resetRestoresLoadedState : Obligations.ResetRestoresLoadedState := by
  intro img s0 s1 ms hl hms
  obtain rfl := hostLoad_eq_next hl
  have h : HoldsImage s0.cfg img (hostMoves ms (loaded img s0)) :=
    .after_hostMoves ⟨rfl, rfl, RunState.noConfusion⟩ hms
  refine ⟨_, hostReset_of_holdsImage h, congrArg initialRegs h.cfg, congrArg initialTags h.cfg, congrArg Config.entry h.cfg,
    rfl, rfl, rfl, rfl, rfl, rfl, h.cfg, rfl, rfl, rfl, rfl, rfl⟩

/-! ## Runs -/

theorem runFor_succ_executed {n : Nat} {s t : State} (h : hostStep s = (t, .executed)) :
    runFor (n + 1) s = runFor n t := by simp only [runFor, h]

theorem runFor_succ_halted {n : Nat} {s t : State} (h : hostStep s = (t, .halted)) :
    runFor (n + 1) s = (t, .halted) := by simp only [runFor, h]

theorem runFor_succ_fault {n : Nat} {s t : State} {f : Fault} (h : hostStep s = (t, .fault f)) :
    runFor (n + 1) s = (t, .fault f) := by simp only [runFor, h]

theorem runFor_succ_refused {n : Nat} {s t : State} {r : Refusal} (h : hostStep s = (t, .refused r)) :
    runFor (n + 1) s = (t, .refused r) := by simp only [runFor, h]

/-- A longer run goes on from where the shorter one's bound stopped it, and ends with it where it ended by itself. -/
theorem runFor_add {m : Nat} {s t : State} {r : RunReply} (h : runFor m s = (t, r)) (n : Nat) :
    runFor (m + n) s = if r = .limit then runFor n t else (t, r) := by
  induction m generalizing s with
  | zero =>
    obtain ⟨rfl, rfl⟩ := Prod.mk.inj h
    rw [Nat.zero_add, if_pos rfl]
  | succ m ih =>
    rw [Nat.add_right_comm]
    rcases hs : hostStep s with ⟨u, _ | _ | f | x⟩
    · rw [runFor_succ_executed hs] at h ⊢
      exact ih h
    · rw [runFor_succ_halted hs] at h ⊢
      obtain ⟨rfl, rfl⟩ := Prod.mk.inj h
      rfl
    · rw [runFor_succ_fault hs] at h ⊢
      obtain ⟨rfl, rfl⟩ := Prod.mk.inj h
      rfl
    · rw [runFor_succ_refused hs] at h ⊢
      obtain ⟨rfl, rfl⟩ := Prod.mk.inj h
      rfl

/-- The command `run` outside `Idle` (10_state.md R32). -/
theorem hostRun_iff {s t : State} {r : RunReply} (hr : s.run ≠ .idle) :
    hostRun s t r ↔ (∃ n, s.cfg.runLimit = some n ∧ runFor n s = (t, r)) ∨
      (s.cfg.runLimit = none ∧ r ≠ .limit ∧ ∃ n, runFor n s = (t, r)) := by
  unfold hostRun
  rw [if_neg hr]
  cases s.cfg.runLimit with
  | some n => simp
  | none => simp [runEnds, and_comm]

/-- Settles O52, from the lemmas on `runFor` and `hostRun`. -/
theorem runIsItsSteps : Obligations.RunIsItsSteps := by
  refine ⟨fun _ => rfl, fun _ _ _ => runFor_succ_executed, fun _ _ _ => runFor_succ_halted,
    fun _ _ _ _ => runFor_succ_fault, fun _ _ _ _ => runFor_succ_refused, fun _ => rfl, fun m n s => ?_,
    fun _ _ _ => hostRun_iff⟩
  rcases h : runFor m s with ⟨t, _ | f | x | _⟩ <;> exact runFor_add h n

end Sys2Proof.Machine
end

section
/-! Memory accesses and the instructions that make them: what completes a load or a store, and the bytes a store to RAM
leaves for a read (20_memory.md R61 to R64, R68). -/

namespace Sys2Proof.Machine

/-! ## Reads -/

theorem resolve_of_readBytes {s t : State} {l : List Word} {bs : List Byte} (h : readBytes s l = .ok (bs, t)) :
    ∀ a ∈ l, ∃ k, resolve s.cfg a = some k := by
  induction l generalizing s bs with
  | nil => simp
  | cons a l ih =>
    obtain ⟨⟨b, u⟩, h1, h2⟩ := except_bind_eq_ok.mp h
    obtain ⟨⟨cs, v⟩, h3, h4⟩ := except_bind_eq_ok.mp h2
    obtain ⟨-, rfl⟩ := Prod.mk.inj (Except.ok.inj h4)
    obtain ⟨hu, -, hk⟩ := readByte_eq_ok h1
    have hc : u.cfg = s.cfg := by rw [hu]
    exact List.forall_mem_cons.mpr ⟨hk, hc ▸ ih h3⟩

/-- A multi-byte read is its byte reads, put together: their completing is all that admission asks. -/
theorem memRead_of_readBytes {s t : State} {a : Word} {w : Width} {bs : List Byte}
    (h : readBytes s (addresses a w.bytes) = .ok (bs, t)) : memRead s a w = .ok (littleEndian bs, t) := by
  have ha : (addresses a w.bytes).find? (refuses s.cfg .read) = none :=
    List.find?_eq_none.mpr fun x hx => by simp [not_refuses_read.mpr (resolve_of_readBytes h x hx)]
  simp [memRead, admission_ok.mpr ha, h]

theorem memRead_byte {s t : State} {a : Word} {b : Byte} (h : readByte s a = .ok (b, t)) :
    memRead s a .byte = .ok (b.setWidth 32, t) := by
  rw [← littleEndian_one b]
  refine memRead_of_readBytes ?_
  simp [Width.bytes, addresses_one, readBytes, h]

/-! ## Loads -/

/-- A load completes when its read does: the destination, enabled before the read, is enabled after it. -/
theorem loadForm_completes {w : Width} (ext : Width → Word → Word) {rB rA : Reg} {imm16 : Imm16} {s m : State} {v : Word}
    (h : Enabled s [rA, rB]) (hr : memRead (s.setTag rA .read) (effectiveAddress (s.reg rA) imm16) w = .ok (v, m)) :
    ∃ u, writeReg m rB (ext w v) = .ok u ∧ loadForm w ext rB imm16 rA s = .next (advance u) := by
  obtain ⟨hA, hB, -⟩ : _ ∧ _ ∧ True := by simpa [Enabled] using h
  obtain ⟨-, hm, -⟩ := memRead_eq_ok hr
  have htag : m.tag rB = (s.setTag rA .read).tag rB := tag_congr (by rw [hm]) rB
  obtain ⟨u, hu⟩ := writeReg_enabled (s := m) (i := rB) (ext w v) (htag ▸ setTag_read_tag_ne hB)
  exact ⟨u, hu, by simp [loadForm, readReg_enabled hA, hr, hu]⟩

theorem zeroExtendFrom_byte (b : Byte) : zeroExtendFrom .byte (b.setWidth 32) = b.setWidth 32 := by
  simp [zeroExtendFrom]

/-- An unsigned byte load, where the byte read changes nothing. -/
theorem loadForm_byte_pure {rB rA : Reg} {imm16 : Imm16} {s : State} {b : Byte} (h : Enabled s [rA, rB])
    (hr : readByte (s.setTag rA .read) (effectiveAddress (s.reg rA) imm16) = .ok (b, s.setTag rA .read)) :
    WritesReg [rA] rB (b.setWidth 32) s (loadForm .byte zeroExtendFrom rB imm16 rA s) := by
  obtain ⟨u, hu, e⟩ := loadForm_completes zeroExtendFrom h (memRead_byte hr)
  rw [e, ← zeroExtendFrom_byte b]
  exact writesReg_of_write rfl (tag_after_read s rA) hu

/-! ## Stores -/

theorem storeForm_completes {w : Width} {rB rA : Reg} {imm16 : Imm16} {s m : State} (h : Enabled s [rA, rB])
    (hw : memWrite ((s.setTag rA .read).setTag rB .read) (effectiveAddress (s.reg rA) imm16) w (s.reg rB) = .ok m) :
    storeForm w rB imm16 rA s = .next (advance m) := by
  obtain ⟨hA, hB, -⟩ : _ ∧ _ ∧ True := by simpa [Enabled] using h
  simp [storeForm, readReg_enabled hA, readReg_enabled (setTag_read_tag_ne (i := rA) hB), hw]

theorem storeForm_refused {w : Width} {rB rA : Reg} {imm16 : Imm16} {s : State} {x : Word} (h : Enabled s [rA, rB])
    (hx : (addresses (effectiveAddress (s.reg rA) imm16) w.bytes).find? (refuses s.cfg .write) = some x) :
    storeForm w rB imm16 rA s = .fault (.memoryError ((s.setTag rA .read).setTag rB .read).report x) := by
  obtain ⟨hA, hB, -⟩ : _ ∧ _ ∧ True := by simpa [Enabled] using h
  simp [storeForm, readReg_enabled hA, readReg_enabled (setTag_read_tag_ne (i := rA) hB),
    memWrite_refused (s := (s.setTag rA .read).setTag rB .read) hx]

/-- The first address an access is searched for is no higher than one known to qualify. -/
theorem find_addresses_le {p : Word → Bool} {a : Word} {n k : Nat} (hk : k < n) (hp : p (a + BitVec.ofNat 32 k) = true) :
    ∃ j, j ≤ k ∧ (addresses a n).find? p = some (a + BitVec.ofNat 32 j) := by
  cases hf : (List.range n).find? (p ∘ fun i => a + BitVec.ofNat 32 i) with
  | none => exact absurd hp (List.find?_eq_none.mp hf k (List.mem_range.mpr hk))
  | some j =>
    obtain ⟨-, -, hlt⟩ := List.find?_range_eq_some.mp hf
    refine ⟨j, ?_, by rw [addresses, List.find?_map, hf]; rfl⟩
    by_contra hkj
    simpa [hp] using hlt k (by omega)

theorem refuses_write_of_readOnly {cfg : Config} {a : Word} {b : Block} (hr : resolve cfg a = some b)
    (hk : b.kind = .dip ∨ b.kind = .btn) : refuses cfg .write a = true := by
  rcases hk with hk | hk <;> simp [refuses, hr, hk]

/-- Settles O22: the search of admission stops at the read-only byte or below it. -/
theorem readOnlyWindowsRejectStores : Obligations.ReadOnlyWindowsRejectStores := by
  intro s rB rA imm16 k b hE hb hk
  have store_faults (w : Width) (i : Instr) (hi : exec i s = storeForm w rB imm16 rA s) (hkw : k < w.bytes) :
      ∃ j, j ≤ k ∧
        FaultsAtPC (fun r => .memoryError r (s.reg rA + imm16.signExtend 32 + BitVec.ofNat 32 j)) s (exec i s) := by
    obtain ⟨j, hj, hf⟩ := find_addresses_le hkw (refuses_write_of_readOnly hb hk)
    exact ⟨j, hj, _, hi.trans (storeForm_refused hE hf), rfl⟩
  simp only [List.forall_mem_cons]
  exact ⟨store_faults .word _ (exec_stw ..), store_faults .word _ (exec_stwio ..), store_faults .half _ (exec_sth ..),
    store_faults .half _ (exec_sthio ..), store_faults .byte _ (exec_stb ..), store_faults .byte _ (exec_stbio ..),
    List.forall_mem_nil _⟩

/-! ## A word stored in RAM, read back -/

/-- The bytes a store to RAM leaves (20_memory.md R63). -/
theorem read_stored {m : Memory} (hm : Memory.WF m) (a : Word) {w : Width} (v : Word) {i : Nat} (hi : i < w.bytes) :
    ((storeList a w v).foldl (fun m p => m.write p.1.toNat p.2) m).read (a + BitVec.ofNat 32 i).toNat = byteOf v i :=
  foldl_write_listed hm (map_fst_storeList a w v ▸ addresses_nodup a w) (p := (a + BitVec.ofNat 32 i, byteOf v i))
    (List.mem_map.mpr ⟨i, List.mem_range.mpr hi, rfl⟩)

theorem memWrite_ram_bytes {s : State} {a : Word} {w : Width} (v : Word) (hs : Memory.WF s.mem)
    (h : InRam s.cfg a w.bytes) : ∃ t, memWrite s a w v = .ok t ∧ t.cfg = s.cfg ∧
      ∀ i, i < w.bytes → t.mem.read (a + BitVec.ofNat 32 i).toNat = byteOf v i :=
  ⟨_, memWrite_ram v h, rfl, fun _ => read_stored hs a v⟩

theorem add_ofNat_add_ofNat (a : Word) (i j : Nat) :
    a + BitVec.ofNat 32 i + BitVec.ofNat 32 j = a + BitVec.ofNat 32 (i + j) := by
  rw [BitVec.add_assoc, ← BitVec.ofNat_add]

/-- A read within a word that stands in RAM gives the word's bytes from the offset up (20_memory.md R64). -/
theorem memRead_within_word {t : State} {a v : Word} {w : Width} {i : Nat} (hm : InRam t.cfg a 4)
    (hv : ∀ k, k < 4 → t.mem.read (a + BitVec.ofNat 32 k).toNat = byteOf v k) (hi : i + w.bytes ≤ 4) :
    memRead t (a + BitVec.ofNat 32 i) w =
      .ok (littleEndian ((List.range w.bytes).map (fun j => byteOf v (i + j))), t) := by
  have hin : InRam t.cfg (a + BitVec.ofNat 32 i) w.bytes := fun j hj => by
    rw [add_ofNat_add_ofNat]; exact hm _ (by omega)
  have hbytes : (addresses (a + BitVec.ofNat 32 i) w.bytes).map (fun x => t.mem.read x.toNat) =
      (List.range w.bytes).map (fun j => byteOf v (i + j)) := by
    rw [addresses, List.map_map]
    refine List.map_congr_left fun j hj => ?_
    have hj := List.mem_range.mp hj
    rw [Function.comp_apply, add_ofNat_add_ofNat, hv _ (by omega)]
  rw [memRead_ram hin, hbytes]

theorem memRead_word_of_bytes {t : State} {a v : Word} (hm : InRam t.cfg a 4)
    (hv : ∀ k, k < 4 → t.mem.read (a + BitVec.ofNat 32 k).toNat = byteOf v k) : memRead t a .word = .ok (v, t) := by
  have h := memRead_within_word (w := .word) (i := 0) hm hv le_rfl
  rw [BitVec.add_zero] at h
  rw [h]
  exact congrArg (fun x => Except.ok (x, t)) (littleEndian_wordBytes v)

theorem append_byteOf (v : Word) (i : Nat) : byteOf v (i + 1) ++ byteOf v i = v.extractLsb' (8 * i) 16 := by
  rw [byteOf, byteOf, BitVec.extractLsb'_append_extractLsb'_eq_extractLsb' (by omega)]

/-- Settles O21: the store leaves the word's bytes in RAM, and each read is one within that word. -/
theorem narrowReadsOfAWord : Obligations.NarrowReadsOfAWord := by
  intro s a v hs hm
  obtain ⟨t, ht, hc, hv⟩ := memWrite_ram_bytes (w := .word) v hs.canonical hm
  rw [← hc] at hm
  refine ⟨t, ht, memRead_word_of_bytes hm hv, fun i hi => ?_, fun i hi => ?_⟩
  · rw [memRead_within_word (w := .byte) hm hv hi]
    exact congrArg (fun x => Except.ok (x, t)) (littleEndian_one (byteOf v i))
  · rw [memRead_within_word (w := .half) hm hv (Nat.add_le_add_right (Nat.le_of_lt_succ hi) 2), ← append_byteOf]
    exact congrArg (fun x => Except.ok (x, t)) (littleEndian_two (byteOf v i) (byteOf v (i + 1)))

/-- Settles O23: the fetch is a word read of what the store left. -/
theorem storeSeenByFetch : Obligations.StoreSeenByFetch := by
  intro s rB rA imm16 hs hE hm
  exact ⟨_, (exec_stw ..).trans (storeForm_ram hE hm),
    memRead_word_of_bytes hm fun k hk => read_stored hs.canonical _ (w := .word) _ hk⟩

end Sys2Proof.Machine
end

section
/-! The devices (20_memory.md R70 to R88): byte accesses at an offset of a device window, the loads and stores made of them,
and the stimuli. -/

namespace Sys2Proof.Machine

/-! ## Byte accesses of a device window -/

theorem readByte_led {s : State} {a : Word} {off : Nat} (h : InDevice s.cfg a .led off) :
    readByte s a = .ok (ledRead s off, s) := by
  obtain ⟨b, hb, hk, ha⟩ := h
  simp [readByte, hb, blockRead, hk, ha]

theorem readByte_dip {s : State} {a : Word} {off : Nat} (h : InDevice s.cfg a .dip off) :
    readByte s a = .ok (dipRead s off, s) := by
  obtain ⟨b, hb, hk, ha⟩ := h
  simp [readByte, hb, blockRead, hk, ha]

theorem readByte_btn {s : State} {a : Word} {off : Nat} (h : InDevice s.cfg a .btn off) :
    readByte s a = .ok (btnRead s off, s) := by
  obtain ⟨b, hb, hk, ha⟩ := h
  simp [readByte, hb, blockRead, hk, ha]

theorem readByte_serial {s : State} {a : Word} {off : Nat} (h : InDevice s.cfg a .serial off) :
    readByte s a = .ok (serialRead s off) := by
  obtain ⟨b, hb, hk, ha⟩ := h
  simp [readByte, hb, blockRead, hk, ha]

theorem writeByte_led {s : State} {a : Word} {off : Nat} (v : Byte) (h : InDevice s.cfg a .led off) :
    writeByte s a v = .ok (ledWrite s off v) := by
  obtain ⟨b, hb, hk, ha⟩ := h
  simp [writeByte, hb, hk, ha]

theorem writeByte_serial {s : State} {a : Word} {off : Nat} (v : Byte) (h : InDevice s.cfg a .serial off) :
    writeByte s a v = .ok (serialWrite s off v) := by
  obtain ⟨b, hb, hk, ha⟩ := h
  simp [writeByte, hb, hk, ha]

/-- A byte read outside the serial block gives what inspection shows, and changes nothing (20_memory.md R68, R89). -/
theorem readByte_eq_peek {s : State} {a : Word} {b : Block} (hb : resolve s.cfg a = some b) (hk : b.kind ≠ .serial) :
    ∃ v, s.peek a = some v ∧ readByte s a = .ok (v, s) := by
  simp only [State.peek, readByte, blockRead, hb]
  cases hkind : b.kind with
  | ram | led | dip | btn => exact ⟨_, rfl, rfl⟩
  | serial => exact absurd hkind hk

/-- Settles O28. -/
theorem readsWithoutSideEffect : Obligations.ReadsWithoutSideEffect := by
  intro s t a b v hb hk h
  obtain ⟨x, hpeek, hread⟩ := readByte_eq_peek hb hk
  obtain ⟨rfl, rfl⟩ := Prod.mk.inj (Except.ok.inj (hread.symm.trans h))
  exact ⟨rfl, hpeek⟩

/-! ## Nibble devices -/

/-- Settles O25: the byte reads of the three windows have no side effect, and give the nibble or zero. -/
theorem nibbleDeviceLoads : Obligations.NibbleDeviceLoads := by
  intro s rB rA imm16 off hE
  have load_gives (i : Instr) (hi : exec i s = loadForm .byte zeroExtendFrom rB imm16 rA s) (n : Nibble)
      (hr : readByte (s.setTag rA .read) (s.reg rA + imm16.signExtend 32) =
        .ok (if off = 0 then n.setWidth 8 else 0#8, s.setTag rA .read)) :
      WritesReg [rA] rB (if off = 0 then n.setWidth 32 else 0#32) s (exec i s) := by
    have hv : (if off = 0 then n.setWidth 8 else 0#8).setWidth 32 = if off = 0 then n.setWidth 32 else 0#32 := by
      split
      · exact BitVec.setWidth_setWidth (by decide)
      · rfl
    rw [hi, ← hv]
    exact loadForm_byte_pure hE hr
  have loads (i : Instr) (hi : exec i s = loadForm .byte zeroExtendFrom rB imm16 rA s) :=
    And.intro (fun h => load_gives i hi s.led (readByte_led h))
      (And.intro (fun h => load_gives i hi (inputBits s.cfg s.sw) (readByte_dip h))
        (fun h => load_gives i hi (inputBits s.cfg s.btn) (readByte_btn h)))
  simp only [List.forall_mem_cons]
  exact ⟨loads _ (exec_ldbu ..), loads _ (exec_ldbuio ..), List.forall_mem_nil _⟩

/-- Byte writes of the LED window beside its data byte are discarded (20_memory.md R70). -/
theorem writeBytes_led_discarded {s : State} {l : List (Word × Byte)}
    (h : ∀ p ∈ l, ∃ off, off ≠ 0 ∧ InDevice s.cfg p.1 .led off) : writeBytes s l = .ok s := by
  induction l with
  | nil => rfl
  | cons p l ih =>
    obtain ⟨off, h0, hp⟩ := h p (by simp)
    rw [writeBytes, writeByte_led p.2 hp, ledWrite, if_neg h0]
    exact ih fun q hq => h q (by simp [hq])

theorem storeList_eq_cons (a : Word) (w : Width) (v : Word) : storeList a w v =
    (a, byteOf v 0) :: (List.range (w.bytes - 1)).map (fun i => (a + BitVec.ofNat 32 (i + 1), byteOf v (i + 1))) := by
  obtain ⟨n, hn⟩ : ∃ n, w.bytes = n + 1 := by cases w <;> exact ⟨_, rfl⟩
  simp [storeList, hn, List.range_succ_eq_map]

/-- A write that begins at the LED data byte and stays in the window is one byte write of the data byte. -/
theorem memWrite_led {s : State} {a : Word} {w : Width} (v : Word)
    (h : ∀ k, k < w.bytes → InDevice s.cfg (a + BitVec.ofNat 32 k) .led k) :
    memWrite s a w v = .ok (ledWrite s 0 (byteOf v 0)) := by
  have admitted : (addresses a w.bytes).find? (refuses s.cfg .write) = none := by
    refine List.find?_eq_none.mpr fun x hx => ?_
    obtain ⟨i, hi, rfl⟩ := mem_addresses.mp hx
    obtain ⟨b, hb, hk, -⟩ := h i hi
    simp [not_refuses_write.mpr ⟨b, hb, by simp [hk], by simp [hk]⟩]
  have h0 : InDevice s.cfg a .led 0 := by
    simpa using h 0 (by cases w <;> decide)
  refine memWrite_eq_ok.mpr ⟨admitted, ?_⟩
  rw [storeList_eq_cons, writeBytes, writeByte_led _ h0, except_bind_ok]
  refine writeBytes_led_discarded fun p hp => ?_
  obtain ⟨i, hi, rfl⟩ := List.mem_map.mp hp
  have hi := List.mem_range.mp hi
  exact ⟨i + 1, Nat.succ_ne_zero i, h (i + 1) (by omega)⟩

theorem lowNibble_byteOf (v : Word) : (byteOf v 0).setWidth 4 = BitVec.ofNat 4 (v.toNat % 16) := by
  refine BitVec.eq_of_toNat_eq ?_
  simp [byteOf]

/-- The outcome of a store of `v` to the LED data byte by an instruction that reads `rs`: the low nibble is kept and sent to
the host once, and nothing else changes but the PC and the tags (20_memory.md R72). -/
def StoresLed (rs : List Reg) (v : Word) (s : State) (out : Result) : Prop :=
  ∃ t, out = .next t ∧ t.led = BitVec.ofNat 4 (v.toNat % 16) ∧
    t.trace = s.trace ++ [.ledUpdate (BitVec.ofNat 4 (v.toNat % 16))] ∧
    t.mem = s.mem ∧ (∀ r, t.reg r = s.reg r) ∧ t.pc = s.pc + 4#32 ∧ TagsMarked rs none s t ∧ t.rx = s.rx ∧
    t.tx = s.tx ∧ t.rrdy = s.rrdy ∧ t.sw = s.sw ∧ t.btn = s.btn ∧ t.inq = s.inq ∧ t.run = s.run ∧ t.cfg = s.cfg ∧
    t.snapshot = s.snapshot

theorem storeForm_led {w : Width} {rB rA : Reg} {imm16 : Imm16} {s : State} (hE : Enabled s [rA, rB])
    (h : ∀ k, k < w.bytes → InDevice s.cfg (effectiveAddress (s.reg rA) imm16 + BitVec.ofNat 32 k) .led k) :
    StoresLed [rA, rB] (s.reg rB) s (storeForm w rB imm16 rA s) :=
  ⟨_, storeForm_completes hE (memWrite_led (s := (s.setTag rA .read).setTag rB .read) (s.reg rB) h),
    lowNibble_byteOf _, congrArg (fun n => s.trace ++ [.ledUpdate n]) (lowNibble_byteOf _), rfl, fun _ => rfl, rfl,
    tag_after_reads s rA rB, rfl, rfl, rfl, rfl, rfl, rfl, rfl, rfl, rfl⟩

/-- Settles O24, for each store as its shape. -/
theorem ledStore : Obligations.LedStore := by
  intro s rB rA imm16 hE
  have store_led (w : Width) (i : Instr) (hi : exec i s = storeForm w rB imm16 rA s)
      (h : ∀ k, k < w.bytes → InDevice s.cfg (s.reg rA + imm16.signExtend 32 + BitVec.ofNat 32 k) .led k) :
      StoresLed [rA, rB] (s.reg rB) s (exec i s) := hi ▸ storeForm_led hE h
  simp only [List.forall_mem_cons]
  exact ⟨store_led .byte _ (exec_stb ..), store_led .byte _ (exec_stbio ..), store_led .half _ (exec_sth ..),
    store_led .half _ (exec_sthio ..), store_led .word _ (exec_stw ..), store_led .word _ (exec_stwio ..),
    List.forall_mem_nil _⟩

/-! ## Serial block -/

theorem serialPoll_takes {s : State} {c : Byte} {q : List Byte} (hr : s.rrdy = false) (hq : s.inq = c :: q) :
    serialPoll s = { s with rx := c, inq := q, rrdy := true } := by
  simp [serialPoll, hr, hq]

theorem serialPoll_idle {s : State} (h : s.rrdy = true ∨ s.inq = []) : serialPoll s = s := by
  rcases h with h | h
  · simp [serialPoll, h]
  · cases hr : s.rrdy <;> simp [serialPoll, h, hr]

@[simp] theorem serialPoll_cfg (s : State) : (serialPoll s).cfg = s.cfg := by
  obtain ⟨c, f, q, h, -⟩ := serialPoll_shape s
  rw [h]

@[simp] theorem serialPoll_tx (s : State) : (serialPoll s).tx = s.tx := by
  obtain ⟨c, f, q, h, -⟩ := serialPoll_shape s
  rw [h]

@[simp] theorem serialPoll_trace (s : State) : (serialPoll s).trace = s.trace := by
  obtain ⟨c, f, q, h, -⟩ := serialPoll_shape s
  rw [h]

theorem readByte_serial_rx {s : State} {a : Word} (h : InDevice s.cfg a .serial s.cfg.uartRxOff) :
    readByte s a = .ok ((serialPoll s).rx, { serialPoll s with rrdy := false }) := by
  simp [readByte_serial h, serialRead, serialView]

/-- A read beside the receive-data byte leaves what the poll left. -/
theorem readByte_serial_not_rx {s : State} {a : Word} {off : Nat} (h : InDevice s.cfg a .serial off)
    (hrx : off ≠ s.cfg.uartRxOff) : readByte s a = .ok (serialView (serialPoll s) off, serialPoll s) := by
  simp [readByte_serial h, serialRead, hrx]

theorem readByte_serial_unused {s : State} {a : Word} {off : Nat} (h : InDevice s.cfg a .serial off)
    (hrx : off ≠ s.cfg.uartRxOff) (htx : off ≠ s.cfg.uartTxOff) (hst : off ≠ s.cfg.uartStOff) :
    readByte s a = .ok (0#8, serialPoll s) := by
  simp [readByte_serial_not_rx h hrx, serialView, hrx, htx, hst]

/-- Settles O26, clause by clause of the register map. -/
theorem serialAccesses : Obligations.SerialAccesses := by
  refine ⟨fun s => ⟨fun c q => serialPoll_takes, serialPoll_idle⟩, fun s a off h hrt hrs hts => ⟨?_, ?_, ?_, ?_⟩,
    fun s a v off h hrt => ⟨?_, ?_⟩⟩
  · rintro rfl
    exact readByte_serial_rx h
  · rintro rfl
    simp [readByte_serial_not_rx h hrt.symm, serialView, hrt.symm]
  · rintro rfl
    simp [readByte_serial_not_rx h hrs.symm, serialView, serialStatus, hrs.symm, hts.symm]
  · exact readByte_serial_unused h
  · rintro rfl
    simp [writeByte_serial v h, serialWrite, hrt.symm, emit]
  · intro htx
    simp [writeByte_serial v h, serialWrite, htx]

/-- The serial window of `CFG0` (20_memory.md R56). -/
theorem inDevice_cfg0_serial (n : Nat) {off : Nat} (h : off < 12) :
    InDevice (Config.cfg0 n) (BitVec.ofNat 32 (0x860 + off)) .serial off := by
  have ha : (BitVec.ofNat 32 (0x860 + off)).toNat = 0x860 + off := by
    rw [BitVec.toNat_ofNat]; omega
  refine ⟨{ name := "SERIAL", start := 0x00000860, len := 12, kind := .serial }, ?_, rfl, ha⟩
  simp [resolve, Config.cfg0, Config.cfg0Blocks, blockContains, ha]
  omega

/-- The three bytes above the receive-data byte in `CFG0` are no registers. -/
theorem readByte_cfg0_above_rx {s t : State} {n off : Nat} (hc : s.cfg = Config.cfg0 n) (h : 0 < off ∧ off < 4)
    (hp : serialPoll s = t) : readByte s (BitVec.ofNat 32 (0x860 + off)) = .ok (0#8, t) := by
  have hdev : InDevice s.cfg (BitVec.ofNat 32 (0x860 + off)) .serial off := hc ▸ inDevice_cfg0_serial n (by omega)
  rw [← hp]
  apply readByte_serial_unused hdev <;> simp only [hc, Config.cfg0] <;> omega

theorem littleEndian_low_byte (b : Byte) : littleEndian [b, 0#8, 0#8, 0#8] = b.setWidth 32 := by
  simp [littleEndian]

/-- The word read at the receive register in `CFG0`: the first byte read takes the first character and clears receive-ready,
the second polls the next one in, and the other two find receive-ready set (20_memory.md R85). -/
theorem memRead_serial_word {s : State} {n : Nat} {c d : Byte} {q : List Byte} (hc : s.cfg = Config.cfg0 n)
    (hr : s.rrdy = false) (hq : s.inq = c :: d :: q) :
    memRead s 0x860#32 .word = .ok (c.setWidth 32, { s with rx := d, rrdy := true, inq := q }) := by
  have hrx : InDevice s.cfg 0x860#32 .serial s.cfg.uartRxOff := by
    rw [hc]; exact inDevice_cfg0_serial n (off := 0) (by decide)
  have h0 : readByte s 0x860#32 = .ok (c, { s with rx := c, rrdy := false, inq := d :: q }) := by
    rw [readByte_serial_rx hrx, serialPoll_takes hr hq]
  have h1 : readByte { s with rx := c, rrdy := false, inq := d :: q } 0x861#32 =
      .ok (0#8, { s with rx := d, rrdy := true, inq := q }) :=
    readByte_cfg0_above_rx (off := 1) hc (by decide) (serialPoll_takes rfl rfl)
  have full {off : Nat} (h : 0 < off ∧ off < 4) :
      readByte { s with rx := d, rrdy := true, inq := q } (BitVec.ofNat 32 (0x860 + off)) =
        .ok (0#8, { s with rx := d, rrdy := true, inq := q }) :=
    readByte_cfg0_above_rx hc h (serialPoll_idle (.inl rfl))
  rw [← littleEndian_low_byte]
  refine memRead_of_readBytes ?_
  show readBytes s [0x860#32, 0x861#32, 0x862#32, 0x863#32] = _
  simp only [readBytes, h0, h1, full (off := 2) (by decide), full (off := 3) (by decide), except_bind_ok, except_pure]

/-- Settles O27. -/
theorem serialWordLoad : Obligations.SerialWordLoad := by
  intro s rB rA imm16 c d q hE h0 hc ha hr hq
  have hm := memRead_serial_word (s := s.setTag rA .read) hc hr hq
  rw [← ha] at hm
  obtain ⟨u, hu, e⟩ := loadForm_completes zeroExtendFrom hE hm
  obtain ⟨-, hf, hreg, -⟩ := writeReg_eq_ok hu
  refine ⟨_, (exec_ldw ..).trans e, ?_, ?_, ?_, ?_⟩
  · simp [hreg, h0, zeroExtendFrom]
  · rw [advance_rx, hf]
  · rw [advance_rrdy, hf]
  · rw [advance_inq, hf]

/-! ## Stimuli -/

theorem bitMask_getElem (i j : Fin 4) : (bitMask i)[j.val] = decide (j = i) := by
  revert i j; decide

/-- Settles O54, from the bits of the mask. -/
theorem stimuliEffects : Obligations.StimuliEffects := by
  intro s i j c
  refine ⟨?_, rfl, ?_, rfl, ?_, rfl, rfl⟩
  · by_cases h : j = i <;> simp [toggleSwitch, bitMask_getElem, h]
  · by_cases h : j = i <;> simp [pressButton, bitMask_getElem, h]
  · by_cases h : j = i <;> simp [releaseButton, bitMask_getElem, h]

end Sys2Proof.Machine
end

section
/-! The statements of 30_encoding.md: the encoders as sums, the round trip of an instruction through its word, and the decoder
against the opcode table. Every word matches a row and decodes to that row, or lies in a class of R114 and is rejected. -/

namespace Sys2Proof.Machine

/-! ## Words as sums of their fields (30_encoding.md R116) -/

theorem toNat_append_eq_add {m n : Nat} (x : BitVec m) (y : BitVec n) : (x ++ y).toNat = x.toNat * 2 ^ n + y.toNat := by
  rw [BitVec.toNat_append, ← Nat.shiftLeft_add_eq_or_of_lt y.isLt, Nat.shiftLeft_eq]

theorem toNat_encI (op : Op6) (rA rB : Reg) (imm16 : Imm16) : (encI op rA rB imm16).toNat =
    rA.toNat * 2 ^ 27 + rB.toNat * 2 ^ 22 + imm16.toNat * 2 ^ 6 + op.toNat := by
  simp only [encI, toNat_append_eq_add]; omega

theorem toNat_encR (opx : Op6) (rA rB rC : Reg) (imm5 : Imm5) : (encR opx rA rB rC imm5).toNat =
    rA.toNat * 2 ^ 27 + rB.toNat * 2 ^ 22 + rC.toNat * 2 ^ 17 + opx.toNat * 2 ^ 11 + imm5.toNat * 2 ^ 6 + 0x3A := by
  have hop : opRType.toNat = 0x3A := rfl
  simp only [encR, toNat_append_eq_add, hop]; omega

theorem toNat_encJ (op : Op6) (imm26 : Imm26) : (encJ op imm26).toNat = imm26.toNat * 2 ^ 6 + op.toNat :=
  toNat_append_eq_add imm26 op

theorem toNat_linkJump (v : Value) : (linkJump (v <<< 2)).toNat = v.toNat % 2 ^ 26 := by
  simp only [linkJump, BitVec.toNat_setWidth, BitVec.toNat_ushiftRight, BitVec.toNat_shiftLeft, Nat.shiftLeft_eq,
    Nat.shiftRight_eq_div_pow]
  omega

/-! ## Round trip (30_encoding.md R105, R116) -/

theorem decode_of_rType {w : Word} (h : fieldOp w = opRType) : decode w = decodeR w := by
  unfold decode; rw [h]; rfl

theorem decode_encode (i : Instr) : decode (encode i) = .ok i := by
  cases i with
  | add | sub | mul | mulxss | mulxsu | mulxuu | div | divu | and | or | xor | nor | cmpeq | cmpne | cmpge | cmpgeu | cmplt
  | cmpltu | sll | slli | srl | srli | sra | srai | rol | roli | ror | callr | jmp | ret =>
    rw [encode, decode_of_rType (fieldOp_encR ..)]
    simp [decodeR, requireImm5Zero]
  | _ => simp [encode, decode]

/-- The word 0 decodes to `call 0`, the one ill-formed instruction, so no other instruction is encoded by it (R113). -/
theorem encode_ne_zero {i : Instr} (hi : i.wellFormed = true) : encode i ≠ 0#32 := by
  intro h0
  have hd : decode (encode i) = .ok (.call 0#26) := by rw [h0]; rfl
  obtain rfl : i = .call 0#26 := Except.ok.inj ((decode_encode i).symm.trans hd)
  exact absurd hi (by decide)

/-- Settles O1. -/
theorem decodeInvertsEncode : Obligations.DecodeInvertsEncode :=
  ⟨fun i => ⟨decode_encode i, encode_ne_zero⟩, toNat_encI, toNat_encR, toNat_encJ,
    fun v => ⟨BitVec.toNat_setWidth 16 v, BitVec.toNat_setWidth 5 v, toNat_linkJump v⟩⟩

/-! ## Words that match a row (30_encoding.md R104) -/

/-- A field that lies within the mask of a row has, in a word that matches the row, its value in the pattern. -/
theorem extract_of_match {r : Row} {w : Word} {start len : Nat} (h : w &&& r.mask = r.pattern)
    (hm : r.mask.extractLsb' start len = BitVec.allOnes len) :
    w.extractLsb' start len = r.pattern.extractLsb' start len := by
  rw [← h, BitVec.extractLsb'_and, hm, BitVec.and_allOnes]

/-- `OP` lies within the mask of every row. -/
theorem fieldOp_mask (r : Row) : fieldOp r.mask = BitVec.allOnes 6 := by cases r <;> rfl

/-- A word that matches a row decodes to an instruction of that row: the mask of its format fixes the fields the decoder
looks at. -/
theorem decode_of_match {r : Row} {w : Word} (h : w &&& r.mask = r.pattern) : ∃ i, decode w = .ok i ∧ i.row = r := by
  have hop : fieldOp w = fieldOp r.pattern := extract_of_match h (fieldOp_mask r)
  cases r with
  | slli | srli | srai | roli =>
    have hopx : fieldOpx w = _ := extract_of_match h rfl
    rw [decode_of_rType hop]
    exact ⟨_, by unfold decodeR; rw [hopx]; rfl, rfl⟩
  | add | sub | mul | mulxss | mulxsu | mulxuu | div | divu | and | or | xor | nor | cmpeq | cmpne | cmpge | cmpgeu | cmplt
  | cmpltu | sll | srl | sra | rol | ror | callr | jmp | ret =>
    have hopx : fieldOpx w = _ := extract_of_match h rfl
    have himm5 : fieldImm5 w = _ := extract_of_match h rfl
    rw [decode_of_rType hop]
    exact ⟨_, by unfold decodeR; rw [hopx, himm5]; rfl, rfl⟩
  | _ => exact ⟨_, by unfold decode; rw [hop]; rfl, rfl⟩

/-- Settles O2: the columns row by row, and two rows that match a word are both the row of the one instruction it decodes
to. -/
theorem rowsAreDisjoint : Obligations.RowsAreDisjoint := by
  refine ⟨fun r => ?_, fun r => ?_, fun r r' w h h' => ?_⟩
  · cases r <;> decide
  · cases r <;> rfl
  · obtain ⟨i, hi, rfl⟩ := decode_of_match h
    obtain ⟨j, hj, rfl⟩ := decode_of_match h'
    rw [Except.ok.inj (hi.symm.trans hj)]

/-! ## The classes of illegal word (30_encoding.md R114) -/

/-- Class (a): the values of `OP` without a row. -/
def unassignedOps : List Nat :=
  [0x02, 0x09, 0x0A, 0x11, 0x12, 0x13, 0x19, 0x1A, 0x1B, 0x1D, 0x1F, 0x21, 0x22, 0x29, 0x2A, 0x31, 0x32, 0x33, 0x38, 0x39,
    0x3B, 0x3D, 0x3E, 0x3F]

/-- Class (b): the values of `OPX` without a row. -/
def unassignedOpxs : List Nat :=
  [0x00, 0x01, 0x04, 0x09, 0x0A, 0x0C, 0x0F, 0x11, 0x14, 0x15, 0x19, 0x1C, 0x21, 0x22, 0x23, 0x26, 0x29, 0x2A, 0x2B, 0x2C,
    0x2D, 0x2E, 0x2F, 0x32, 0x33, 0x34, 0x35, 0x36, 0x37, 0x38, 0x3C, 0x3D, 0x3E, 0x3F]

/-- The values of `OPX` whose rows have an `IMM5` operand: class (c) leaves them out. -/
def imm5Opxs : List Nat := [0x02, 0x12, 0x1A, 0x3A]

/-- The word lies in one of the classes (a), (b) and (c). -/
def IllegalWord (w : Word) : Prop :=
  (fieldOp w).toNat ∈ unassignedOps ∨ fieldOp w = opRType ∧
    ((fieldOpx w).toNat ∈ unassignedOpxs ∨ fieldImm5 w ≠ 0#5 ∧ (fieldOpx w).toNat ∉ imm5Opxs)

/-! ### The decoder rejects them -/

theorem decode_unassignedOp {w : Word} (h : (fieldOp w).toNat ∈ unassignedOps) :
    decode w = .error (.unassignedOp (fieldOp w)) := by
  unfold decode
  dsimp only
  split
  case h_41 => rfl
  all_goals next hop => rw [hop] at h; exact absurd h (by decide)

theorem decodeR_unassignedOpx {w : Word} (h : (fieldOpx w).toNat ∈ unassignedOpxs) :
    decodeR w = .error (.unassignedOpx (fieldOpx w)) := by
  unfold decodeR
  dsimp only
  split
  case h_31 => rfl
  all_goals next hopx => rw [hopx] at h; exact absurd h (by decide)

theorem requireImm5Zero_of_ne {imm5 : Imm5} (h : imm5 ≠ 0#5) (i : Instr) :
    requireImm5Zero imm5 i = .error (.imm5NotZero imm5) := if_neg h

theorem decodeR_imm5_ne_zero {w : Word} (h : fieldImm5 w ≠ 0#5) (hx : (fieldOpx w).toNat ∉ imm5Opxs) :
    ∃ e, decodeR w = .error e := by
  unfold decodeR
  simp only [requireImm5Zero_of_ne h]
  split
  case h_1 | h_11 | h_16 | h_29 => next hopx => rw [hopx] at hx; exact absurd (by decide) hx
  all_goals exact ⟨_, rfl⟩

theorem decode_of_illegal {w : Word} (h : IllegalWord w) : ∃ e, decode w = .error e := by
  obtain hop | ⟨hop, h⟩ := h
  · exact ⟨_, decode_unassignedOp hop⟩
  · rw [decode_of_rType hop]
    obtain hx | ⟨himm5, hx⟩ := h
    · exact ⟨_, decodeR_unassignedOpx hx⟩
    · exact decodeR_imm5_ne_zero himm5 hx

/-! ### Every other word matches a row -/

/-- A word with `OP = OP_RTYPE` is the encoder's word of its own R-format fields. -/
theorem eq_encR_of_rType {w : Word} (h : fieldOp w = opRType) :
    w = encR (fieldOpx w) (fieldA w) (fieldB w) (fieldC w) (fieldImm5 w) := by
  rw [encR, ← h]
  simp only [fieldOp, fieldOpx, fieldA, fieldB, fieldC, fieldImm5]
  iterate 5 rw [BitVec.extractLsb'_append_extractLsb'_eq_extractLsb' (by rfl)]
  exact (extract_all w).symm

theorem unassigned_or_row_of_op (op : Op6) : op.toNat ∈ unassignedOps ∨ op = opRType ∨
    ∃ r ∈ Row.all, r.mask = 0x0000003F#32 ∧ op.setWidth 32 = r.pattern := by
  revert op; decide

theorem unassigned_or_row_of_opx (opx : Op6) : opx.toNat ∈ unassignedOpxs ∨
    ∃ r ∈ Row.all, r.mask = (if opx.toNat ∈ imm5Opxs then 0x0001F83F#32 else 0x0001FFFF#32) ∧
      (opx ++ 0#5 ++ opRType : BitVec 17).setWidth 32 = r.pattern := by
  revert opx; decide

theorem match_or_illegal (w : Word) : (∃ r : Row, w &&& r.mask = r.pattern) ∨ IllegalWord w := by
  obtain hop | hop | ⟨r, -, hm, hp⟩ := unassigned_or_row_of_op (fieldOp w)
  · exact .inr (.inl hop)
  · obtain hx | ⟨r, -, hm, hp⟩ := unassigned_or_row_of_opx (fieldOpx w)
    · exact .inr (.inr ⟨hop, .inl hx⟩)
    · have hw := eq_encR_of_rType hop
      by_cases hx : (fieldOpx w).toNat ∈ imm5Opxs
      · rw [if_pos hx] at hm
        exact .inl ⟨r, by rw [hw, hm, encR_mask_imm, hp]⟩
      · rw [if_neg hx] at hm
        by_cases himm5 : fieldImm5 w = 0#5
        · exact .inl ⟨r, by rw [hw, hm, encR_mask, himm5, hp]⟩
        · exact .inr (.inr ⟨hop, .inr ⟨himm5, hx⟩⟩)
  · exact .inl ⟨r, by rw [hm, and_mask_op, hp]⟩

/-- Settles O4. -/
theorem illegalWordsByClass : Obligations.IllegalWordsByClass := by
  refine fun w => ⟨fun ⟨e, he⟩ => ?_, decode_of_illegal⟩
  obtain ⟨r, hr⟩ | h := match_or_illegal w
  · obtain ⟨i, hi, -⟩ := decode_of_match hr
    cases he.symm.trans hi
  · exact h

/-- Settles O3: a word the decoder answers is not illegal, so it matches a row, and decodes to that row alone. -/
theorem decoderFollowsTable : Obligations.DecoderFollowsTable := by
  refine fun w => ⟨fun i hi => ?_, fun r hr => decode_of_match hr⟩
  obtain ⟨r, hr⟩ | h := match_or_illegal w
  · obtain ⟨j, hj, rfl⟩ := decode_of_match hr
    rwa [Except.ok.inj (hi.symm.trans hj)]
  · obtain ⟨e, he⟩ := decode_of_illegal h
    cases he.symm.trans hi

end Sys2Proof.Machine
end

section
/-! The statements of 40_arith_logic.md. An instruction of this family is its shape (Laws/Exec.lean) over an operation on
words; what each operation does to the numbers the words stand for is said first, then each statement joins the two. -/

namespace Sys2Proof.Machine

/-! ## From an operation to its instruction -/

theorem threeRegister_of_twoSource {opx : Op6} {mk : Reg → Reg → Reg → Instr} {f g : Word → Word → Word}
    (henc : ∀ rC rA rB, encode (mk rC rA rB) = encR opx rA rB rC 0#5)
    (hexec : ∀ rC rA rB s, exec (mk rC rA rB) s = twoSource g rC rA rB s) (hval : ∀ a b, g a b = f a b) :
    ThreeRegister opx mk f := by
  refine fun rC rA rB => ⟨henc rC rA rB ▸ decode_encode _, fun s hs => ?_⟩
  rw [hexec, ← hval]
  exact twoSource_result g hs

theorem registerImmediate_of_oneSource {op : Op6} {mk : Reg → Reg → Imm16 → Instr} {f g : Word → Imm16 → Word}
    (henc : ∀ rB rA imm16, encode (mk rB rA imm16) = encI op rA rB imm16)
    (hexec : ∀ rB rA imm16 s, exec (mk rB rA imm16) s = oneSource (fun a => g a imm16) rB rA s)
    (hval : ∀ a imm16, g a imm16 = f a imm16) : RegisterImmediate op mk f := by
  refine fun rB rA imm16 => ⟨henc rB rA imm16 ▸ decode_encode _, fun s hs => ?_⟩
  rw [hexec, ← hval]
  exact oneSource_result (fun a => g a imm16) hs

/-! ## Immediates as numbers (30_encoding.md R107) -/

theorem signedImm_eq_ofInt (imm16 : Imm16) : signedImm imm16 = BitVec.ofInt 32 imm16.toInt := rfl

theorem unsignedImm_eq_ofNat (imm16 : Imm16) : unsignedImm imm16 = BitVec.ofNat 32 imm16.toNat :=
  (BitVec.ofNat_toNat 32 imm16).symm

theorem highImm_eq_ofNat (imm16 : Imm16) : highImm imm16 = BitVec.ofNat 32 (imm16.toNat * 65536) := by
  apply BitVec.eq_of_toNat_eq
  rw [highImm, toNat_append_eq_add, BitVec.toNat_ofNat, BitVec.toNat_ofNat]
  omega

theorem word_eq_ofNat (a : Word) : a = BitVec.ofNat 32 a.toNat := by simp

/-! ## Sums, differences and products (R131 to R138) -/

theorem add_signedImm (a : Word) (imm16 : Imm16) : a + signedImm imm16 = BitVec.ofInt 32 (a.toInt + imm16.toInt) := by
  rw [BitVec.ofInt_add, BitVec.ofInt_toInt, signedImm_eq_ofInt]

theorem sub_eq_ofInt (a b : Word) : a - b = BitVec.ofInt 32 (a.toInt - b.toInt) :=
  BitVec.eq_of_toInt_eq (by rw [BitVec.toInt_sub, BitVec.toInt_ofInt])

theorem mul_eq_ofNat (a b : Word) : a * b = BitVec.ofNat 32 (a.toNat * b.toNat) := by
  rw [BitVec.ofNat_mul, ← word_eq_ofNat, ← word_eq_ofNat]

theorem mul_eq_ofInt (a b : Word) : a * b = BitVec.ofInt 32 (a.toInt * b.toInt) := by
  rw [BitVec.ofInt_mul, BitVec.ofInt_toInt, BitVec.ofInt_toInt]

theorem mul_signedImm (a : Word) (imm16 : Imm16) : a * signedImm imm16 = BitVec.ofInt 32 (a.toInt * imm16.toInt) := by
  rw [BitVec.ofInt_mul, BitVec.ofInt_toInt, signedImm_eq_ofInt]

/-- Bits 63:32 of a two's complement number are its quotient by 2^32, rounded down. -/
theorem highProduct_eq_ofInt (x y : Int) : highProduct x y = BitVec.ofInt 32 (x * y / 2 ^ 32) := by
  apply BitVec.eq_of_toNat_eq
  rw [highProduct, BitVec.extractLsb'_toNat, BitVec.toNat_ofInt, BitVec.toNat_ofInt, Nat.shiftRight_eq_div_pow]
  generalize x * y = p
  omega

theorem highProduct_natCast (x y : Nat) : highProduct x y = BitVec.ofNat 32 (x * y / 2 ^ 32) := by
  rw [highProduct_eq_ofInt, ← BitVec.ofInt_natCast]
  norm_cast

/-- Settles O6. -/
theorem sumsAndDifferences : Obligations.SumsAndDifferences :=
  ⟨threeRegister_of_twoSource (fun _ _ _ => rfl) exec_add BitVec.add_def,
    registerImmediate_of_oneSource (fun _ _ _ => rfl) exec_addi add_signedImm,
    threeRegister_of_twoSource (fun _ _ _ => rfl) exec_sub sub_eq_ofInt⟩

/-- Settles O7: the product of words is the product of either reading. -/
theorem lowProducts : Obligations.LowProducts :=
  ⟨threeRegister_of_twoSource (fun _ _ _ => rfl) exec_mul mul_eq_ofNat,
    threeRegister_of_twoSource (fun _ _ _ => rfl) exec_mul mul_eq_ofInt,
    registerImmediate_of_oneSource (fun _ _ _ => rfl) exec_muli mul_signedImm⟩

/-- Settles O8. -/
theorem highProducts : Obligations.HighProducts :=
  ⟨threeRegister_of_twoSource (fun _ _ _ => rfl) exec_mulxss (fun a b => highProduct_eq_ofInt a.toInt b.toInt),
    threeRegister_of_twoSource (fun _ _ _ => rfl) exec_mulxsu (fun a b => highProduct_eq_ofInt a.toInt b.toNat),
    threeRegister_of_twoSource (fun _ _ _ => rfl) exec_mulxuu (fun a b => highProduct_natCast a.toNat b.toNat)⟩

/-! ## Quotients (R139, R140, R151) -/

theorem Enabled.concat {s : State} {rs : List Reg} {d : Reg} (h : Enabled s rs) (hd : s.tag d ≠ .disabled) :
    Enabled s (rs ++ [d]) :=
  List.forall_mem_append.mpr ⟨h, List.forall_mem_singleton.mpr hd⟩

theorem unsignedQuotient_zero (s : State) (a : Word) : unsignedQuotient s a 0#32 = .error (.divideByZero s.report) := rfl

theorem unsignedQuotient_ne_zero (s : State) (a : Word) {b : Word} (hb : b ≠ 0#32) :
    ∃ q, unsignedQuotient s a b = .ok q ∧ q.toNat = a.toNat / b.toNat :=
  ⟨_, if_neg hb, Nat.mod_eq_of_lt (Nat.lt_of_le_of_lt (Nat.div_le_self _ _) a.isLt)⟩

theorem signedQuotient_zero (s : State) (a : Word) : signedQuotient s a 0#32 = .error (.divideByZero s.report) := rfl

/-- Only the quotient of `-2^31` by `-1` is out of the range of a word. -/
theorem toInt_ofInt_tdiv {a b : Word} (h : ¬ (a.toInt = -2147483648 ∧ b.toInt = -1)) :
    (BitVec.ofInt 32 (a.toInt.tdiv b.toInt)).toInt = a.toInt.tdiv b.toInt := by
  have hne : a ≠ BitVec.intMin 32 ∨ b ≠ -1#32 := by
    rw [← not_and_or]
    rintro ⟨rfl, rfl⟩
    exact h (by decide)
  rw [BitVec.toInt_ofInt, ← BitVec.toInt_sdiv, BitVec.toInt_sdiv_of_ne_or_ne a b hne]

theorem signedQuotient_ne_zero (s : State) (a : Word) {b : Word} (hb : b ≠ 0#32) : ∃ q, signedQuotient s a b = .ok q ∧
    (a.toInt = -2147483648 ∧ b.toInt = -1 → q = s.cfg.divOvf) ∧
    (¬ (a.toInt = -2147483648 ∧ b.toInt = -1) → q.toInt = a.toInt.tdiv b.toInt) := by
  rw [signedQuotient, if_neg hb]
  by_cases h : a.toInt = -2147483648 ∧ b.toInt = -1
  · exact ⟨_, if_pos h, fun _ => rfl, fun hn => absurd h hn⟩
  · exact ⟨_, if_neg h, fun hp => absurd hp h, toInt_ofInt_tdiv⟩

/-- A signed divide is the checked quotient at the state `u` its reads leave: it faults as the quotient does, and writes
its value. -/
theorem dividesSigned_of_quotient {rs : List Reg} {d : Reg} {a b : Word} {s u : State} {out : Result}
    (hpc : u.pc = s.pc) (hcfg : u.cfg = s.cfg) (hfault : ∀ e, signedQuotient u a b = .error e → out = .fault e)
    (hresult : ∀ q, s.tag d ≠ .disabled → signedQuotient u a b = .ok q → WritesReg rs d q s out) :
    DividesSigned rs d a b s out := by
  constructor
  · rintro rfl
    exact ⟨u.report, hfault _ (signedQuotient_zero u a), hpc⟩
  · intro hb hd
    obtain ⟨q, hq, hovf, hquot⟩ := signedQuotient_ne_zero u a hb
    exact ⟨q, hresult q hd hq, hcfg ▸ hovf, hquot⟩

/-- Settles O9. -/
theorem signedDivide : Obligations.SignedDivide := by
  refine fun rC rA rB => ⟨decode_encode (.div rC rA rB), fun s hs => ?_⟩
  rw [exec_div]
  exact dividesSigned_of_quotient (u := (s.setTag rA .read).setTag rB .read) rfl rfl
    (fun _ he => twoSourceChecked_fault hs he) (fun _ hd hq => twoSourceChecked_result (hs.concat hd) hq)

/-- Settles O10. -/
theorem unsignedDivide : Obligations.UnsignedDivide := by
  refine fun rC rA rB => ⟨decode_encode (.divu rC rA rB), fun s hs => ?_⟩
  rw [exec_divu]
  constructor
  · intro hb
    exact ⟨_, twoSourceChecked_fault hs (hb ▸ unsignedQuotient_zero ..), rfl⟩
  · intro hb hd
    obtain ⟨q, hq, hval⟩ := unsignedQuotient_ne_zero _ (s.reg rA) hb
    exact ⟨q, twoSourceChecked_result (hs.concat hd) hq, hval⟩

/-! ### The optional immediate divide (R117, R151) -/

theorem mem_unassignedOps_of_opUnused {op : Op6} (h : opUnused op = true) : op.toNat ∈ unassignedOps := by
  revert op; decide

/-- No row answers the word of `divi`, so the configuration alone decides it. -/
theorem config_decode_encodeDivi (cfg : Config) {op : Op6} (h : opUnused op = true) (rB rA : Reg) (imm16 : Imm16) :
    cfg.decode (encodeDivi op rB rA imm16) =
      if cfg.divi = some op then .ok (.divi rB rA imm16) else .error (.unassignedOp op) := by
  have hd : decode (encI op rA rB imm16) = .error (.unassignedOp op) := by
    simpa using decode_unassignedOp (w := encI op rA rB imm16) (by simpa using mem_unassignedOps_of_opUnused h)
  simp [Config.decode, encodeDivi, hd]

theorem execDecoded_divi (rB rA : Reg) (imm16 : Imm16) (s : State) : execDecoded (.divi rB rA imm16) s =
    oneSourceChecked (fun s a => signedQuotient s a (signedImm imm16)) rB rA s := rfl

/-- Settles O11. -/
theorem optionalImmediateDivide : Obligations.OptionalImmediateDivide := by
  refine ⟨fun cfg op rB rA imm16 hop hdivi => ?_, fun cfg op rB rA imm16 hop hdivi => ?_, fun rB rA imm16 s hs => ?_⟩
  · rw [config_decode_encodeDivi cfg hop, if_pos hdivi]
  · exact ⟨_, by rw [config_decode_encodeDivi cfg hop, if_neg (by simp [hdivi])]⟩
  · rw [execDecoded_divi, ← signedImm_eq_ofInt]
    exact dividesSigned_of_quotient (u := s.setTag rA .read) rfl rfl
      (fun _ he => oneSourceChecked_fault hs he) (fun _ hd hq => oneSourceChecked_result (hs.concat hd) hq)

/-! ## Bitwise operations (R141 to R150) -/

section
variable {v : Word} {m : Nat} (a : Word) (hv : v = BitVec.ofNat 32 m)
include hv

theorem and_eq_ofNat : a &&& v = BitVec.ofNat 32 (a.toNat &&& m) := by rw [BitVec.ofNat_and, ← word_eq_ofNat, hv]

theorem or_eq_ofNat : a ||| v = BitVec.ofNat 32 (a.toNat ||| m) := by rw [BitVec.ofNat_or, ← word_eq_ofNat, hv]

theorem xor_eq_ofNat : a ^^^ v = BitVec.ofNat 32 (a.toNat ^^^ m) := by rw [BitVec.ofNat_xor, ← word_eq_ofNat, hv]

end

theorem nor_eq_ofNat (a b : Word) : ~~~(a ||| b) = BitVec.ofNat 32 (2 ^ 32 - 1 - (a.toNat ||| b.toNat)) := by
  rw [word_eq_ofNat (~~~(a ||| b)), BitVec.toNat_not, BitVec.toNat_or]

/-- Settles O12. -/
theorem bitwiseResults : Obligations.BitwiseResults :=
  ⟨threeRegister_of_twoSource (fun _ _ _ => rfl) exec_and (fun a b => and_eq_ofNat a (word_eq_ofNat b)),
    registerImmediate_of_oneSource (fun _ _ _ => rfl) exec_andi (fun a n => and_eq_ofNat a (unsignedImm_eq_ofNat n)),
    registerImmediate_of_oneSource (fun _ _ _ => rfl) exec_andhi (fun a n => and_eq_ofNat a (highImm_eq_ofNat n)),
    threeRegister_of_twoSource (fun _ _ _ => rfl) exec_or (fun a b => or_eq_ofNat a (word_eq_ofNat b)),
    registerImmediate_of_oneSource (fun _ _ _ => rfl) exec_ori (fun a n => or_eq_ofNat a (unsignedImm_eq_ofNat n)),
    registerImmediate_of_oneSource (fun _ _ _ => rfl) exec_orhi (fun a n => or_eq_ofNat a (highImm_eq_ofNat n)),
    threeRegister_of_twoSource (fun _ _ _ => rfl) exec_xor (fun a b => xor_eq_ofNat a (word_eq_ofNat b)),
    registerImmediate_of_oneSource (fun _ _ _ => rfl) exec_xori (fun a n => xor_eq_ofNat a (unsignedImm_eq_ofNat n)),
    registerImmediate_of_oneSource (fun _ _ _ => rfl) exec_xorhi (fun a n => xor_eq_ofNat a (highImm_eq_ofNat n)),
    threeRegister_of_twoSource (fun _ _ _ => rfl) exec_nor nor_eq_ofNat⟩

end Sys2Proof.Machine
end

section
/-! The statements of 41_compare.md. A comparison is the shape of its instruction over a relation on words; what each relation
says of the numbers the words stand for is said first, for registers and for the two readings of an immediate. -/

namespace Sys2Proof.Machine

/-! ## The result of a comparison (R160) -/

theorem flagWord_eq_ite {c : Bool} {p : Prop} [Decidable p] (h : c = true ↔ p) :
    flagWord c = if p then 1#32 else 0#32 := if_congr h rfl rfl

/-! ## The relations of two words (R161 to R166) -/

@[simp] theorem eqWord_iff {a b : Word} : eqWord a b = true ↔ a = b := beq_iff_eq

@[simp] theorem neWord_iff {a b : Word} : neWord a b = true ↔ a ≠ b := bne_iff_ne

@[simp] theorem geSigned_iff {a b : Word} : geSigned a b = true ↔ a.toInt ≥ b.toInt := decide_eq_true_iff

@[simp] theorem geUnsigned_iff {a b : Word} : geUnsigned a b = true ↔ a.toNat ≥ b.toNat := decide_eq_true_iff

@[simp] theorem ltSigned_iff {a b : Word} : ltSigned a b = true ↔ a.toInt < b.toInt := decide_eq_true_iff

@[simp] theorem ltUnsigned_iff {a b : Word} : ltUnsigned a b = true ↔ a.toNat < b.toNat := decide_eq_true_iff

/-- Settles O13. -/
theorem registerComparisons : Obligations.RegisterComparisons :=
  ⟨threeRegister_of_twoSource (fun _ _ _ => rfl) exec_cmpeq (fun _ _ => flagWord_eq_ite eqWord_iff),
    threeRegister_of_twoSource (fun _ _ _ => rfl) exec_cmpne (fun _ _ => flagWord_eq_ite neWord_iff),
    threeRegister_of_twoSource (fun _ _ _ => rfl) exec_cmpge (fun _ _ => flagWord_eq_ite geSigned_iff),
    threeRegister_of_twoSource (fun _ _ _ => rfl) exec_cmpgeu (fun _ _ => flagWord_eq_ite geUnsigned_iff),
    threeRegister_of_twoSource (fun _ _ _ => rfl) exec_cmplt (fun _ _ => flagWord_eq_ite ltSigned_iff),
    threeRegister_of_twoSource (fun _ _ _ => rfl) exec_cmpltu (fun _ _ => flagWord_eq_ite ltUnsigned_iff)⟩

/-! ## The relations of a word and an immediate (R167 to R172) -/

/-- Sign extension keeps the signed number of the immediate (30_encoding.md R107). -/
@[simp] theorem toInt_signedImm (n : Imm16) : (signedImm n).toInt = n.toInt :=
  BitVec.toInt_signExtend_of_le (by decide)

/-- Zero extension keeps the unsigned number of the immediate, so that `0x8000` is 32768 (R170, R172). -/
@[simp] theorem toNat_unsignedImm (n : Imm16) : (unsignedImm n).toNat = n.toNat :=
  BitVec.toNat_setWidth_of_le (by decide)

/-- Words are equal where their signed numbers are, so equality with a sign-extended immediate is equality of numbers. -/
theorem eq_signedImm_iff {a : Word} {n : Imm16} : a = signedImm n ↔ a.toInt = n.toInt := by
  rw [← BitVec.toInt_inj, toInt_signedImm]

/-- Settles O14. -/
theorem immediateComparisons : Obligations.ImmediateComparisons :=
  ⟨registerImmediate_of_oneSource (fun _ _ _ => rfl) exec_cmpeqi
      (fun _ _ => flagWord_eq_ite (eqWord_iff.trans eq_signedImm_iff)),
    registerImmediate_of_oneSource (fun _ _ _ => rfl) exec_cmpnei
      (fun _ _ => flagWord_eq_ite (neWord_iff.trans eq_signedImm_iff.not)),
    registerImmediate_of_oneSource (fun _ _ _ => rfl) exec_cmpgei
      (fun _ n => flagWord_eq_ite (toInt_signedImm n ▸ geSigned_iff)),
    registerImmediate_of_oneSource (fun _ _ _ => rfl) exec_cmpgeui
      (fun _ n => flagWord_eq_ite (toNat_unsignedImm n ▸ geUnsigned_iff)),
    registerImmediate_of_oneSource (fun _ _ _ => rfl) exec_cmplti
      (fun _ n => flagWord_eq_ite (toInt_signedImm n ▸ ltSigned_iff)),
    registerImmediate_of_oneSource (fun _ _ _ => rfl) exec_cmpltui
      (fun _ n => flagWord_eq_ite (toNat_unsignedImm n ▸ ltUnsigned_iff))⟩

end Sys2Proof.Machine
end

section
/-! The statements of 42_shift_rotate.md. A shift or rotate is the shape of its instruction over an operation on a word and a
count; the words of the immediate forms, the counts, and what each operation does to the number the word stands for are said
first. -/

namespace Sys2Proof.Machine

/-! ## The words of the immediate forms (30_encoding.md R112) -/

/-- The rows with a count in `IMM5` have no register in `rB`, and the decoder does not look at it. -/
theorem decode_encR_ignores_rB {opx : Op6} (h : opx.toNat ∈ imm5Opxs) (rA rB rC : Reg) (imm5 : Imm5) :
    decode (encR opx rA rB rC imm5) = decode (encR opx rA 0#5 rC imm5) := by
  rw [decode_of_rType (fieldOp_encR ..), decode_of_rType (fieldOp_encR ..)]
  simp only [imm5Opxs, List.mem_cons, List.not_mem_nil, or_false] at h
  obtain h | h | h | h := h <;> simp [decodeR, h]

theorem shiftImmediate_of_oneSource {opx : Op6} {mk : Reg → Reg → Imm5 → Instr} {f g : Word → Nat → Word}
    (hopx : opx.toNat ∈ imm5Opxs) (henc : ∀ rC rA imm5, encode (mk rC rA imm5) = encR opx rA 0#5 rC imm5)
    (hexec : ∀ rC rA imm5 s, exec (mk rC rA imm5) s = oneSource (fun a => g a (immediateCount imm5)) rC rA s)
    (hval : ∀ a n, n < 32 → g a n = f a n) : ShiftImmediate opx mk f := by
  refine fun rC rA rB imm5 => ⟨?_, fun s hs => ?_⟩
  · rw [decode_encR_ignores_rB hopx, ← henc, decode_encode]
  · rw [hexec, ← hval _ _ imm5.isLt]
    exact oneSource_result (fun a => g a (immediateCount imm5)) hs

/-! ## The counts of the register forms (R180) -/

theorem registerCount_eq_mod (b : Word) : registerCount b = b.toNat % 32 := BitVec.extractLsb'_toNat 0 5 b

theorem threeRegister_of_registerCount {opx : Op6} {mk : Reg → Reg → Reg → Instr} {f g : Word → Nat → Word}
    (henc : ∀ rC rA rB, encode (mk rC rA rB) = encR opx rA rB rC 0#5)
    (hexec : ∀ rC rA rB s, exec (mk rC rA rB) s = twoSource (fun a b => g a (registerCount b)) rC rA rB s)
    (hval : ∀ a n, n < 32 → g a n = f a n) : ThreeRegister opx mk (fun a b => f a (b.toNat % 32)) :=
  threeRegister_of_twoSource henc hexec fun a b => by
    rw [registerCount_eq_mod, hval a _ (Nat.mod_lt _ (by decide))]

/-! ## Shifts as products and quotients (R181 to R186) -/

theorem shiftLeft_eq_ofNat (a : Word) (n : Nat) : shiftLeft a n = BitVec.ofNat 32 (a.toNat * 2 ^ n) := by
  apply BitVec.eq_of_toNat_eq
  rw [shiftLeft, BitVec.toNat_shiftLeft, Nat.shiftLeft_eq, BitVec.toNat_ofNat]

theorem shiftRightLogical_eq_ofNat (a : Word) (n : Nat) :
    shiftRightLogical a n = BitVec.ofNat 32 (a.toNat / 2 ^ n) := by
  rw [word_eq_ofNat (shiftRightLogical a n), shiftRightLogical, BitVec.toNat_ushiftRight, Nat.shiftRight_eq_div_pow]

/-- `Int` division by a positive number rounds toward minus infinity, as the arithmetic shift does (R185). -/
theorem shiftRightArith_eq_ofInt (a : Word) (n : Nat) :
    shiftRightArith a n = BitVec.ofInt 32 (a.toInt / 2 ^ n) := by
  rw [shiftRightArith, BitVec.sshiftRight, Int.shiftRight_eq_div_pow, Nat.cast_pow, Nat.cast_ofNat]

/-- Settles O15. -/
theorem shiftResults : Obligations.ShiftResults :=
  ⟨threeRegister_of_registerCount (fun _ _ _ => rfl) exec_sll (fun a n _ => shiftLeft_eq_ofNat a n),
    shiftImmediate_of_oneSource (by decide) (fun _ _ _ => rfl) exec_slli (fun a n _ => shiftLeft_eq_ofNat a n),
    threeRegister_of_registerCount (fun _ _ _ => rfl) exec_srl (fun a n _ => shiftRightLogical_eq_ofNat a n),
    shiftImmediate_of_oneSource (by decide) (fun _ _ _ => rfl) exec_srli (fun a n _ => shiftRightLogical_eq_ofNat a n),
    threeRegister_of_registerCount (fun _ _ _ => rfl) exec_sra (fun a n _ => shiftRightArith_eq_ofInt a n),
    shiftImmediate_of_oneSource (by decide) (fun _ _ _ => rfl) exec_srai (fun a n _ => shiftRightArith_eq_ofInt a n)⟩

/-! ## Rotates (R187 to R189) -/

/-- The model's own case for the count 0 agrees with the general one, where the bits that re-enter are none. -/
theorem rotateLeft_eq (a : Word) {n : Nat} (hn : n < 32) : rotateLeft a n = a.rotateLeft n := by
  rw [rotateLeft, BitVec.rotateLeft_def, Nat.mod_eq_of_lt hn]
  split
  · next h0 => simp [h0, BitVec.ushiftRight_eq_zero]
  · rfl

theorem rotateRight_eq (a : Word) {n : Nat} (hn : n < 32) : rotateRight a n = a.rotateRight n := by
  rw [rotateRight, BitVec.rotateRight_def, Nat.mod_eq_of_lt hn]
  split
  · next h0 => simp [h0]
  · rfl

/-- Settles O16. -/
theorem rotateResults : Obligations.RotateResults :=
  ⟨threeRegister_of_registerCount (fun _ _ _ => rfl) exec_rol (fun a _ hn => rotateLeft_eq a hn),
    shiftImmediate_of_oneSource (by decide) (fun _ _ _ => rfl) exec_roli (fun a _ hn => rotateLeft_eq a hn),
    threeRegister_of_registerCount (fun _ _ _ => rfl) exec_ror (fun a _ hn => rotateRight_eq a hn)⟩

end Sys2Proof.Machine
end

section
/-! The statements of 43_load_store.md. A load is the register write of the state its byte reads leave, a store the
advance of the state its byte writes leave; what the reads and writes can change is said by the laws of `memRead` and
`memWrite`. -/

namespace Sys2Proof.Machine

/-! ## Loads from RAM (R197 to R201, R205 to R209) -/

theorem loadsFromRam_of_loadForm {op : Op6} {mk : Reg → Imm16 → Reg → Instr} (w : Width) {ext : Width → Word → Word}
    {value : State → Word → Word} (henc : ∀ rB imm16 rA, encode (mk rB imm16 rA) = encI op rA rB imm16)
    (hexec : ∀ rB imm16 rA s, exec (mk rB imm16 rA) s = loadForm w ext rB imm16 rA s)
    (hval : ∀ s a, ext w (littleEndian ((addresses a w.bytes).map (fun x => s.mem.read x.toNat))) = value s a) :
    LoadsFromRam op mk w.bytes value := by
  refine fun rB imm16 rA => ⟨henc rB imm16 rA ▸ decode_encode _, fun s hE hm => ?_⟩
  rw [hexec, ← hval]
  exact loadForm_ram hE hm

theorem signExtendFrom_ramHalf (s : State) (a : Word) :
    signExtendFrom .half (littleEndian ((addresses a 2).map (fun x => s.mem.read x.toNat))) =
      (ramHalf s a).signExtend 32 := by
  simp [littleEndian_ramHalf, signExtendFrom]

theorem zeroExtendFrom_ramHalf (s : State) (a : Word) :
    zeroExtendFrom .half (littleEndian ((addresses a 2).map (fun x => s.mem.read x.toNat))) =
      (ramHalf s a).setWidth 32 := by
  simp [littleEndian_ramHalf, zeroExtendFrom]

theorem signExtendFrom_ramByte (s : State) (a : Word) :
    signExtendFrom .byte (littleEndian ((addresses a 1).map (fun x => s.mem.read x.toNat))) =
      (ramByte s a).signExtend 32 := by
  simp [littleEndian_ramByte, signExtendFrom]

theorem zeroExtendFrom_ramByte (s : State) (a : Word) :
    zeroExtendFrom .byte (littleEndian ((addresses a 1).map (fun x => s.mem.read x.toNat))) =
      (ramByte s a).setWidth 32 := by
  rw [littleEndian_ramByte, zeroExtendFrom_byte]

/-- Settles O17, each load from the value its bytes have in RAM. -/
theorem ramLoads : Obligations.RamLoads :=
  ⟨loadsFromRam_of_loadForm .word (fun _ _ _ => rfl) exec_ldw littleEndian_ramWord,
    loadsFromRam_of_loadForm .half (fun _ _ _ => rfl) exec_ldh signExtendFrom_ramHalf,
    loadsFromRam_of_loadForm .half (fun _ _ _ => rfl) exec_ldhu zeroExtendFrom_ramHalf,
    loadsFromRam_of_loadForm .byte (fun _ _ _ => rfl) exec_ldb signExtendFrom_ramByte,
    loadsFromRam_of_loadForm .byte (fun _ _ _ => rfl) exec_ldbu zeroExtendFrom_ramByte,
    loadsFromRam_of_loadForm .word (fun _ _ _ => rfl) exec_ldwio littleEndian_ramWord,
    loadsFromRam_of_loadForm .half (fun _ _ _ => rfl) exec_ldhio signExtendFrom_ramHalf,
    loadsFromRam_of_loadForm .half (fun _ _ _ => rfl) exec_ldhuio zeroExtendFrom_ramHalf,
    loadsFromRam_of_loadForm .byte (fun _ _ _ => rfl) exec_ldbio signExtendFrom_ramByte,
    loadsFromRam_of_loadForm .byte (fun _ _ _ => rfl) exec_ldbuio zeroExtendFrom_ramByte⟩

/-! ## Loads from any block -/

/-- Tags marked from the state `u` the reads of `rs` leave are marked from the state before them. -/
theorem TagsMarked.of_reads {rs : List Reg} {d : Option Reg} {s u t : State}
    (hu : ∀ r, u.tag r = if r ∈ rs then .read else s.tag r) (h : TagsMarked [] d u t) : TagsMarked rs d s t := by
  intro r
  rw [← hu r]
  simpa using h r

/-- From the state its byte reads leave, a load only writes its destination and advances. -/
theorem loadForm_writesReg {w : Width} (ext : Width → Word → Word) {rB rA : Reg} {imm16 : Imm16} {s m : State}
    {v : Word} (h : Enabled s [rA, rB]) (hr : memRead (s.setTag rA .read) (effectiveAddress (s.reg rA) imm16) w = .ok (v, m)) :
    WritesReg [] rB (ext w v) m (loadForm w ext rB imm16 rA s) := by
  obtain ⟨u, hu, e⟩ := loadForm_completes ext h hr
  exact e ▸ writesReg_of_write (rs := []) rfl (by simp) hu

theorem loadForm_refused {w : Width} (ext : Width → Word → Word) {rB rA : Reg} {imm16 : Imm16} {s : State} {x : Word}
    (h : Enabled s [rA])
    (hx : (addresses (effectiveAddress (s.reg rA) imm16) w.bytes).find? (refuses s.cfg .read) = some x) :
    loadForm w ext rB imm16 rA s = .fault (.memoryError (s.setTag rA .read).report x) := by
  obtain ⟨hA, -⟩ : _ ∧ True := by simpa [Enabled] using h
  simp [loadForm, readReg_enabled hA, memRead_refused (s := s.setTag rA .read) hx]

theorem loadsFromBlocks_of_loadForm {op : Op6} {mk : Reg → Imm16 → Reg → Instr} (w : Width) {ext : Width → Word → Word}
    (henc : ∀ rB imm16 rA, encode (mk rB imm16 rA) = encI op rA rB imm16)
    (hexec : ∀ rB imm16 rA s, exec (mk rB imm16 rA) s = loadForm w ext rB imm16 rA s) :
    LoadsFromBlocks op mk w.bytes (ext w) := by
  refine fun rB imm16 rA => ⟨henc rB imm16 rA ▸ decode_encode _, fun s => ⟨fun hE hadm => ?_, fun hE f hf => ?_⟩⟩
  · obtain ⟨v, m, hm⟩ := memRead_admitted (s := s.setTag rA .read) (Option.map_eq_none_iff.mp hadm)
    obtain ⟨-, hframe, hinq, bs, hbs, rfl⟩ := memRead_eq_ok hm
    obtain ⟨-, -, hlen⟩ := readBytes_eq_ok hbs
    obtain ⟨t, ht, hdest, hregs, hpc, hworld, htags⟩ := loadForm_writesReg ext hE hm
    obtain ⟨rx, rrdy, inq, rfl⟩ : ∃ c f q, m = { s.setTag rA .read with rx := c, rrdy := f, inq := q } :=
      ⟨_, _, _, hframe⟩
    exact ⟨bs, _, t, hbs, by simpa [addresses] using hlen, (hexec ..).trans ht, hdest, hregs, hpc, hworld,
      htags.of_reads (tag_after_read s rA), hworld.ram, hworld.led, hworld.tx, hworld.sw, hworld.btn,
      hworld.inq ▸ hinq, hworld.trace, hworld.run, hworld.cfg, hworld.snapshot⟩
  · obtain ⟨x, hx, rfl⟩ := Option.map_eq_some_iff.mp hf
    exact ⟨_, (hexec ..).trans (loadForm_refused ext hE hx), rfl⟩

/-- Settles O18. -/
theorem loadsFromAnyBlock : Obligations.LoadsFromAnyBlock :=
  ⟨loadsFromBlocks_of_loadForm .word (fun _ _ _ => rfl) exec_ldw,
    loadsFromBlocks_of_loadForm .word (fun _ _ _ => rfl) exec_ldwio,
    loadsFromBlocks_of_loadForm .half (fun _ _ _ => rfl) exec_ldh,
    loadsFromBlocks_of_loadForm .half (fun _ _ _ => rfl) exec_ldhio,
    loadsFromBlocks_of_loadForm .half (fun _ _ _ => rfl) exec_ldhu,
    loadsFromBlocks_of_loadForm .half (fun _ _ _ => rfl) exec_ldhuio,
    loadsFromBlocks_of_loadForm .byte (fun _ _ _ => rfl) exec_ldb,
    loadsFromBlocks_of_loadForm .byte (fun _ _ _ => rfl) exec_ldbio,
    loadsFromBlocks_of_loadForm .byte (fun _ _ _ => rfl) exec_ldbu,
    loadsFromBlocks_of_loadForm .byte (fun _ _ _ => rfl) exec_ldbuio⟩

/-! ## Stores (R202 to R204, R210 to R212) -/

/-- An address that is none of an access's is none of those its byte writes name. -/
theorem ne_of_mem_storeList {a v x : Word} {w : Width} (hx : ∀ i, i < w.bytes → x ≠ a + BitVec.ofNat 32 i) :
    ∀ p ∈ storeList a w v, x.toNat ≠ p.1.toNat := by
  intro p hp e
  have hmem : p.1 ∈ addresses a w.bytes := map_fst_storeList a w v ▸ List.mem_map_of_mem hp
  obtain ⟨i, hi, hpi⟩ := mem_addresses.mp hmem
  exact hx i hi ((BitVec.eq_of_toNat_eq e).trans hpi)

theorem storesToRam_of_storeForm {op : Op6} {mk : Reg → Imm16 → Reg → Instr} (w : Width)
    (henc : ∀ rB imm16 rA, encode (mk rB imm16 rA) = encI op rA rB imm16)
    (hexec : ∀ rB imm16 rA s, exec (mk rB imm16 rA) s = storeForm w rB imm16 rA s) : StoresToRam op mk w.bytes := by
  refine fun rB imm16 rA => ⟨henc rB imm16 rA ▸ decode_encode _, fun s hs hE hm => ?_⟩
  exact ⟨_, (hexec ..).trans (storeForm_ram hE hm), fun _ => read_stored hs.canonical _ _,
    fun _ hx => foldl_write_other _ (ne_of_mem_storeList hx), fun _ => rfl, rfl, tag_after_reads s rA rB,
    rfl, rfl, rfl, rfl, rfl, rfl, rfl, rfl, rfl, rfl, rfl⟩

/-- Settles O19. -/
theorem ramStores : Obligations.RamStores :=
  ⟨storesToRam_of_storeForm .word (fun _ _ _ => rfl) exec_stw,
    storesToRam_of_storeForm .half (fun _ _ _ => rfl) exec_sth,
    storesToRam_of_storeForm .byte (fun _ _ _ => rfl) exec_stb,
    storesToRam_of_storeForm .word (fun _ _ _ => rfl) exec_stwio,
    storesToRam_of_storeForm .half (fun _ _ _ => rfl) exec_sthio,
    storesToRam_of_storeForm .byte (fun _ _ _ => rfl) exec_stbio⟩

theorem storesToBlocks_of_storeForm {op : Op6} {mk : Reg → Imm16 → Reg → Instr} (w : Width)
    (henc : ∀ rB imm16 rA, encode (mk rB imm16 rA) = encI op rA rB imm16)
    (hexec : ∀ rB imm16 rA s, exec (mk rB imm16 rA) s = storeForm w rB imm16 rA s) : StoresToBlocks op mk w.bytes := by
  refine fun rB imm16 rA => ⟨henc rB imm16 rA ▸ decode_encode _, fun s hE => ⟨fun hadm => ?_, fun f hf => ?_⟩⟩
  · obtain ⟨m, hm⟩ := memWrite_admitted (s := (s.setTag rA .read).setTag rB .read) (s.reg rB)
      (Option.map_eq_none_iff.mp hadm)
    obtain ⟨-, hbytes⟩ := memWrite_eq_ok.mp hm
    obtain ⟨hframe, hinq, htrace, -, -, hram⟩ := writeBytes_eq_ok hbytes
    have ht := (hexec ..).trans (storeForm_completes hE hm)
    obtain ⟨mem, led, rx, tx, rrdy, inq, trace, rfl⟩ : ∃ mem led rx tx rrdy inq trace,
        m = { (s.setTag rA .read).setTag rB .read with
          mem := mem, led := led, rx := rx, tx := tx, rrdy := rrdy, inq := inq, trace := trace } :=
      ⟨_, _, _, _, _, _, _, hframe⟩
    exact ⟨_, _, hbytes, ht, fun _ => rfl, rfl, sameWorld_of_eq rfl, tag_after_reads s rA rB,
      fun _ hx => hram _ (ne_of_mem_storeList hx), rfl, rfl, hinq, htrace, rfl, rfl, rfl⟩
  · obtain ⟨x, hx, rfl⟩ := Option.map_eq_some_iff.mp hf
    exact ⟨_, (hexec ..).trans (storeForm_refused hE hx), rfl⟩

/-- Settles O20. -/
theorem storesToAnyBlock : Obligations.StoresToAnyBlock :=
  ⟨storesToBlocks_of_storeForm .word (fun _ _ _ => rfl) exec_stw,
    storesToBlocks_of_storeForm .half (fun _ _ _ => rfl) exec_sth,
    storesToBlocks_of_storeForm .byte (fun _ _ _ => rfl) exec_stb,
    storesToBlocks_of_storeForm .word (fun _ _ _ => rfl) exec_stwio,
    storesToBlocks_of_storeForm .half (fun _ _ _ => rfl) exec_sthio,
    storesToBlocks_of_storeForm .byte (fun _ _ _ => rfl) exec_stbio⟩

end Sys2Proof.Machine
end

section
/-! The statements of 44_control_transfer.md. A transfer is the shape of its instruction to a target; the words of the forms
with unused fields, the targets as numbers, and what a transfer, a link and an indirect jump do are said first. -/

namespace Sys2Proof.Machine

/-! ## The words of the forms with unused fields (30_encoding.md R110) -/

theorem decode_br (rA rB : Reg) (imm16 : Imm16) : decode (encI 0x06#6 rA rB imm16) = .ok (.br imm16) := by
  simp [decode]

theorem decode_callr (rA rB rC : Reg) : decode (encR 0x1D#6 rA rB rC 0#5) = .ok (.callr rA) := by
  rw [decode_of_rType (fieldOp_encR ..)]
  simp [decodeR, requireImm5Zero]

theorem decode_jmp (rA rB rC : Reg) : decode (encR 0x0D#6 rA rB rC 0#5) = .ok (.jmp rA) := by
  rw [decode_of_rType (fieldOp_encR ..)]
  simp [decodeR, requireImm5Zero]

theorem decode_ret (rA rB rC : Reg) : decode (encR 0x05#6 rA rB rC 0#5) = .ok .ret := by
  rw [decode_of_rType (fieldOp_encR ..)]
  simp [decodeR, requireImm5Zero]

/-! ## Targets as numbers (R220, R228) -/

theorem branchTarget_eq_branchTo (pc : Word) (imm16 : Imm16) : branchTarget pc imm16 = branchTo pc imm16 := by
  rw [branchTo, BitVec.ofInt_add, BitVec.ofInt_add, BitVec.ofInt_natCast, ← word_eq_ofNat, ← signedImm_eq_ofInt]
  rfl

theorem jumpTarget_eq_jumpTo (cfg : Config) (pc : Word) (imm26 : Imm26) :
    jumpTarget cfg pc imm26 = jumpTo cfg pc imm26 := by
  have hpc : (pc.extractLsb' 28 4).toNat = pc.toNat / 2 ^ 28 := by
    rw [BitVec.extractLsb'_toNat, Nat.shiftRight_eq_div_pow]
    omega
  rw [word_eq_ofNat (jumpTarget cfg pc imm26), jumpTarget, jumpTo, toNat_append_eq_add, toNat_append_eq_add]
  congr 1
  split
  · rw [hpc, BitVec.toNat_ofNat]
    omega
  · rw [BitVec.toNat_ofNat, BitVec.toNat_ofNat]
    omega

theorem jumpTo_aligned (cfg : Config) (pc : Word) (imm26 : Imm26) : (jumpTo cfg pc imm26).toNat % 4 = 0 :=
  jumpTarget_eq_jumpTo cfg pc imm26 ▸ jumpTarget_aligned cfg pc imm26

/-! ## Branches (R221 to R227) -/

theorem transfer_goesTo {s : State} {t : Word} (ht : t.toNat % 4 = 0) : GoesTo [] t s (conclude (transfer s t)) := by
  rw [transfer_aligned ht]
  exact goesTo_of_tags t rfl (fun r => by simp)

theorem transfer_faults {s : State} {t : Word} (ht : t.toNat % 4 ≠ 0) :
    FaultsAtPC (fun r => .misalignedPC r t) s (conclude (transfer s t)) :=
  ⟨s.report, congrArg conclude (transfer_misaligned ht), rfl⟩

/-- Settles O29. -/
theorem unconditionalBranch : Obligations.UnconditionalBranch := by
  refine fun rA rB imm16 => ⟨decode_br rA rB imm16, fun s => ?_⟩
  rw [exec_br, branchTarget_eq_branchTo]
  exact ⟨transfer_goesTo, transfer_faults⟩

theorem conditionalBranch_of_branchIf {op : Op6} {mk : Reg → Reg → Imm16 → Instr} {c : Word → Word → Bool}
    {taken : Word → Word → Prop} (henc : ∀ rA rB imm16, encode (mk rA rB imm16) = encI op rA rB imm16)
    (hexec : ∀ rA rB imm16 s, exec (mk rA rB imm16) s = branchIf c rA rB imm16 s)
    (hc : ∀ {a b}, c a b = true ↔ taken a b) : ConditionalBranch op mk taken := by
  refine fun rA rB imm16 => ⟨henc rA rB imm16 ▸ decode_encode _, fun s hE => ?_⟩
  rw [hexec, ← branchTarget_eq_branchTo]
  refine ⟨fun h => ?_, fun h ht => ?_, fun h ht => ?_⟩
  · exact branchIf_not_taken hE (Bool.eq_false_iff.mpr (h ∘ hc.mp))
  · exact branchIf_taken hE (hc.mpr h) ht
  · exact ⟨_, branchIf_misaligned hE (hc.mpr h) ht, rfl⟩

/-- Settles O30, each branch from the relation it shares with its comparison. -/
theorem conditionalBranches : Obligations.ConditionalBranches :=
  ⟨conditionalBranch_of_branchIf (fun _ _ _ => rfl) exec_beq eqWord_iff,
    conditionalBranch_of_branchIf (fun _ _ _ => rfl) exec_bne neWord_iff,
    conditionalBranch_of_branchIf (fun _ _ _ => rfl) exec_bge geSigned_iff,
    conditionalBranch_of_branchIf (fun _ _ _ => rfl) exec_bgeu geUnsigned_iff,
    conditionalBranch_of_branchIf (fun _ _ _ => rfl) exec_blt ltSigned_iff,
    conditionalBranch_of_branchIf (fun _ _ _ => rfl) exec_bltu ltUnsigned_iff⟩

/-! ## Calls and absolute jumps (R228 to R230) -/

theorem linkAndTransfer_disabled {s : State} {t : Word} (ht : t.toNat % 4 = 0) (h : s.tag linkReg = .disabled) :
    linkAndTransfer s t = .error (.registerError s.report linkReg) := by
  simp [linkAndTransfer, checkTarget_aligned ht, writeReg_disabled h]

/-- Settles O31: a J-format target is always a multiple of 4, so only the link can fault. -/
theorem absoluteCallAndJump : Obligations.AbsoluteCallAndJump := by
  refine fun imm26 => ⟨decode_encode (.call imm26), decode_encode (.jmpi imm26), fun s => ?_⟩
  have ht := jumpTo_aligned s.cfg s.pc imm26
  rw [exec_call, exec_jmpi, jumpTarget_eq_jumpTo]
  refine ⟨fun h31 => ?_, fun h31 => ?_, transfer_goesTo ht⟩
  · exact linkAndTransfer_result rfl (fun r => by simp) h31 ht
  · exact ⟨s.report, congrArg conclude (linkAndTransfer_disabled ht h31), rfl⟩

theorem execCallr_enabled {rA : Reg} {s : State} (h : Enabled s [rA]) :
    execCallr rA s = conclude (linkAndTransfer (s.setTag rA .read) (s.reg rA)) := by
  rw [execCallr, readReg_enabled (h rA List.mem_cons_self), except_bind_ok]

/-- Settles O32: the target is read before the link is written, so `callr r31` goes to the old value. -/
theorem indirectCall : Obligations.IndirectCall := by
  refine fun rA rB rC => ⟨decode_callr rA rB rC, fun s hE => ?_⟩
  rw [exec_callr, execCallr_enabled hE]
  refine ⟨fun ht h31 => ?_, fun ht => ?_⟩
  · exact linkAndTransfer_result rfl (tag_after_read s rA) (setTag_read_tag_ne h31) ht
  · exact ⟨_, congrArg conclude (linkAndTransfer_misaligned ht), rfl⟩

/-! ## Indirect jumps (R231, R232) -/

theorem jumpRegister_result {r : Reg} {s : State} (h : Enabled s [r]) :
    ((s.reg r).toNat % 4 = 0 → GoesTo [r] (s.reg r) s (jumpRegister r s)) ∧
      ((s.reg r).toNat % 4 ≠ 0 → FaultsAtPC (fun p => .misalignedPC p (s.reg r)) s (jumpRegister r s)) :=
  ⟨jumpRegister_aligned h, fun ht => ⟨_, jumpRegister_misaligned h ht, rfl⟩⟩

/-- Settles O33: `ret` is the indirect jump to the link register. -/
theorem indirectJumpAndReturn : Obligations.IndirectJumpAndReturn :=
  ⟨fun rA rB rC => ⟨decode_jmp rA rB rC, fun s hE => exec_jmp rA s ▸ jumpRegister_result hE⟩,
    fun rA rB rC => ⟨decode_ret rA rB rC, fun s hE => exec_ret s ▸ jumpRegister_result hE⟩⟩

end Sys2Proof.Machine
end

section
/-! The statements of 45_assembler.md. The numbers of the linked fields and relocated values are said first, then the places
of an image's bytes; a fetch after a load reads those bytes, since the program block alone owns their addresses. -/

namespace Sys2Proof.Machine

/-! ## Linked branches (R262) -/

/-- Widening two words before their difference leaves its low 16 bits. -/
theorem linkBranch_setWidth (a t : Word) : linkBranch a (t.setWidth 64) = (t - (a + 4#32)).setWidth 16 := by
  apply BitVec.eq_of_toNat_eq
  simp only [linkBranch, BitVec.toNat_setWidth, BitVec.toNat_sub]
  omega

/-- A word in the range of 16 bits is the sign extension of its low half. -/
theorem signedImm_setWidth {d : Word} (hlo : -32768 ≤ d.toInt) (hhi : d.toInt ≤ 32767) :
    signedImm (d.setWidth 16) = d := by
  apply BitVec.eq_of_toInt_eq
  rw [toInt_signedImm, ← BitVec.signExtend_eq_setWidth_of_le _ (by decide), BitVec.toInt_signExtend]
  exact Int.bmod_eq_of_le (by simpa using hlo) (by simp; omega)

/-- Settles O55: the linked field is the low half of the distance, which its sign extension gives back. -/
theorem linkedBranchReachesTarget : Obligations.LinkedBranchReachesTarget := by
  intro a t hlo hhi
  rw [linkBranch_setWidth, branchTarget, signedImm_setWidth hlo hhi]
  exact add_sub_cancel _ _

/-! ## `movia` (R252, R258) -/

theorem toNat_linkImm16_relocLo (v : Value) : (linkImm16 (relocLo v)).toNat = v.toNat % 65536 := by
  have hlow : v.toNat &&& 65535 = v.toNat % 65536 := Nat.and_two_pow_sub_one_eq_mod _ 16
  simp only [linkImm16, relocLo, BitVec.toNat_setWidth, BitVec.toNat_and, BitVec.reduceToNat, hlow]
  omega

theorem toNat_linkImm16_relocHiadj (v : Value) :
    (linkImm16 (relocHiadj v)).toNat = (v.toNat / 65536 + v.toNat / 32768 % 2) % 65536 := by
  have hhigh : v.toNat >>> 16 &&& 65535 = v.toNat / 65536 % 65536 := by
    rw [Nat.shiftRight_eq_div_pow]; exact Nat.and_two_pow_sub_one_eq_mod _ 16
  have hcarry : v.toNat >>> 15 &&& 1 = v.toNat / 32768 % 2 := by
    rw [Nat.shiftRight_eq_div_pow]; exact Nat.and_two_pow_sub_one_eq_mod _ 1
  simp only [linkImm16, relocHiadj, BitVec.toNat_setWidth, BitVec.toNat_add, BitVec.toNat_and, BitVec.toNat_ushiftRight,
    BitVec.reduceToNat, hhigh, hcarry]
  omega

/-- The carry of `%hiadj` makes up for the sign of `%lo`. -/
theorem hiadj_add_lo (v : Value) :
    highImm (linkImm16 (relocHiadj v)) + signedImm (linkImm16 (relocLo v)) = v.setWidth 32 := by
  apply BitVec.eq_of_toNat_eq
  rw [highImm_eq_ofNat, signedImm_eq_ofInt, toNat_linkImm16_relocHiadj, BitVec.toInt_eq_toNat_cond,
    toNat_linkImm16_relocLo, BitVec.toNat_add, BitVec.toNat_ofNat, BitVec.toNat_ofInt, BitVec.toNat_setWidth]
  split <;> omega

/-- Settles O56: `orhi` leaves the high part alone in `rB`, and `addi` adds the low part to it. -/
theorem moviaLoadsTheValue : Obligations.MoviaLoadsTheValue := by
  intro s rB v a h0 hs
  obtain ⟨t, ht, htB, htr, htpc, -⟩ :=
    oneSource_result (fun x => x ||| highImm (linkImm16 (relocHiadj v))) (d := rB) (rA := 0#5) hs
  rw [← exec_orhi] at ht
  have hen : t.tag rB ≠ .disabled := by
    rw [ne_eq, (exec_effect ht).dis]; exact hs rB (by simp)
  obtain ⟨u, hu, huB, hur, hupc, -⟩ :=
    oneSource_result (fun x => x + signedImm (linkImm16 (relocLo v))) (d := rB) (rA := rB) (s := t)
      (by simp [Enabled, hen])
  rw [← exec_addi] at hu
  refine ⟨_, _, t, u, rfl, ht, hu, ?_, fun r hr => (hur r hr).trans (htr r hr), ?_⟩
  · rw [huB, htB, if_neg h0, if_neg h0, reg_zero, BitVec.zero_or, hiadj_add_lo]
  · rw [hupc, htpc, BitVec.add_assoc]; rfl

/-! ## Pseudo-comparisons (R258) -/

/-- Settles O57: each is the comparison of the sources exchanged. -/
theorem pseudoComparisons : Obligations.PseudoComparisons := by
  intro s rC rA rB a hs
  have hswap : Enabled s [rB, rA, rC] := fun r hr => hs r ((List.Perm.swap rA rB [rC]).mem_iff.mp hr)
  obtain ⟨-, -, hge, hgeu, hlt, hltu⟩ := registerComparisons
  exact ⟨⟨_, rfl, (hlt rC rB rA).2 s hswap⟩, ⟨_, rfl, (hltu rC rB rA).2 s hswap⟩,
    ⟨_, rfl, (hge rC rB rA).2 s hswap⟩, ⟨_, rfl, (hgeu rC rB rA).2 s hswap⟩⟩

/-! ## Which programs have an image (R245, R267) -/

theorem buildImage_exists {cfg : Config} {start : Word} {code : List Decoded} {data : List Variable} :
    (∃ img, buildImage cfg start code data = some img) ↔ ∀ d ∈ code, ∃ w, cfg.encode d = some w := by
  rw [← encodeAll_exists]
  constructor
  · rintro ⟨img, h⟩
    obtain ⟨ws, hws, -⟩ := buildImage_eq_some.mp h
    exact ⟨ws, hws⟩
  · rintro ⟨ws, hws⟩
    exact ⟨_, buildImage_eq_some.mpr ⟨ws, hws, rfl⟩⟩

/-- An instruction has a word on a machine exactly when its row is in the catalog, or it is `divi` and the machine has it. -/
theorem all_encode_iff {cfg : Config} {code : List Decoded} :
    (∀ d ∈ code, ∃ w, cfg.encode d = some w) ↔
      (∀ i, .row i ∈ code → i.row ∈ cfg.catalog) ∧
        ∀ rB rA imm16, .divi rB rA imm16 ∈ code → ∃ op, cfg.divi = some op := by
  constructor
  · exact fun h => ⟨fun i hi => encode_row_exists.mp (h _ hi), fun rB rA imm16 hd => encode_divi_exists.mp (h _ hd)⟩
  · rintro ⟨hrow, hdivi⟩ d hd
    cases d with
    | row i => exact encode_row_exists.mpr (hrow i hd)
    | divi rB rA imm16 => exact encode_divi_exists.mpr (hdivi rB rA imm16 hd)

theorem encode_row_eq {cfg : Config} {i : Instr} {w : Word} (h : cfg.encode (.row i) = some w) :
    i.row ∈ cfg.catalog ∧ w = encode i := by
  simpa [Config.encode, eq_comm] using h

theorem encode_divi_eq {cfg : Config} {rB rA : Reg} {imm16 : Imm16} {w : Word}
    (h : cfg.encode (.divi rB rA imm16) = some w) : ∃ op, cfg.divi = some op ∧ w = encodeDivi op rB rA imm16 := by
  simpa [Config.encode, eq_comm] using h

/-! ## Where the bytes of a built image stand (R260) -/

/-- The bytes of a variable follow those of the variables before it. -/
theorem getElem_flatMap_variable (before : List Variable) (v : Variable) (after : List Variable) {j : Nat}
    (hj : j < v.bytes.length) :
    ((before ++ v :: after).flatMap Variable.bytes)[(before.map (fun u => u.bytes.length)).sum + j]? = v.bytes[j]? := by
  have hl : (before.flatMap Variable.bytes).length = (before.map (fun u => u.bytes.length)).sum := List.length_flatMap
  rw [List.flatMap_append, List.flatMap_cons, List.getElem?_append_right (by omega), List.getElem?_append_left (by omega),
    hl, Nat.add_sub_cancel_left]

theorem buildImage_start {cfg : Config} {start : Word} {code : List Decoded} {data : List Variable} {img : Image}
    (h : buildImage cfg start code data = some img) : img.start = start := by
  obtain ⟨ws, -, rfl⟩ := buildImage_eq_some.mp h
  rfl

/-- `imageBytes_parts` for a built image: its words are those of its instructions. -/
theorem buildImage_bytes {cfg : Config} {start : Word} {code : List Decoded} {data : List Variable} {img : Image}
    (h : buildImage cfg start code data = some img) :
    img.bytes.length = 4 * code.length + 4 + (data.flatMap Variable.bytes).length ∧
    (∀ (k : Nat) d, code[k]? = some d → ∃ w, cfg.encode d = some w ∧
      ∀ j, j < 4 → img.bytes[4 * k + j]? = some (byteOf w j)) ∧
    (∀ j, j < 4 → img.bytes[4 * code.length + j]? = some 0#8) ∧
    ∀ j, img.bytes[4 * code.length + 4 + j]? = (data.flatMap Variable.bytes)[j]? := by
  obtain ⟨ws, hws, rfl⟩ := buildImage_eq_some.mp h
  obtain ⟨hl, hk⟩ := encodeAll_eq_some hws
  obtain ⟨hlen, hword, hzero, hdata⟩ := imageBytes_parts ws data
  rw [hl] at hlen hzero hdata
  refine ⟨hlen, fun k d hd => ?_, hzero, hdata⟩
  obtain ⟨w, hw, hwk⟩ := hk k d hd
  exact ⟨w, hw, fun j hj => hword k w j hwk hj⟩

/-- Settles O59: the parts of the image's bytes, instruction by instruction and variable by variable. -/
theorem imageLayout : Obligations.ImageLayout := by
  refine fun cfg start code data => ⟨buildImage_exists.trans all_encode_iff, fun img h => ?_⟩
  obtain ⟨hlen, hword, hzero, hdata⟩ := buildImage_bytes h
  refine ⟨buildImage_start h, ?_, fun k i hi j hj => ?_, fun k rB rA imm16 op hi hop j hj => ?_, hzero, ?_⟩
  · rw [hlen, List.length_flatMap, Nat.mul_comm]
  · obtain ⟨w, hw, hb⟩ := hword k _ hi
    obtain ⟨-, rfl⟩ := encode_row_eq hw
    exact hb j hj
  · obtain ⟨w, hw, hb⟩ := hword k _ hi
    obtain ⟨op', hop', rfl⟩ := encode_divi_eq hw
    obtain rfl := Option.some.inj (hop.symm.trans hop')
    exact hb j hj
  · rintro before v after rfl j hj
    rw [Nat.add_assoc, hdata, getElem_flatMap_variable before v after hj]

/-! ## The program block (20_memory.md R51 to R55) -/

/-- Where no two blocks share a byte, a byte of a block resolves to that block. -/
theorem find_block_of_apart {bs : List Block} {b : Block} {a : Word} (hp : bs.Pairwise (fun b c => blocksApart b c = true))
    (hb : b ∈ bs) (ha : blockContains b a = true) : bs.find? (fun b => blockContains b a) = some b := by
  induction hp with
  | nil => exact absurd hb List.not_mem_nil
  | @cons c cs hc _ ih =>
    obtain rfl | hb := List.mem_cons.mp hb
    · rw [List.find?_cons, ha]
    · have hca : blockContains c a = false := Bool.eq_false_iff.mpr fun hca => by
        have hapart := hc b hb
        simp only [blocksApart, blockContains, Bool.or_eq_true, Bool.and_eq_true, decide_eq_true_eq] at hapart hca ha
        omega
      rw [List.find?_cons, hca]
      exact ih hb

/-- What a valid configuration says of its program block: it ends at or below 2^32, and its bytes are RAM. -/
theorem program_block_of_validConfig {cfg : Config} (h : validConfig cfg = true) :
    cfg.progBase.toNat + cfg.progLen ≤ 2 ^ 32 ∧
      ∀ a : Word, cfg.progBase.toNat ≤ a.toNat → a.toNat < cfg.progBase.toNat + cfg.progLen →
        ∃ b, resolve cfg a = some b ∧ b.kind = .ram := by
  simp only [validConfig, Bool.and_eq_true, List.all_eq_true, List.any_eq_true, decide_eq_true_eq, beq_iff_eq] at h
  obtain ⟨⟨⟨⟨⟨⟨hfit, hapart⟩, b, hb, ⟨hram, hstart⟩, hlen⟩, -⟩, -⟩, -⟩, -⟩ := h
  have hend : b.start + b.len ≤ 2 ^ 32 := by
    have := hfit b hb
    simp only [blockFits, Bool.and_eq_true, decide_eq_true_eq] at this
    exact this.2
  rw [← hstart, ← hlen]
  exact ⟨hend, fun a hlo hhi => ⟨b, find_block_of_apart hapart hb (by simp [blockContains, hlo, hhi]), hram⟩⟩

theorem opUnused_of_validConfig {cfg : Config} {op : Op6} (h : validConfig cfg = true) (hop : cfg.divi = some op) :
    opUnused op = true := by
  simp only [validConfig, hop, Bool.and_eq_true] at h
  exact h.2

/-! ## Fetches after a load (R259, R311) -/

/-- What an accepted load has checked (70_reset_and_hazards.md R311). -/
theorem hostLoad_checks {img : Image} {s t : State} (h : hostLoad img s = .next t) :
    validConfig s.cfg = true ∧ img.start = s.cfg.progBase ∧ img.bytes.length ≤ s.cfg.progLen := by
  unfold hostLoad at h
  split_ifs at h with hv hs _ hl
  exact ⟨by simpa using hv, by simpa using hs, by omega⟩

/-- A byte of a loaded image stands in RAM at its own place. -/
theorem loaded_byte {img : Image} {s t : State} (h : hostLoad img s = .next t) {k : Nat} {b : Byte}
    (hk : img.bytes[k]? = some b) : (∃ c, resolve s.cfg (img.start + BitVec.ofNat 32 k) = some c ∧ c.kind = .ram) ∧
      t.mem.read (img.start + BitVec.ofNat 32 k).toNat = b := by
  obtain ⟨hv, hs, hl⟩ := hostLoad_checks h
  obtain ⟨hend, hram⟩ := program_block_of_validConfig hv
  obtain rfl := hostLoad_eq_next h
  have hlt : k < img.bytes.length := (List.getElem?_eq_some_iff.mp hk).1
  have hplace : (img.start + BitVec.ofNat 32 k).toNat = img.start.toNat + k := by
    rw [← hs] at hend
    rw [BitVec.toNat_add, BitVec.toNat_ofNat]
    omega
  refine ⟨hram _ ?_ ?_, ?_⟩
  · rw [hplace, hs]; omega
  · rw [hplace, hs]; omega
  · rw [hplace]
    show Memory.read (Memory.ofBytes img.start.toNat img.bytes) _ = b
    rw [Memory.read_ofBytes, List.getD_eq_getElem?_getD, hk, Option.getD_some]

/-- After a load, a fetch at a place of the image reads the word whose bytes stand there. -/
theorem fetch_loaded {img : Image} {s t : State} (h : hostLoad img s = .next t) {n : Nat} {w : Word}
    (hw : ∀ j, j < 4 → img.bytes[4 * n + j]? = some (byteOf w j)) :
    fetch { t with pc := instrAddress img.start n } = .ok (w, { t with pc := instrAddress img.start n }) := by
  have hbyte (j : Nat) (hj : j < 4) := loaded_byte h (hw j hj)
  simp only [← add_ofNat_add_ofNat] at hbyte
  obtain rfl := hostLoad_eq_next h
  exact memRead_word_of_bytes (fun j hj => (hbyte j hj).1) (fun j hj => (hbyte j hj).2)

/-- On a valid configuration the decoder answers the word of an instruction with that instruction, `divi` included. -/
theorem config_decode_encode {cfg : Config} (hv : validConfig cfg = true) {d : Decoded} {w : Word}
    (h : cfg.encode d = some w) : cfg.decode w = .ok d := by
  cases d with
  | row i =>
    obtain ⟨hc, rfl⟩ := encode_row_eq h
    exact config_decode_eq_row.mpr ⟨decode_encode i, hc⟩
  | divi rB rA imm16 =>
    obtain ⟨op, hop, rfl⟩ := encode_divi_eq h
    rw [config_decode_encodeDivi cfg (opUnused_of_validConfig hv hop), if_pos hop]

/-- Settles O58: the words of the image stand in RAM, and the sentinel is the word whose bytes are the image's four zeros. -/
theorem loadedImageIsFetched : Obligations.LoadedImageIsFetched := by
  intro start code data img s t hb hl
  obtain ⟨-, hword, hzero, -⟩ := buildImage_bytes hb
  obtain rfl := buildImage_start hb
  refine ⟨fun k d hd => ?_, fetch_loaded hl fun j hj => ?_⟩
  · obtain ⟨w, hw, hbytes⟩ := hword k d hd
    exact ⟨w, hw, config_decode_encode (hostLoad_checks hl).1 hw, fetch_loaded hl hbytes⟩
  · rw [hzero j hj]; simp [byteOf]

end Sys2Proof.Machine
end

section
/-! The statements of 60_exceptions.md. The fault of an instruction is computed from the spec's tables in the order of R292
(`firstFault`), and each shape of instruction is shown to fault with it and to complete where there is none; the statements
follow from that one fact, since `firstFault` looks at the registers, their tags and the PC alone. -/

namespace Sys2Proof.Machine

/-! ## The first fault of an instruction (R292, steps 4 to 6) -/

/-- The fault of naming register `r` in state `s`. -/
def disabledFault (s : State) (r : Reg) : Option Fault :=
  if s.tag r = .disabled then some (.registerError s.report r) else none

/-- The fault of an instruction that reads `rs`, then makes the check that faults with `own`, then writes `d`: the first of
the three kinds in that order, reported with the tags of the reads before it. -/
def firstFault (own : Option (Report → Fault)) (d : Option Reg) : List Reg → State → Option Fault
  | [], s => (own.map (fun g => g s.report)).or (d.bind (disabledFault s))
  | r :: rs, s => (disabledFault s r).or (firstFault own d rs (s.setTag r .read))

theorem disabledFault_eq_some {s : State} {r : Reg} {f : Fault} :
    disabledFault s r = some f ↔ s.tag r = .disabled ∧ f = .registerError s.report r := by
  simp [disabledFault, eq_comm]

theorem disabledFault_enabled {s : State} {r : Reg} (h : s.tag r ≠ .disabled) : disabledFault s r = none := if_neg h

theorem disabledFault_disabled {s : State} {r : Reg} (h : s.tag r = .disabled) :
    disabledFault s r = some (.registerError s.report r) := if_pos h

theorem disabledFault_congr {s t : State} (h : t.report = s.report) (r : Reg) : disabledFault t r = disabledFault s r := by
  rw [disabledFault, disabledFault, h, tag_congr (congrArg Report.tags h) r]

theorem setTag_report_congr {s t : State} (h : t.report = s.report) (r : Reg) (x : Tag) :
    (t.setTag r x).report = (s.setTag r x).report := by
  obtain ⟨hpc, htags⟩ := Report.mk.inj h
  simp only [State.report, State.setTag, hpc, htags]

theorem firstFault_congr {s t : State} (h : t.report = s.report) (own : Option (Report → Fault)) (d : Option Reg)
    (rs : List Reg) : firstFault own d rs t = firstFault own d rs s := by
  induction rs generalizing s t with
  | nil => rw [firstFault, firstFault, h, funext (disabledFault_congr h)]
  | cons r rs ih => rw [firstFault, firstFault, disabledFault_congr h, ih (setTag_report_congr h r .read)]

/-- A disabled source is the first fault, whatever the check and the destination. -/
theorem firstFault_of_disabledSource {own : Option (Report → Fault)} {d : Option Reg} {rs : List Reg} {s : State} {r : Reg}
    (h : rs.find? (fun r => decide (s.tag r = .disabled)) = some r) :
    ∃ p, firstFault own d rs s = some (.registerError p r) ∧ p.pc = s.pc := by
  induction rs generalizing s with
  | nil => cases h
  | cons x rs ih =>
    by_cases hx : s.tag x = .disabled
    · obtain rfl : x = r := by simpa [hx] using h
      exact ⟨s.report, by rw [firstFault, disabledFault_disabled hx, Option.some_or], rfl⟩
    · obtain ⟨p, hp, hpc⟩ := ih (s := s.setTag x .read) (by simpa [setTag_read_tag_eq hx, hx] using h)
      exact ⟨p, by rw [firstFault, disabledFault_enabled hx, Option.none_or, hp], hpc⟩

/-- With the sources enabled, the first fault is that of the check, then that of the destination, in the state `u` the
reads leave. -/
theorem firstFault_of_enabled {rs : List Reg} {s : State} (h : Enabled s rs) :
    ∃ u : State, u.pc = s.pc ∧ (∀ r, u.tag r = .disabled ↔ s.tag r = .disabled) ∧ ∀ own d,
      firstFault own d rs s = (own.map (fun g => g u.report)).or (d.bind (disabledFault u)) := by
  induction rs generalizing s with
  | nil => exact ⟨s, rfl, fun _ => Iff.rfl, fun _ _ => rfl⟩
  | cons x rs ih =>
    obtain ⟨hx, hrs⟩ := enabled_cons.mp h
    obtain ⟨u, hpc, htag, hu⟩ := ih (s := s.setTag x .read) fun r hr => setTag_read_tag_ne (hrs r hr)
    refine ⟨u, hpc, fun r => (htag r).trans (setTag_read_tag_eq hx), fun own d => ?_⟩
    rw [firstFault, disabledFault_enabled hx, Option.none_or, hu]

/-! ## Operations and the fault they fail with -/

/-- The operation fails with the fault `o`, and completes where there is none. -/
def FailsWith {α : Type} (o : Option Fault) (x : Except Fault α) : Prop := ∀ f, x = .error f ↔ o = some f

theorem FailsWith.ok {α : Type} (a : α) : FailsWith none (.ok a) := fun f => by simp

theorem FailsWith.bind {α β : Type} {o p : Option Fault} {x : Except Fault α} {g : α → Except Fault β}
    (hx : FailsWith o x) (hg : ∀ a, x = .ok a → FailsWith p (g a)) : FailsWith (o.or p) (x >>= g) := by
  intro f
  cases x with
  | ok a =>
    have ho : o = none := Option.eq_none_iff_forall_ne_some.mpr fun f h => nomatch (hx f).mpr h
    rw [ho, Option.none_or]
    exact hg a rfl f
  | error e =>
    rw [(hx e).mp rfl, Option.some_or]
    simp

theorem readReg_failsWith (s : State) (r : Reg) : FailsWith (disabledFault s r) (readReg s r) := fun _ =>
  readReg_eq_error.trans disabledFault_eq_some.symm

theorem writeReg_failsWith (s : State) (r : Reg) (v : Word) : FailsWith (disabledFault s r) (writeReg s r v) := fun _ =>
  writeReg_eq_error.trans disabledFault_eq_some.symm

theorem checkTarget_failsWith (s : State) (t : Word) :
    FailsWith ((targetFault t).map (fun g => g s.report)) (checkTarget s t) := by
  intro f
  by_cases h : t.toNat % 4 = 0
  · simp [checkTarget_aligned h, targetFault, h]
  · simp [checkTarget_misaligned h, targetFault, h]

theorem memRead_failsWith (s : State) (a : Word) (w : Width) :
    FailsWith ((accessFault s a w.bytes .read).map (fun g => g s.report)) (memRead s a w) := by
  intro f
  simp [memRead_eq_error, accessFault, eq_comm (a := f)]

theorem memWrite_failsWith (s : State) (a : Word) (w : Width) (v : Word) :
    FailsWith ((accessFault s a w.bytes .write).map (fun g => g s.report)) (memWrite s a w v) := by
  intro f
  simp [memWrite_eq_error, accessFault, eq_comm (a := f)]

/-- The check of a divide (40_arith_logic.md R139, R140). -/
def divisorFault (b : Word) : Option (Report → Fault) := if b = 0#32 then some .divideByZero else none

theorem signedQuotient_failsWith (s : State) (a b : Word) :
    FailsWith ((divisorFault b).map (fun g => g s.report)) (signedQuotient s a b) := by
  intro f
  by_cases hb : b = 0#32
  · simp [hb, signedQuotient_zero, divisorFault]
  · obtain ⟨q, hq, -⟩ := signedQuotient_ne_zero s a hb
    simp [hq, divisorFault, hb]

theorem unsignedQuotient_failsWith (s : State) (a b : Word) :
    FailsWith ((divisorFault b).map (fun g => g s.report)) (unsignedQuotient s a b) := by
  intro f
  by_cases hb : b = 0#32
  · simp [hb, unsignedQuotient_zero, divisorFault]
  · obtain ⟨q, hq, -⟩ := unsignedQuotient_ne_zero s a hb
    simp [hq, divisorFault, hb]

theorem transfer_failsWith (s : State) (t : Word) :
    FailsWith ((targetFault t).map (fun g => g s.report)) (transfer s t) := by
  rw [← Option.or_none (o := Option.map _ _)]
  exact (checkTarget_failsWith s t).bind fun _ _ => .ok _

theorem linkAndTransfer_failsWith (s : State) (t : Word) :
    FailsWith (firstFault (targetFault t) (some 31#5) [] s) (linkAndTransfer s t) := by
  refine (checkTarget_failsWith s t).bind fun _ _ => ?_
  rw [Option.bind_some, ← Option.or_none (o := disabledFault s 31#5)]
  exact (writeReg_failsWith s linkReg _).bind fun _ _ => .ok _

/-! ## The shapes of instruction -/

/-- The outcome is the fault `o`, or a next state where there is none. -/
structure EndsBy (o : Option Fault) (out : Result) : Prop where
  fault : ∀ f, out = .fault f ↔ o = some f
  next : o = none → ∃ t, out = .next t

theorem FailsWith.endsBy {o : Option Fault} {x : Except Fault State} (h : FailsWith o x) : EndsBy o (conclude x) where
  fault f := conclude_eq_fault.trans (h f)
  next ho := by
    cases x with
    | ok t => exact ⟨t, rfl⟩
    | error f => exact nomatch ho.symm.trans ((h f).mp rfl)

section
variable {own : Option (Report → Fault)} {d : Option Reg} {s : State}

/-- A source is read before everything that comes after it. -/
theorem FailsWith.readReg_bind {r : Reg} {rs : List Reg} {α : Type} {g : Word × State → Except Fault α}
    (h : FailsWith (firstFault own d rs (s.setTag r .read)) (g (s.reg r, s.setTag r .read))) :
    FailsWith (firstFault own d (r :: rs) s) (readReg s r >>= g) := by
  refine (readReg_failsWith s r).bind fun p hp => ?_
  obtain ⟨-, rfl⟩ := readReg_eq_ok.mp hp
  exact h

/-- The end of an instruction whose check is `x` and which writes `d` in the state `k` makes of what `x` answers. -/
theorem FailsWith.check_writeReg {α : Type} {x : Except Fault α} {k : α → State} {v : α → Word} {d : Reg}
    (hx : FailsWith (own.map (fun g => g s.report)) x) (hk : ∀ a, x = .ok a → (k a).report = s.report) :
    FailsWith (firstFault own (some d) [] s) (x >>= fun a => writeReg (k a) d (v a) >>= fun t => pure (advance t)) := by
  refine hx.bind fun a ha => ?_
  rw [Option.bind_some, ← disabledFault_congr (hk a ha), ← Option.or_none (o := disabledFault _ _)]
  exact (writeReg_failsWith _ _ _).bind fun _ _ => .ok _

theorem twoSourceChecked_endsBy {f : State → Word → Word → Except Fault Word} {d rA rB : Reg}
    (hf : ∀ u, FailsWith (own.map (fun g => g u.report)) (f u (s.reg rA) (s.reg rB))) :
    EndsBy (firstFault own (some d) [rA, rB] s) (twoSourceChecked f d rA rB s) :=
  (FailsWith.readReg_bind (.readReg_bind ((hf _).check_writeReg fun _ _ => rfl))).endsBy

theorem twoSource_endsBy (f : Word → Word → Word) (d rA rB : Reg) :
    EndsBy (firstFault none (some d) [rA, rB] s) (twoSource f d rA rB s) :=
  twoSourceChecked_endsBy fun _ => .ok _

theorem oneSourceChecked_endsBy {f : State → Word → Except Fault Word} {d rA : Reg}
    (hf : ∀ u, FailsWith (own.map (fun g => g u.report)) (f u (s.reg rA))) :
    EndsBy (firstFault own (some d) [rA] s) (oneSourceChecked f d rA s) :=
  (FailsWith.readReg_bind ((hf _).check_writeReg fun _ _ => rfl)).endsBy

theorem oneSource_endsBy (f : Word → Word) (d rA : Reg) :
    EndsBy (firstFault none (some d) [rA] s) (oneSource f d rA s) :=
  oneSourceChecked_endsBy fun _ => .ok _

theorem loadForm_endsBy (w : Width) (ext : Width → Word → Word) (rB : Reg) (imm16 : Imm16) (rA : Reg) :
    EndsBy (firstFault (accessFault s (effectiveAddress (s.reg rA) imm16) w.bytes .read) (some rB) [rA] s)
      (loadForm w ext rB imm16 rA s) := by
  refine (FailsWith.readReg_bind ((memRead_failsWith (s.setTag rA .read) _ w).check_writeReg fun p hp => ?_)).endsBy
  obtain ⟨-, hm, -⟩ := memRead_eq_ok hp
  rw [hm]
  rfl

theorem storeForm_endsBy (w : Width) (rB : Reg) (imm16 : Imm16) (rA : Reg) :
    EndsBy (firstFault (accessFault s (effectiveAddress (s.reg rA) imm16) w.bytes .write) none [rA, rB] s)
      (storeForm w rB imm16 rA s) := by
  refine (FailsWith.readReg_bind (.readReg_bind ?_)).endsBy
  exact (memWrite_failsWith ((s.setTag rA .read).setTag rB .read) _ w _).bind fun _ _ => .ok _

theorem transfer_endsBy {t : Word} (h : own = targetFault t) :
    EndsBy (firstFault own none [] s) (conclude (transfer s t)) := by
  rw [h, firstFault, Option.bind_none, Option.or_none]
  exact (transfer_failsWith s t).endsBy

theorem branchIf_endsBy {c : Word → Word → Bool} {rA rB : Reg} {imm16 : Imm16} {taken : Prop} [Decidable taken]
    (hc : c (s.reg rA) (s.reg rB) = true ↔ taken) :
    EndsBy (firstFault (branchFault taken s imm16) none [rA, rB] s) (branchIf c rA rB imm16 s) := by
  refine (FailsWith.readReg_bind (.readReg_bind ?_)).endsBy
  rw [firstFault, Option.bind_none, Option.or_none, branchFault]
  by_cases h : taken
  · simp only [setTag_reg, hc.mpr h, h, if_true]
    exact transfer_failsWith _ _
  · simp only [setTag_reg, mt hc.mp h, h, if_false]
    exact .ok _

theorem jumpRegister_endsBy (r : Reg) :
    EndsBy (firstFault (targetFault (s.reg r)) none [r] s) (jumpRegister r s) := by
  refine (FailsWith.readReg_bind ?_).endsBy
  rw [firstFault, Option.bind_none, Option.or_none]
  exact transfer_failsWith _ _

theorem execCallr_endsBy (r : Reg) :
    EndsBy (firstFault (targetFault (s.reg r)) (some 31#5) [r] s) (execCallr r s) :=
  (FailsWith.readReg_bind (linkAndTransfer_failsWith _ _)).endsBy

end

/-- A J-format target is never misaligned (44_control_transfer.md R228). -/
theorem targetFault_jumpTarget (cfg : Config) (pc : Word) (imm26 : Imm26) : targetFault (jumpTarget cfg pc imm26) = none :=
  if_pos (jumpTarget_aligned cfg pc imm26)

/-- Every instruction ends by the first fault of its registers and its own check, and completes where there is none. -/
theorem exec_endsBy (i : Instr) (s : State) : EndsBy (firstFault (ownFault s i) (dest i) (reads i) s) (exec i s) := by
  cases i with
  | add | sub | mul | mulxss | mulxsu | mulxuu | and | or | xor | nor
  | cmpeq | cmpne | cmpge | cmpgeu | cmplt | cmpltu | sll | srl | sra | rol | ror =>
    simp only [exec_add, exec_sub, exec_mul, exec_mulxss, exec_mulxsu, exec_mulxuu, exec_and, exec_or, exec_xor,
      exec_nor, exec_cmpeq, exec_cmpne, exec_cmpge, exec_cmpgeu, exec_cmplt, exec_cmpltu, exec_sll, exec_srl, exec_sra,
      exec_rol, exec_ror]
    exact twoSource_endsBy _ _ _ _
  | div => exact twoSourceChecked_endsBy fun u => signedQuotient_failsWith u _ _
  | divu => exact twoSourceChecked_endsBy fun u => unsignedQuotient_failsWith u _ _
  | addi | muli | andi | andhi | ori | orhi | xori | xorhi
  | cmpeqi | cmpnei | cmpgei | cmpgeui | cmplti | cmpltui | slli | srli | srai | roli =>
    simp only [exec_addi, exec_muli, exec_andi, exec_andhi, exec_ori, exec_orhi, exec_xori, exec_xorhi, exec_cmpeqi,
      exec_cmpnei, exec_cmpgei, exec_cmpgeui, exec_cmplti, exec_cmpltui, exec_slli, exec_srli, exec_srai, exec_roli]
    exact oneSource_endsBy _ _ _
  | ldw | ldwio => exact loadForm_endsBy .word _ _ _ _
  | ldh | ldhu | ldhio | ldhuio => exact loadForm_endsBy .half _ _ _ _
  | ldb | ldbu | ldbio | ldbuio => exact loadForm_endsBy .byte _ _ _ _
  | stw | stwio => exact storeForm_endsBy .word _ _ _
  | sth | sthio => exact storeForm_endsBy .half _ _ _
  | stb | stbio => exact storeForm_endsBy .byte _ _ _
  | br => exact transfer_endsBy rfl
  | beq => exact branchIf_endsBy eqWord_iff
  | bne => exact branchIf_endsBy neWord_iff
  | bge => exact branchIf_endsBy geSigned_iff
  | bgeu => exact branchIf_endsBy geUnsigned_iff
  | blt => exact branchIf_endsBy ltSigned_iff
  | bltu => exact branchIf_endsBy ltUnsigned_iff
  | call imm26 =>
    have h := linkAndTransfer_failsWith s (jumpTarget s.cfg s.pc imm26)
    rw [targetFault_jumpTarget] at h
    exact h.endsBy
  | jmpi imm26 => exact transfer_endsBy (targetFault_jumpTarget s.cfg s.pc imm26).symm
  | callr => exact execCallr_endsBy _
  | jmp | ret => exact jumpRegister_endsBy _

/-- Settles O34: the three kinds of fault in the order of `firstFault`. -/
theorem faultOrder : Obligations.FaultOrder := by
  intro i s
  have faults {g : Report → Fault} {p : Report}
      (h : firstFault (ownFault s i) (dest i) (reads i) s = some (g p)) (hp : p.pc = s.pc) : FaultsAtPC g s (exec i s) :=
    ⟨p, ((exec_endsBy i s).fault _).mpr h, hp⟩
  refine ⟨fun r hr => ?_, fun hE g hg => ?_, fun hE hown d hd hdis => ?_⟩
  · obtain ⟨p, hf, hp⟩ := firstFault_of_disabledSource hr
    exact faults hf hp
  · obtain ⟨u, hpc, -, hu⟩ := firstFault_of_enabled hE
    exact faults (p := u.report) (by rw [hu, hg]; rfl) hpc
  · obtain ⟨u, hpc, htag, hu⟩ := firstFault_of_enabled hE
    refine faults (g := fun p => .registerError p d) (p := u.report) ?_ hpc
    rw [hu, hown, hd]
    exact disabledFault_disabled ((htag d).mpr hdis)

/-- Settles O35: an instruction with no first fault completes. -/
theorem everyInstructionCompletes : Obligations.EveryInstructionCompletes := by
  intro i s hE hown hdest
  obtain ⟨u, -, htag, hu⟩ := firstFault_of_enabled hE
  refine (exec_endsBy i s).next ?_
  rw [hu, hown]
  cases hd : dest i with
  | none => rfl
  | some d => exact disabledFault_enabled fun h => hdest d hd ((htag d).mp h)

/-! ## The fault of a step -/

/-- The own check of a decoded instruction, `divi` included (40_arith_logic.md R151). -/
def ownFaultDecoded (s : State) : Decoded → Option (Report → Fault)
  | .row i => ownFault s i
  | .divi _ _ imm16 => divisorFault (signedImm imm16)

theorem execDecoded_endsBy (d : Decoded) (s : State) :
    EndsBy (firstFault (ownFaultDecoded s d) (destDecoded d) (readsDecoded d) s) (execDecoded d s) := by
  cases d with
  | row i => exact exec_endsBy i s
  | divi rB rA imm16 =>
    rw [execDecoded_divi]
    exact oneSourceChecked_endsBy fun u => signedQuotient_failsWith u (s.reg rA) (signedImm imm16)

theorem EndsBy.retire {o : Option Fault} {out : Result} (h : EndsBy o out) : EndsBy o (retire out) where
  fault f := by
    rw [← h.fault]
    cases out <;> simp [Machine.retire]
  next ho := by
    obtain ⟨t, rfl⟩ := h.next ho
    exact ⟨_, rfl⟩

/-- The fault of a step that fetched the word `w` (R292, steps 3 to 6). -/
def wordFault (w : Word) (s : State) : Option Fault :=
  if w = 0#32 then none
  else
    match s.cfg.decode w with
    | .error _ => some (.decodeError s.report w)
    | .ok d => firstFault (ownFaultDecoded s d) (destDecoded d) (readsDecoded d) s

theorem wordFault_decoded {s : State} {w : Word} {d : Decoded} (hw : w ≠ 0#32) (hd : s.cfg.decode w = .ok d) :
    wordFault w s = firstFault (ownFaultDecoded s d) (destDecoded d) (readsDecoded d) s := by
  simp only [wordFault, if_neg hw, hd]

theorem wordFault_illegal {s : State} {w : Word} {e} (hw : w ≠ 0#32) (he : s.cfg.decode w = .error e) :
    wordFault w s = some (.decodeError s.report w) := by
  simp only [wordFault, if_neg hw, he]

theorem afterFetch_illegal {s : State} {w : Word} {e} (hw : w ≠ 0#32) (he : s.cfg.decode w = .error e) :
    afterFetch w s = .fault (.decodeError s.report w) := by
  simp only [afterFetch, if_neg hw, he]

theorem afterFetch_eq_fault {w : Word} {s : State} {f : Fault} : afterFetch w s = .fault f ↔ wordFault w s = some f := by
  by_cases hw : w = 0#32
  · simp [hw, afterFetch_zero, wordFault]
  · cases hd : s.cfg.decode w with
    | error e => simp [afterFetch_illegal hw hd, wordFault_illegal hw hd]
    | ok d =>
      rw [afterFetch_decoded hw hd, wordFault_decoded hw hd]
      exact (execDecoded_endsBy d s).retire.fault f

theorem step_ne_fault_of_idle {s : State} {f : Fault} (h : s.run = .idle) : step s ≠ .fault f := by
  rw [step_idle h]
  nofun

/-- A step that faults was not in `Idle`; its fetch faulted, or what it fetched did. -/
theorem step_eq_fault {s : State} {f : Fault} (h : step s = .fault f) : s.run ≠ .idle ∧
    (fetch s.resetTags = .error f ∨ ∃ w u, fetch s.resetTags = .ok (w, u) ∧ wordFault w u = some f) := by
  have hr : s.run ≠ .idle := fun hr => step_ne_fault_of_idle hr h
  refine ⟨hr, ?_⟩
  cases hf : fetch s.resetTags with
  | error e =>
    simp only [step, cycle, if_neg hr, hf] at h
    exact .inl (congrArg Except.error (Host.Outcome.fault.inj h))
  | ok p => exact .inr ⟨p.1, p.2, rfl, afterFetch_eq_fault.mp ((step_of_fetch hr hf).symm.trans h)⟩

/-! ## A fault repeated (R286, R289) -/

section
variable {g : Report → Fault} (p : Report)

theorem divisorFault_report {b : Word} (h : divisorFault b = some g) : (g p).report = p := by
  unfold divisorFault at h
  split at h <;> cases h
  rfl

theorem accessFault_report {s : State} {a : Word} {n : Nat} {k : Access} (h : accessFault s a n k = some g) :
    (g p).report = p := by
  obtain ⟨x, -, rfl⟩ := Option.map_eq_some_iff.mp h
  rfl

theorem targetFault_report {t : Word} (h : targetFault t = some g) : (g p).report = p := by
  unfold targetFault at h
  split at h <;> cases h
  rfl

theorem branchFault_report {taken : Prop} [Decidable taken] {s : State} {imm16 : Imm16}
    (h : branchFault taken s imm16 = some g) : (g p).report = p := by
  unfold branchFault at h
  split at h
  · exact targetFault_report p h
  · cases h

/-- The fault of an instruction's own check carries the report it is raised with. -/
theorem ownFault_report {s : State} {i : Instr} (h : ownFault s i = some g) : (g p).report = p := by
  cases i with
  | div | divu => exact divisorFault_report p h
  | ldw | ldh | ldhu | ldb | ldbu | ldwio | ldhio | ldhuio | ldbio | ldbuio
  | stw | sth | stb | stwio | sthio | stbio => exact accessFault_report p h
  | br | beq | bne | bge | bgeu | blt | bltu => exact branchFault_report p h
  | callr | jmp | ret => exact targetFault_report p h
  | _ => cases h

theorem ownFaultDecoded_report {s : State} {d : Decoded} (h : ownFaultDecoded s d = some g) : (g p).report = p := by
  cases d with
  | row i => exact ownFault_report p h
  | divi rB rA imm16 => exact divisorFault_report p h

end

theorem afterFault_of_report {s : State} {f : Fault} (h : f.report = s.report) : s.afterFault f = s := by
  rw [State.afterFault, h]
  rfl

theorem disabledFault_report {s : State} {r : Reg} {f : Fault} (h : disabledFault s r = some f) : f.report = s.report := by
  obtain ⟨-, rfl⟩ := disabledFault_eq_some.mp h
  rfl

/-- An instruction that faults has marked enabled registers alone. -/
theorem firstFault_keeps_disabled {own : Option (Report → Fault)} {d : Option Reg} {rs : List Reg} {s : State} {f : Fault}
    (hown : ∀ g p, own = some g → (g p).report = p) (h : firstFault own d rs s = some f) (x : Reg) :
    (s.afterFault f).tag x = .disabled ↔ s.tag x = .disabled := by
  induction rs generalizing s with
  | nil =>
    have hf : f.report = s.report := by
      rcases Option.or_eq_some_iff.mp h with h | ⟨-, h⟩
      · obtain ⟨g, hg, rfl⟩ := Option.map_eq_some_iff.mp h
        exact hown g _ hg
      · obtain ⟨r, -, hr⟩ := Option.bind_eq_some_iff.mp h
        exact disabledFault_report hr
    rw [afterFault_of_report hf]
  | cons r rs ih =>
    rcases Option.or_eq_some_iff.mp h with h | ⟨hr, h⟩
    · rw [afterFault_of_report (disabledFault_report h)]
    · have hen : s.tag r ≠ .disabled := fun hd => nomatch (disabledFault_disabled hd).symm.trans hr
      exact (ih h).trans (setTag_read_tag_eq hen)

theorem wordFault_keeps_disabled {w : Word} {s : State} {f : Fault} (h : wordFault w s = some f) (x : Reg) :
    (s.afterFault f).tag x = .disabled ↔ s.tag x = .disabled := by
  have hw : w ≠ 0#32 := by
    rintro rfl
    cases h
  cases hd : s.cfg.decode w with
  | error e =>
    obtain rfl := Option.some.inj ((wordFault_illegal hw hd).symm.trans h)
    rfl
  | ok d =>
    rw [wordFault_decoded hw hd] at h
    exact firstFault_keeps_disabled (fun g p hg => ownFaultDecoded_report p hg) h x

/-- A faulting step leaves the same registers disabled. -/
theorem step_fault_keeps_disabled {s : State} {f : Fault} (h : step s = .fault f) (x : Reg) :
    (s.afterFault f).tag x = .disabled ↔ s.tag x = .disabled := by
  obtain ⟨-, hf | ⟨w, u, hf, hw⟩⟩ := step_eq_fault h
  · obtain ⟨a, -, rfl⟩ := memRead_eq_error.mp hf
    exact resetTags_tag_eq_disabled s x
  · have hu : u.tag x = s.resetTags.tag x := tag_congr (by rw [(fetch_eq_ok hf).1]) x
    calc (s.afterFault f).tag x = .disabled
      _ ↔ u.tag x = .disabled := wordFault_keeps_disabled hw x
      _ ↔ s.tag x = .disabled := by rw [hu, resetTags_tag_eq_disabled]

theorem freshTag_eq (t : Tag) : freshTag t = if t = .disabled then .disabled else .untouched := by
  cases t <;> rfl

/-- The next step resets away what a faulting one has marked. -/
theorem afterFault_resetTags {s : State} {f : Fault}
    (h : ∀ x, (s.afterFault f).tag x = .disabled ↔ s.tag x = .disabled) : (s.afterFault f).resetTags = s.resetTags := by
  have htags : (s.afterFault f).resetTags.tags = s.resetTags.tags := tags_ext fun x => by
    simp only [resetTags_tag, freshTag_eq, h x]
  show { s.resetTags with tags := (s.afterFault f).resetTags.tags } = s.resetTags
  rw [htags]

/-- A step looks at the tags only as reset. -/
theorem step_congr {s t : State} (hr : t.run = s.run) (h : t.resetTags = s.resetTags) : step t = step s := by
  rw [step, step, cycle, cycle, hr, h]

theorem hostStep_eq_fault {s t : State} {f : Fault} :
    hostStep s = (t, .fault f) ↔ step s = .fault f ∧ s.afterFault f = t := by
  unfold hostStep
  cases step s with
  | next u => by_cases hu : u.run = .halted <;> simp [hu]
  | fault e => simp +contextual [and_comm]
  | refused r => simp

/-- Settles O36: the state a fault leaves differs from the one before in tags that the next step resets alike. -/
theorem faultRepeats : Obligations.FaultRepeats := by
  intro s t f h
  obtain ⟨hf, rfl⟩ := hostStep_eq_fault.mp h
  have hreset := afterFault_resetTags (step_fault_keeps_disabled hf)
  exact hostStep_eq_fault.mpr ⟨(step_congr (s := s) (t := s.afterFault f) rfl hreset).trans hf, rfl⟩

/-! ## Stimuli (R289) -/

/-- The stimuli change the switches, the buttons and the input queue alone (20_memory.md R86 to R88). -/
theorem hostMoves_stimuli {ms : List HostMove} (h : ∀ m ∈ ms, isStimulus m = true) (s : State) :
    ∃ sw btn inq, hostMoves ms s = { s with sw := sw, btn := btn, inq := inq } := by
  induction ms generalizing s with
  | nil => exact ⟨_, _, _, rfl⟩
  | cons m ms ih =>
    obtain ⟨hm, hms⟩ := List.forall_mem_cons.mp h
    obtain ⟨sw, btn, inq, e⟩ := ih hms (hostMove m s)
    refine ⟨sw, btn, inq, e.trans ?_⟩
    cases m with
    | load _ | reset | step => cases hm
    | toggleSwitch _ | pressButton _ | releaseButton _ | feedSerialInput _ => rfl

/-- The fault of a fetched word depends on neither the switches, the buttons nor the input queue. -/
theorem wordFault_hostState (w : Word) (s : State) (sw btn : Nibble) (inq : List Byte) :
    wordFault w { s with sw := sw, btn := btn, inq := inq } = wordFault w s := by
  have hown (d : Decoded) : ownFaultDecoded { s with sw := sw, btn := btn, inq := inq } d = ownFaultDecoded s d := rfl
  have hfirst := firstFault_congr (s := s) (t := { s with sw := sw, btn := btn, inq := inq }) rfl
  simp only [wordFault, hown, hfirst]
  rfl

/-- The fault of a step on a word in RAM is that of the word. -/
theorem step_ram_eq_fault {s : State} {f : Fault} (hr : s.run ≠ .idle) (hm : InRam s.cfg s.pc 4) :
    step s = .fault f ↔ wordFault (ramWord s s.pc) s.resetTags = some f := by
  rw [step_ram hr hm, afterFetch_eq_fault]

/-- Settles O37: a stimulus leaves the word at the PC and the fault of a word as they were. -/
theorem stimuliNeverChangeAFault : Obligations.StimuliNeverChangeAFault := by
  intro s ms f hm hms
  obtain ⟨sw, btn, inq, e⟩ := hostMoves_stimuli hms s
  rw [e]
  by_cases hr : s.run = .idle
  · exact iff_of_false (step_ne_fault_of_idle hr) (step_ne_fault_of_idle hr)
  · rw [step_ram_eq_fault hr hm, ← wordFault_hostState _ s.resetTags sw btn inq]
    exact (step_ram_eq_fault (s := { s with sw := sw, btn := btn, inq := inq }) hr hm).symm

/-! ## Faults of the fetch and of decoding (R292, steps 1 and 3) -/

theorem refuses_read (cfg : Config) : refuses cfg .read = fun a => (resolve cfg a).isNone := by
  funext a
  cases h : resolve cfg a <;> simp [refuses, h]

theorem step_of_fetch_error {s : State} {f : Fault} (hr : s.run ≠ .idle) (hf : fetch s.resetTags = .error f) :
    step s = .fault f := by
  simp only [step, cycle, if_neg hr, hf]

/-- Settles O40. -/
theorem fetchAndDecodeFaults : Obligations.FetchAndDecodeFaults := by
  refine fun s hr => ⟨fun x hx => ?_, fun e hm hw he => ?_⟩
  · rw [← refuses_read] at hx
    exact ⟨_, step_of_fetch_error hr (memRead_refused (s := s.resetTags) (w := .word) hx), rfl⟩
  · exact ⟨_, (step_ram hr hm).trans (afterFetch_illegal (s := s.resetTags) hw he), rfl⟩

end Sys2Proof.Machine
end

section
/-! The statements of 70_reset_and_hazards.md: when `load` is accepted, the state it leaves, and that a run ends in one way. -/

namespace Sys2Proof.Machine

/-! ## When a load is accepted (R311) -/

theorem aligned_iff (a : Word) : aligned a = true ↔ a.toNat % 4 = 0 := by
  rw [aligned, beq_iff_eq, lowBits_eq_zero]

/-- `load` is accepted exactly when the five checks of R311 pass, and leaves the loaded state. -/
theorem hostLoad_eq_next_iff {img : Image} {s t : State} :
    hostLoad img s = .next t ↔
      (validConfig s.cfg = true ∧ img.start = s.cfg.progBase ∧ img.start.toNat % 4 = 0 ∧
        img.bytes.length ≤ s.cfg.progLen ∧ s.cfg.entry.toNat % 4 = 0) ∧ t = loaded img s := by
  simp only [← aligned_iff]
  constructor
  · intro h
    refine ⟨?_, hostLoad_eq_next h⟩
    unfold hostLoad at h
    split_ifs at h with hv hs ha hl he
    exact ⟨Bool.not_eq_false _ ▸ hv, not_not.mp hs, Bool.not_eq_false _ ▸ ha, Nat.le_of_not_lt hl,
      Bool.not_eq_false _ ▸ he⟩
  · rintro ⟨⟨hv, hs, ha, hl, he⟩, rfl⟩
    simp [hostLoad, hv, hs, hs ▸ ha, hl, he]

/-! ## The state a load leaves (R311, 10_state.md R41) -/

theorem loaded_reg (img : Image) (s : State) {r : Reg} (hr : r ≠ 0#5) :
    (loaded img s).reg r = s.cfg.regReset[r.toNat] := by
  have hn : 0 ≠ r.toNat := fun h => hr (BitVec.eq_of_toNat_eq h.symm)
  simp [State.reg, loaded, initialRegs, hr, hn]

theorem loaded_tag (img : Image) (s : State) (r : Reg) :
    (loaded img s).tag r = if r ∈ s.cfg.disabled then .disabled else .untouched := by
  simp [State.tag, loaded, initialTags]

theorem loaded_tag_eq_disabled (img : Image) (s : State) (r : Reg) :
    (loaded img s).tag r = .disabled ↔ r ∈ s.cfg.disabled := by
  rw [loaded_tag]
  split_ifs with hr <;> simp [hr]

/-- Outside its own bytes an image reads blank. -/
theorem Memory.read_ofBytes_outside {a x : Nat} {bs : List Byte} (h : x < a ∨ a + bs.length ≤ x) :
    Memory.read (Memory.ofBytes a bs) x = Memory.blank := by
  obtain h | h := h
  · exact Memory.read_below fun c hc => Nat.lt_of_lt_of_le h (Memory.mem_ofBytes hc).1
  · obtain ⟨k, rfl⟩ := Nat.exists_eq_add_of_le (Nat.le_trans (Nat.le_add_right ..) h)
    rw [Memory.read_ofBytes, List.getD_eq_default _ _ (by omega)]

/-- Every byte an image lists is a byte of the program block, which is RAM. -/
theorem image_in_ram {cfg : Config} {img : Image} (hv : validConfig cfg = true) (hs : img.start = cfg.progBase)
    (hl : img.bytes.length ≤ cfg.progLen) {c : Host.Cell} (hc : c ∈ Memory.ofBytes img.start.toNat img.bytes) :
    c.1 < 2 ^ 32 ∧ InRam cfg (BitVec.ofNat 32 c.1) 1 := by
  obtain ⟨hend, hram⟩ := program_block_of_validConfig hv
  obtain ⟨hlo, hhi⟩ := Memory.mem_ofBytes hc
  rw [hs] at hlo hhi
  have hlt : c.1 < 2 ^ 32 := by omega
  have hplace : (BitVec.ofNat 32 c.1).toNat = c.1 := by rw [BitVec.toNat_ofNat, Nat.mod_eq_of_lt hlt]
  refine ⟨hlt, fun i hi => ?_⟩
  obtain rfl : i = 0 := by omega
  rw [BitVec.add_zero]
  exact hram _ (by omega) (by omega)

/-- Settles O43: the image is in canonical form, and a load that passed its checks placed it in the program block. -/
theorem loadEstablishesInvariant : Obligations.LoadEstablishesInvariant := by
  intro img s t h
  obtain ⟨⟨hv, hs, -, hl, he⟩, rfl⟩ := hostLoad_eq_next_iff.mp h
  exact {
    canonical := Memory.ofBytes_wf _ _
    onlyRam := fun _ hc => image_in_ram hv hs hl hc
    zeroReg := by simp [loaded, initialRegs]
    pcAligned := he
    disabledTags := loaded_tag_eq_disabled img s }

/-- Settles O50: the checks, then the loaded state field by field. -/
theorem loadRule : Obligations.LoadRule := by
  refine fun img s => ⟨?_, fun r h => ?_, fun t h => ?_⟩
  · simp only [hostLoad_eq_next_iff, exists_and_left, exists_eq, and_true]
  · simp only [hostMove, h, afterCommand]
  · have hmove : hostMove (.load img) s = t := by simp only [hostMove, h, afterCommand]
    obtain rfl := hostLoad_eq_next h
    exact ⟨hmove, rfl, rfl, reg_zero _, fun _ => loaded_reg img s, loaded_tag img s,
      fun k _ => Memory.read_ofBytes _ _ k, fun _ => Memory.read_ofBytes_outside,
      rfl, rfl, rfl, rfl, rfl, rfl, rfl, rfl, rfl, rfl⟩

/-! ## A run ends in one way (R317) -/

/-- Two runs that end by themselves agree, each with the run that is allowed the steps of both. -/
theorem runEnds_unique {s t t' : State} {r r' : RunReply} (h : runEnds s t r) (h' : runEnds s t' r') :
    t = t' ∧ r = r' := by
  obtain ⟨m, hm, hr⟩ := h
  obtain ⟨n, hn, hr'⟩ := h'
  have key : (t, r) = (t', r') := calc
    (t, r) = runFor (m + n) s := by rw [runFor_add hm, if_neg hr]
    _ = runFor (n + m) s := by rw [Nat.add_comm]
    _ = (t', r') := by rw [runFor_add hn, if_neg hr']
  exact Prod.mk.inj key

/-- The command `run` has at most one outcome: in `Idle` the refusal, under a bound the value of a function, without one the
one end of its loop. -/
theorem hostRun_unique {s t t' : State} {r r' : RunReply} (h : hostRun s t r) (h' : hostRun s t' r') :
    t = t' ∧ r = r' := by
  unfold hostRun at h h'
  by_cases hi : s.run = .idle
  · rw [if_pos hi] at h h'
    obtain ⟨ht, hr⟩ := h
    obtain ⟨rfl, rfl⟩ := h'
    exact ⟨ht, hr⟩
  · rw [if_neg hi] at h h'
    cases hl : s.cfg.runLimit with
    | some n => rw [hl] at h h'; exact Prod.mk.inj (h.symm.trans h')
    | none => rw [hl] at h h'; exact runEnds_unique h h'

/-- Settles O53. -/
theorem runEndsOneWay : Obligations.RunEndsOneWay :=
  ⟨fun _ _ _ _ _ => runEnds_unique, fun _ _ _ _ _ => hostRun_unique⟩

end Sys2Proof.Machine
end

section
/-! The words of the test vectors (95_test_vectors.md 2.1 to 2.7): each is the encoding of the instruction its vector names, so
the round trip decodes it to that instruction. -/

namespace Sys2Proof.Machine

theorem decode_of_encode_eq {i : Instr} {w : Word} (h : encode i = w) : decode w = .ok i :=
  h ▸ decode_encode i

/-- Settles O5: the encoder gives each vector's word, field by field. -/
theorem vectorWordsDecode : Obligations.VectorWordsDecode := by
  have word_addi : encode (.addi 2#5 0#5 5#16) = 0x00800144#32 := by decide
  have word_add : encode (.add 3#5 4#5 0#5) = 0x2007883A#32 := by decide
  have word_call : encode (.call 0x8008#26) = 0x00200200#32 := by decide
  have word_slli : encode (.slli 4#5 2#5 4#5) = 0x1008913A#32 := by decide
  have word_br : encode (.br 0xFFFC#16) = 0x003FFF06#32 := by decide
  have word_ret : encode .ret = 0xF800283A#32 := by decide
  have word_stw : encode (.stw 0#5 0#16 2#5) = 0x10000015#32 := by decide
  have word_cmpeq : encode (.cmpeq 4#5 2#5 3#5) = 0x10C9003A#32 := by decide
  exact ⟨decode_of_encode_eq word_addi, decode_of_encode_eq word_add, decode_of_encode_eq word_call,
    decode_of_encode_eq word_slli, decode_of_encode_eq word_br, decode_of_encode_eq word_ret,
    decode_of_encode_eq word_stw, decode_of_encode_eq word_cmpeq⟩

end Sys2Proof.Machine
end
